-- ==== Sys2Proof/Word.lean ====
section
/-! DEFINITION. The machine's words: a limb, a command word and a host register are 32 bits (spec R6, R12, R110),
a byte lane of the host bus is 8 bits (R79), a register field names one of sixteen big registers (R7, R115) and the
host port decodes fifteen offset bits (R71). -/

namespace Sys2Proof

/-- A limb, a command word, or a host register: 32 bits, bit 0 least significant (R6, R12). -/
abbrev Word := BitVec 32

/-- One byte lane of a word (R79). -/
abbrev Byte := BitVec 8

/-- A big-register number, R0 to R15 (R7, R115). -/
abbrev RegIdx := Fin 16

/-- The offset bits [14:0] that MPALU decodes of a host access (R71). -/
abbrev Offset := BitVec 15

end Sys2Proof
end

