-- ==== Sys2Proof/Config.lean ====
section
/-! DEFINITION. What an implementation of MPALU fixes (spec R8 to R11), and the free values: constants with no body
for what the spec leaves unspecified (R243, R290, R341, R345). -/

namespace Sys2Proof

/-- MODINV_MODE (R10): EXACT gives the value of R241, WEAK an unspecified value in [0, b) (R243). -/
inductive ModInvMode where
  | exactMode
  | weakMode
deriving DecidableEq, Repr

/-- The configuration parameters of R8 to R11. They are constants of a machine: no step changes them. -/
structure Config where
  /-- L_MAX, the limbs a big register holds (R8). -/
  lMax : Nat
  /-- PCW = log2(IMEM_WORDS), the width of the program counter (R9). -/
  pcw : Nat
  /-- MODINV_MODE (R10). -/
  modinvMode : ModInvMode
  /-- HOST_BASE, where the platform places the 32 KiB host window (R11). -/
  hostBase : Nat
deriving DecidableEq, Repr

/-- The reference configuration: L_MAX = 128, IMEM_WORDS = 1024, EXACT (R8, R9, R10).
DESIGN CHOICE (log 2): the spec gives HOST_BASE no reference value; the model writes 0 and rests nothing on it. -/
def Config.reference : Config := { lMax := 128, pcw := 10, modinvMode := .exactMode, hostBase := 0 }

/-- IMEM_WORDS = 2^PCW (R9). -/
def Config.imemWords (c : Config) : Nat := 2 ^ c.pcw

/-- The parameter ranges of R8 and R9: 1 ≤ L_MAX ≤ 1024 and IMEM_WORDS a power of two from 2 to 4096. -/
def Config.valid (c : Config) : Bool :=
  decide (1 ≤ c.lMax) && decide (c.lMax ≤ 1024) && decide (1 ≤ c.pcw) && decide (c.pcw ≤ 12)

/-- FREE VALUE (R341, R345; log 4): the byte that power-on number `epoch` leaves at a window offset of BUF or IMEM.
It is fixed at power-on and kept until the word is written. -/
opaque Config.powerOnByte (epoch : Nat) (offset : Nat) : Byte

/-- FREE VALUE (R290; log 9): the word a refused host read returns, a fresh one for each draw. -/
opaque Config.busyReadWord (draw : Nat) : Word

/-- FREE VALUE (R243; log 9): the number from which MODINV in WEAK mode takes its d, a fresh one for each draw. -/
opaque Config.weakInverse (draw : Nat) : Nat

end Sys2Proof
end

