-- ==== Sys2Proof/Syntax.lean ====
section
/-! DEFINITION. The command set: one constructor for each of the 31 rows of spec/opcode_table.json (R119). Arguments
stand in the order of the encoding's fields rd, ra, rb, rc (R111), an immediate last. An immediate is the signed
integer sext_16 of its field (R116). -/

namespace Sys2Proof

/-- A command of MPALU. -/
inductive Instr where
  /-- NOP (R260) -/
  | nop
  /-- HALT (R261) -/
  | halt
  /-- LDI rd, imm (R140) -/
  | ldi (rd : RegIdx) (imm : Int)
  /-- MOV rd, ra (R141) -/
  | mov (rd ra : RegIdx)
  /-- ADD rd, ra, rb (R161) -/
  | add (rd ra rb : RegIdx)
  /-- ADD.M rd, ra, rb (R162) -/
  | addM (rd ra rb : RegIdx)
  /-- SUB rd, ra, rb (R163) -/
  | sub (rd ra rb : RegIdx)
  /-- SUB.M rd, ra, rb (R164) -/
  | subM (rd ra rb : RegIdx)
  /-- MUL rd, ra, rb (R166) -/
  | mul (rd ra rb : RegIdx)
  /-- MUL.M rd, ra, rb (R167) -/
  | mulM (rd ra rb : RegIdx)
  /-- DIV: quotient to rd, remainder to rc, dividend ra, divisor rb (R168) -/
  | div (rd ra rb rc : RegIdx)
  /-- DIV.M: as DIV on magnitudes (R169) -/
  | divM (rd ra rb rc : RegIdx)
  /-- CMP ra, rb (R172) -/
  | cmp (ra rb : RegIdx)
  /-- CMP.M ra, rb (R173) -/
  | cmpM (ra rb : RegIdx)
  /-- SHFT rd, ra, rb: amount in rb (R201) -/
  | shft (rd ra rb : RegIdx)
  /-- SHFTI rd, ra, imm (R202) -/
  | shfti (rd ra : RegIdx) (imm : Int)
  /-- AND rd, ra, rb (R206) -/
  | and (rd ra rb : RegIdx)
  /-- OR rd, ra, rb (R207) -/
  | or (rd ra rb : RegIdx)
  /-- XOR rd, ra, rb (R208) -/
  | xor (rd ra rb : RegIdx)
  /-- GCD rd, ra, rb (R231) -/
  | gcd (rd ra rb : RegIdx)
  /-- MODEXP rd, ra (base), rb (exponent), rc (modulus) (R236) -/
  | modexp (rd ra rb rc : RegIdx)
  /-- MODINV rd, ra (value), rb (modulus) (R241, R243) -/
  | modinv (rd ra rb : RegIdx)
  /-- B.AL off (R262, R118) -/
  | bAL (off : Int)
  /-- B.EQ off -/
  | bEQ (off : Int)
  /-- B.NE off -/
  | bNE (off : Int)
  /-- B.LT off -/
  | bLT (off : Int)
  /-- B.GE off -/
  | bGE (off : Int)
  /-- B.GT off -/
  | bGT (off : Int)
  /-- B.LE off -/
  | bLE (off : Int)
  /-- B.NI off -/
  | bNI (off : Int)
  /-- B.IV off -/
  | bIV (off : Int)
deriving DecidableEq, Repr

end Sys2Proof
end

