-- ==== Sys2Proof/WellFormed.lean ====
section
/-! DEFINITION. Which terms of `Instr` stand for a command: an immediate or branch offset must lie in −32768 to 32767
(spec R116, R132), because its field has 16 bits. Register numbers are in range by their type (R115). -/

namespace Sys2Proof

/-- The range of a 16-bit two's complement field (R13, R116, R132). -/
def immInRange (v : Int) : Bool := decide (-32768 ≤ v) && decide (v ≤ 32767)

/-- A term that some command word encodes. -/
def Instr.wellFormed (i : Instr) : Bool :=
  match i with
  | .nop => true
  | .halt => true
  | .ldi _ imm => immInRange imm
  | .mov _ _ => true
  | .add _ _ _ => true
  | .addM _ _ _ => true
  | .sub _ _ _ => true
  | .subM _ _ _ => true
  | .mul _ _ _ => true
  | .mulM _ _ _ => true
  | .div _ _ _ _ => true
  | .divM _ _ _ _ => true
  | .cmp _ _ => true
  | .cmpM _ _ => true
  | .shft _ _ _ => true
  | .shfti _ _ imm => immInRange imm
  | .and _ _ _ => true
  | .or _ _ _ => true
  | .xor _ _ _ => true
  | .gcd _ _ _ => true
  | .modexp _ _ _ _ => true
  | .modinv _ _ _ => true
  | .bAL off => immInRange off
  | .bEQ off => immInRange off
  | .bNE off => immInRange off
  | .bLT off => immInRange off
  | .bGE off => immInRange off
  | .bGT off => immInRange off
  | .bLE off => immInRange off
  | .bNI off => immInRange off
  | .bIV off => immInRange off

end Sys2Proof
end

