-- ==== Sys2Proof/Decode.lean ====
section
/-! DEFINITION. From command words to commands and back (spec 30_encoding.md): bit fields, the decoder, total on every
word and rejecting by name (R117 to R123), the encoder written from the same formats (R111 to R114), and the match and
mask table R119. -/

namespace Sys2Proof

/-- `w[hi:lo]`, read as an unsigned number (R12). -/
def field (w : Word) (hi lo : Nat) : Nat := w.toNat / 2 ^ lo % 2 ^ (hi + 1 - lo)

/-- The 4-bit register field whose low bit is `lo` (R111, R115). -/
def regField (w : Word) (lo : Nat) : RegIdx := ⟨w.toNat / 2 ^ lo % 16, Nat.mod_lt _ (by decide)⟩

/-- sext_16: a 16-bit field read as a two's complement integer (R13, R116). -/
def sext16 (x : Nat) : Int := if x < 32768 then (x : Int) else (x : Int) - 65536

/-- The 16-bit field that reads back as `v` (R116). -/
def immField (v : Int) : Nat := (v % 65536).toNat

/-- Byte lane `k` of a word: bits [8k+7:8k] (R79). -/
def wordByte (w : Word) (k : Nat) : Byte := w.extractLsb' (8 * k) 8

/-- The word whose byte lanes 0 to 3 are given, lane 0 first (R79, little-endian). -/
def wordOfBytes (b0 b1 b2 b3 : Byte) : Word := b3 ++ b2 ++ b1 ++ b0

/-- Why a word encodes no command (R120, R121); every reason raises FAULT(ILLEGAL). `truncated` is only for a list
of fewer than four bytes, which no fetch gives. -/
inductive Reject where
  /-- opcode 0x00, 0x0F, 0x13 to 0x1F or 0x21 to 0x3F (R117) -/
  | reservedOpcode
  /-- a nonzero bit in a field that the command's row requires to be 0 (R120) -/
  | reservedBits
  /-- B.cond with cond 9 to 15 (R121) -/
  | reservedCondition
  /-- fewer than four bytes -/
  | truncated
deriving DecidableEq, Repr

/-- The command `i` if the bits that must be 0 are 0 (R120). -/
def whenZero (reserved : Nat) (i : Instr) : Except Reject Instr :=
  if reserved = 0 then .ok i else .error .reservedBits

/-- The S bit picks the signed or the magnitude-only form (R113), if the bits that must be 0 are 0 (R120). -/
def bySign (w : Word) (reserved : Nat) (signed magnitude : Instr) : Except Reject Instr :=
  whenZero reserved (if field w 9 9 = 1 then signed else magnitude)

/-- B.cond by its condition field (R118, R121). -/
def decodeBranch (cond : Nat) (off : Int) : Except Reject Instr :=
  match cond with
  | 0 => .ok (.bAL off)
  | 1 => .ok (.bEQ off)
  | 2 => .ok (.bNE off)
  | 3 => .ok (.bLT off)
  | 4 => .ok (.bGE off)
  | 5 => .ok (.bGT off)
  | 6 => .ok (.bLE off)
  | 7 => .ok (.bNI off)
  | 8 => .ok (.bIV off)
  | _ => .error .reservedCondition

/-- Decode one command word: the opcode bits [31:26] choose the format and the command (R117, R123), the bits the
row requires to be 0 are checked (R119, R120). -/
def decode (w : Word) : Except Reject Instr :=
  let rd := regField w 22
  let ra := regField w 18
  let rb := regField w 14
  let rc := regField w 10
  let imm := sext16 (field w 15 0)
  match field w 31 26 with
  | 0x01 => whenZero (field w 25 0) .nop
  | 0x02 => whenZero (field w 25 0) .halt
  | 0x03 => whenZero (field w 21 16) (.ldi rd imm)
  | 0x04 => whenZero (field w 17 0) (.mov rd ra)
  | 0x05 => bySign w (field w 13 10 + field w 8 0) (.add rd ra rb) (.addM rd ra rb)
  | 0x06 => bySign w (field w 13 10 + field w 8 0) (.sub rd ra rb) (.subM rd ra rb)
  | 0x07 => bySign w (field w 13 10 + field w 8 0) (.mul rd ra rb) (.mulM rd ra rb)
  | 0x08 => bySign w (field w 8 0) (.div rd ra rb rc) (.divM rd ra rb rc)
  | 0x09 => bySign w (field w 25 22 + field w 13 10 + field w 8 0) (.cmp ra rb) (.cmpM ra rb)
  | 0x0A => whenZero (field w 13 0) (.shft rd ra rb)
  | 0x0B => whenZero (field w 17 16) (.shfti rd ra imm)
  | 0x0C => whenZero (field w 13 0) (.and rd ra rb)
  | 0x0D => whenZero (field w 13 0) (.or rd ra rb)
  | 0x0E => whenZero (field w 13 0) (.xor rd ra rb)
  | 0x10 => whenZero (field w 13 0) (.gcd rd ra rb)
  | 0x11 => whenZero (field w 9 0) (.modexp rd ra rb rc)
  | 0x12 => whenZero (field w 13 0) (.modinv rd ra rb)
  | 0x20 => if field w 21 16 = 0 then decodeBranch (field w 25 22) imm else .error .reservedBits
  | _ => .error .reservedOpcode

/-- Decode from a byte list that holds a word's lanes in order (R79), and the bytes left over. -/
def decodeBytes (bs : List Byte) : Except Reject (Instr × List Byte) :=
  match bs with
  | b0 :: b1 :: b2 :: b3 :: rest =>
    match decode (wordOfBytes b0 b1 b2 b3) with
    | .ok i => .ok (i, rest)
    | .error e => .error e
  | _ => .error .truncated

/-- The decoder on an opcode-table row's bits: the word's four byte lanes are laid out and decoded. -/
def decodeTableWord (nbits w : Nat) : Option Instr :=
  let v : Word := BitVec.ofNat 32 (w % 2 ^ nbits)
  match decodeBytes [wordByte v 0, wordByte v 1, wordByte v 2, wordByte v 3] with
  | .ok (i, _) => some i
  | .error _ => none

/-- Format R (R111). -/
def encodeR (op : Nat) (rd ra rb rc : RegIdx) (S : Nat) : Word :=
  BitVec.ofNat 32 (op * 2 ^ 26 + rd.val * 2 ^ 22 + ra.val * 2 ^ 18 + rb.val * 2 ^ 14 + rc.val * 2 ^ 10 + S * 2 ^ 9)

/-- Format I (R112). -/
def encodeI (op : Nat) (rd ra : RegIdx) (imm : Int) : Word :=
  BitVec.ofNat 32 (op * 2 ^ 26 + rd.val * 2 ^ 22 + ra.val * 2 ^ 18 + immField imm)

/-- Format B (R114). -/
def encodeB (cond : Nat) (off : Int) : Word :=
  BitVec.ofNat 32 (0x20 * 2 ^ 26 + cond * 2 ^ 22 + immField off)

/-- Format N (R114). -/
def encodeN (op : Nat) : Word := BitVec.ofNat 32 (op * 2 ^ 26)

/-- The command word of a command (R111 to R119); for a well-formed one, the word that decodes to it. -/
def encode (i : Instr) : Word :=
  match i with
  | .nop => encodeN 0x01
  | .halt => encodeN 0x02
  | .ldi rd imm => encodeI 0x03 rd 0 imm
  | .mov rd ra => encodeR 0x04 rd ra 0 0 0
  | .add rd ra rb => encodeR 0x05 rd ra rb 0 1
  | .addM rd ra rb => encodeR 0x05 rd ra rb 0 0
  | .sub rd ra rb => encodeR 0x06 rd ra rb 0 1
  | .subM rd ra rb => encodeR 0x06 rd ra rb 0 0
  | .mul rd ra rb => encodeR 0x07 rd ra rb 0 1
  | .mulM rd ra rb => encodeR 0x07 rd ra rb 0 0
  | .div rd ra rb rc => encodeR 0x08 rd ra rb rc 1
  | .divM rd ra rb rc => encodeR 0x08 rd ra rb rc 0
  | .cmp ra rb => encodeR 0x09 0 ra rb 0 1
  | .cmpM ra rb => encodeR 0x09 0 ra rb 0 0
  | .shft rd ra rb => encodeR 0x0A rd ra rb 0 0
  | .shfti rd ra imm => encodeI 0x0B rd ra imm
  | .and rd ra rb => encodeR 0x0C rd ra rb 0 0
  | .or rd ra rb => encodeR 0x0D rd ra rb 0 0
  | .xor rd ra rb => encodeR 0x0E rd ra rb 0 0
  | .gcd rd ra rb => encodeR 0x10 rd ra rb 0 0
  | .modexp rd ra rb rc => encodeR 0x11 rd ra rb rc 0
  | .modinv rd ra rb => encodeR 0x12 rd ra rb 0 0
  | .bAL off => encodeB 0 off
  | .bEQ off => encodeB 1 off
  | .bNE off => encodeB 2 off
  | .bLT off => encodeB 3 off
  | .bGE off => encodeB 4 off
  | .bGT off => encodeB 5 off
  | .bLE off => encodeB 6 off
  | .bNI off => encodeB 7 off
  | .bIV off => encodeB 8 off

/-- A row of R119: a word is the row's command iff `w &&& mask = pattern`; `fields` are the operand fields, each with
its high and low bit (R111, R112, R114). -/
structure OpRow where
  mnemonic : String
  pattern : Word
  mask : Word
  fields : List (String × Nat × Nat)
deriving DecidableEq, Repr

/-- The exact bit patterns of R119, in the table's order. -/
def opTable : List OpRow :=
  [⟨"NOP", 0x04000000, 0xFFFFFFFF, []⟩,
   ⟨"HALT", 0x08000000, 0xFFFFFFFF, []⟩,
   ⟨"LDI", 0x0C000000, 0xFC3F0000, [("rd", 25, 22), ("imm16", 15, 0)]⟩,
   ⟨"MOV", 0x10000000, 0xFC03FFFF, [("rd", 25, 22), ("ra", 21, 18)]⟩,
   ⟨"ADD", 0x14000200, 0xFC003FFF, [("rd", 25, 22), ("ra", 21, 18), ("rb", 17, 14)]⟩,
   ⟨"ADD.M", 0x14000000, 0xFC003FFF, [("rd", 25, 22), ("ra", 21, 18), ("rb", 17, 14)]⟩,
   ⟨"SUB", 0x18000200, 0xFC003FFF, [("rd", 25, 22), ("ra", 21, 18), ("rb", 17, 14)]⟩,
   ⟨"SUB.M", 0x18000000, 0xFC003FFF, [("rd", 25, 22), ("ra", 21, 18), ("rb", 17, 14)]⟩,
   ⟨"MUL", 0x1C000200, 0xFC003FFF, [("rd", 25, 22), ("ra", 21, 18), ("rb", 17, 14)]⟩,
   ⟨"MUL.M", 0x1C000000, 0xFC003FFF, [("rd", 25, 22), ("ra", 21, 18), ("rb", 17, 14)]⟩]
  ++
  [⟨"DIV", 0x20000200, 0xFC0003FF, [("rd", 25, 22), ("ra", 21, 18), ("rb", 17, 14), ("rc", 13, 10)]⟩,
   ⟨"DIV.M", 0x20000000, 0xFC0003FF, [("rd", 25, 22), ("ra", 21, 18), ("rb", 17, 14), ("rc", 13, 10)]⟩,
   ⟨"CMP", 0x24000200, 0xFFC03FFF, [("ra", 21, 18), ("rb", 17, 14)]⟩,
   ⟨"CMP.M", 0x24000000, 0xFFC03FFF, [("ra", 21, 18), ("rb", 17, 14)]⟩,
   ⟨"SHFT", 0x28000000, 0xFC003FFF, [("rd", 25, 22), ("ra", 21, 18), ("rb", 17, 14)]⟩,
   ⟨"SHFTI", 0x2C000000, 0xFC030000, [("rd", 25, 22), ("ra", 21, 18), ("imm16", 15, 0)]⟩,
   ⟨"AND", 0x30000000, 0xFC003FFF, [("rd", 25, 22), ("ra", 21, 18), ("rb", 17, 14)]⟩,
   ⟨"OR", 0x34000000, 0xFC003FFF, [("rd", 25, 22), ("ra", 21, 18), ("rb", 17, 14)]⟩,
   ⟨"XOR", 0x38000000, 0xFC003FFF, [("rd", 25, 22), ("ra", 21, 18), ("rb", 17, 14)]⟩,
   ⟨"GCD", 0x40000000, 0xFC003FFF, [("rd", 25, 22), ("ra", 21, 18), ("rb", 17, 14)]⟩,
   ⟨"MODEXP", 0x44000000, 0xFC0003FF, [("rd", 25, 22), ("ra", 21, 18), ("rb", 17, 14), ("rc", 13, 10)]⟩,
   ⟨"MODINV", 0x48000000, 0xFC003FFF, [("rd", 25, 22), ("ra", 21, 18), ("rb", 17, 14)]⟩]
  ++
  [⟨"B.AL", 0x80000000, 0xFFFF0000, [("off16", 15, 0)]⟩,
   ⟨"B.EQ", 0x80400000, 0xFFFF0000, [("off16", 15, 0)]⟩,
   ⟨"B.NE", 0x80800000, 0xFFFF0000, [("off16", 15, 0)]⟩,
   ⟨"B.LT", 0x80C00000, 0xFFFF0000, [("off16", 15, 0)]⟩,
   ⟨"B.GE", 0x81000000, 0xFFFF0000, [("off16", 15, 0)]⟩,
   ⟨"B.GT", 0x81400000, 0xFFFF0000, [("off16", 15, 0)]⟩,
   ⟨"B.LE", 0x81800000, 0xFFFF0000, [("off16", 15, 0)]⟩,
   ⟨"B.NI", 0x81C00000, 0xFFFF0000, [("off16", 15, 0)]⟩,
   ⟨"B.IV", 0x82000000, 0xFFFF0000, [("off16", 15, 0)]⟩]

/-- The table's mnemonic of a command (R131). -/
def Instr.mnemonic (i : Instr) : String :=
  match i with
  | .nop => "NOP"
  | .halt => "HALT"
  | .ldi _ _ => "LDI"
  | .mov _ _ => "MOV"
  | .add _ _ _ => "ADD"
  | .addM _ _ _ => "ADD.M"
  | .sub _ _ _ => "SUB"
  | .subM _ _ _ => "SUB.M"
  | .mul _ _ _ => "MUL"
  | .mulM _ _ _ => "MUL.M"
  | .div _ _ _ _ => "DIV"
  | .divM _ _ _ _ => "DIV.M"
  | .cmp _ _ => "CMP"
  | .cmpM _ _ => "CMP.M"
  | .shft _ _ _ => "SHFT"
  | .shfti _ _ _ => "SHFTI"
  | .and _ _ _ => "AND"
  | .or _ _ _ => "OR"
  | .xor _ _ _ => "XOR"
  | .gcd _ _ _ => "GCD"
  | .modexp _ _ _ _ => "MODEXP"
  | .modinv _ _ _ => "MODINV"
  | .bAL _ => "B.AL"
  | .bEQ _ => "B.EQ"
  | .bNE _ => "B.NE"
  | .bLT _ => "B.LT"
  | .bGE _ => "B.GE"
  | .bGT _ => "B.GT"
  | .bLE _ => "B.LE"
  | .bNI _ => "B.NI"
  | .bIV _ => "B.IV"

/-- The operand fields of a command and their values (R111 to R116, R131). -/
def Instr.fieldValues (i : Instr) : List (String × Nat) :=
  match i with
  | .nop => []
  | .halt => []
  | .ldi rd imm => [("rd", rd.val), ("imm16", immField imm)]
  | .mov rd ra => [("rd", rd.val), ("ra", ra.val)]
  | .add rd ra rb => [("rd", rd.val), ("ra", ra.val), ("rb", rb.val)]
  | .addM rd ra rb => [("rd", rd.val), ("ra", ra.val), ("rb", rb.val)]
  | .sub rd ra rb => [("rd", rd.val), ("ra", ra.val), ("rb", rb.val)]
  | .subM rd ra rb => [("rd", rd.val), ("ra", ra.val), ("rb", rb.val)]
  | .mul rd ra rb => [("rd", rd.val), ("ra", ra.val), ("rb", rb.val)]
  | .mulM rd ra rb => [("rd", rd.val), ("ra", ra.val), ("rb", rb.val)]
  | .div rd ra rb rc => [("rd", rd.val), ("ra", ra.val), ("rb", rb.val), ("rc", rc.val)]
  | .divM rd ra rb rc => [("rd", rd.val), ("ra", ra.val), ("rb", rb.val), ("rc", rc.val)]
  | .cmp ra rb => [("ra", ra.val), ("rb", rb.val)]
  | .cmpM ra rb => [("ra", ra.val), ("rb", rb.val)]
  | .shft rd ra rb => [("rd", rd.val), ("ra", ra.val), ("rb", rb.val)]
  | .shfti rd ra imm => [("rd", rd.val), ("ra", ra.val), ("imm16", immField imm)]
  | .and rd ra rb => [("rd", rd.val), ("ra", ra.val), ("rb", rb.val)]
  | .or rd ra rb => [("rd", rd.val), ("ra", ra.val), ("rb", rb.val)]
  | .xor rd ra rb => [("rd", rd.val), ("ra", ra.val), ("rb", rb.val)]
  | .gcd rd ra rb => [("rd", rd.val), ("ra", ra.val), ("rb", rb.val)]
  | .modexp rd ra rb rc => [("rd", rd.val), ("ra", ra.val), ("rb", rb.val), ("rc", rc.val)]
  | .modinv rd ra rb => [("rd", rd.val), ("ra", ra.val), ("rb", rb.val)]
  | .bAL off => [("off16", immField off)]
  | .bEQ off => [("off16", immField off)]
  | .bNE off => [("off16", immField off)]
  | .bLT off => [("off16", immField off)]
  | .bGE off => [("off16", immField off)]
  | .bGT off => [("off16", immField off)]
  | .bLE off => [("off16", immField off)]
  | .bNI off => [("off16", immField off)]
  | .bIV off => [("off16", immField off)]

end Sys2Proof
end

