-- ==== Sys2Proof/Machine/State.lean ====
section
/-! DEFINITION. The state of MPALU as plain data (spec 10_state.md, 20_memory.md, 70_reset_and_hazards.md R341) and the
state after power-on reset. Fields below the line "the model's own" are not the spec's: they hold the power-on draw, the
counter of free values, the last word a host read returned, and the host's and the platform's moves still to come. -/

namespace Sys2Proof.Machine

/-- STATUS.ERRCODE (R301). The codes 7 to 15 are never produced, so no constructor stands for them. -/
inductive ErrCode where
  /-- 0: no error -/
  | none
  /-- 1: the fetched word encodes no command -/
  | illegal
  /-- 2: a division or reduction by zero -/
  | divzero
  /-- 3: a result that needs more than L_MAX limbs -/
  | overflow
  /-- 4: SUB.M with a first operand of smaller magnitude -/
  | precond
  /-- 5: an operand outside the domain of MODEXP or MODINV -/
  | range
  /-- 6: the host requested a stop and the engine reached a command boundary -/
  | abort
deriving DecidableEq, Repr

/-- The branch conditions of R118. -/
inductive Cond where
  | al
  | eq
  | ne
  | lt
  | ge
  | gt
  | le
  | ni
  | iv
deriving DecidableEq, Repr

/-- One access of the host to the window: `HostRead(off)` or `HostWrite(off, w)` (R80). An access narrower than 32
bits does not exist at the port (R80, R294; log 15), so no constructor stands for one. -/
inductive HostAccess where
  | read (off : Offset)
  | write (off : Offset) (w : Word)
deriving DecidableEq, Repr

/-- A move of one of the agents, or of the platform (R85, R340; log 6, log 7). -/
inductive Event where
  /-- the engine makes its step (R266) -/
  | engine
  /-- the engine passes a command boundary and its command is now in progress: what the host writes before the
  engine's next move lands while that command is executing (R281, R307) -/
  | boundary
  /-- the host makes one access -/
  | host (a : HostAccess)
  /-- the platform's reset input (R341) -/
  | powerOn
deriving DecidableEq, Repr

/-- What stops the machine with a fault. It has no constructor: MPALU's own faults are NEXT states (R304), fetch never
faults (R74), and every access of the window has an effect or none (R76, R290), so no step stops (safe; log 14). -/
inductive Fault where
deriving DecidableEq, Repr

/-- Why an instruction has no meaning in the model. -/
inductive Refusal where
  /-- raised by `exec`'s arm of an instruction that is not modelled yet; safe. No arm raises it now. -/
  | notModelled (mnemonic : String)
deriving DecidableEq, Repr

/-- BUF and IMEM as written bytes: pairs of window byte offset and byte (R72, R75, R79; log 5), in the canonical form
of `Memory.wf`. An offset with no pair has not been written since power-on (R341). -/
abbrev Memory := List Host.Cell

/-- The state of the machine. -/
structure State where
  /-- L_MAX, PCW, MODINV_MODE, HOST_BASE: constants of the machine (R8 to R11) -/
  cfg : Config
  /-- R0 to R15, each as the integer it holds (R30, R34, R35) -/
  regs : Vector Int 16
  /-- the program counter, a word index (R37) -/
  pc : Nat
  /-- flag Z (R39) -/
  z : Bool
  /-- flag N (R39) -/
  n : Bool
  /-- flag NI (R39, R244) -/
  ni : Bool
  /-- CTRL.IE (R46) -/
  ie : Bool
  /-- STATUS.BUSY (R47, R48) -/
  busy : Bool
  /-- STATUS.DONE (R47) -/
  done : Bool
  /-- STATUS.ERR (R47) -/
  err : Bool
  /-- STATUS.ERRCODE (R47, R301) -/
  errcode : ErrCode
  /-- STATUS.ABORTP, the abort latch (R58) -/
  abortp : Bool
  /-- STATUS.XERR (R47) -/
  xerr : Bool
  /-- STATUS.HERR (R47) -/
  herr : Bool
  /-- SEL[3:0] (R50) -/
  sel : RegIdx
  /-- COUNT (R51) -/
  count : Word
  /-- XSIGN[0] (R52) -/
  xsign : Bool
  /-- the written bytes of BUF (R57) and IMEM (R73) -/
  mem : Memory
  /-- a command has passed its boundary and has not completed (R281, R307, R340; log 7) -/
  inFlight : Bool
  -- the model's own
  /-- the number of the last power-on, which selects the draw of R345 (log 4) -/
  epoch : Nat
  /-- how many fresh free values have been drawn (log 9) -/
  draws : Nat
  /-- the word the last HostRead returned (log 8) -/
  rdata : Word
  /-- the moves still to come, in order (log 6) -/
  inputs : List Event
deriving DecidableEq, Repr

/-- The state power-on reset leaves (R341) in a machine of configuration `cfg`; the last four arguments are the
model's own fields. -/
def State.atPowerOn (cfg : Config) (epoch draws : Nat) (rdata : Word) (inputs : List Event) : State :=
  { cfg := cfg, regs := Vector.replicate 16 0, pc := 0, z := false, n := false, ni := false, ie := false,
    busy := false, done := false, err := false, errcode := .none, abortp := false, xerr := false, herr := false,
    sel := 0, count := 0, xsign := false, mem := [], inFlight := false,
    epoch := epoch, draws := draws, rdata := rdata, inputs := inputs }

/-- The machine of the reference configuration (R8 to R10) right after power-on reset (R341), with no move of the host
or the platform to come. DESIGN CHOICE (log 4, 6, 8, 9): the model's own fields are zero and empty. -/
def State.reset : State := State.atPowerOn Config.reference 0 0 0 []

end Sys2Proof.Machine
end

