-- ==== Sys2Proof/Machine/Numbers.lean ====
section
/-! DEFINITION. The integer primitives of spec 00_scope.md R13 to R16 and the encoding of an integer as sign and limbs
(10_state.md R31 to R35). -/

namespace Sys2Proof.Machine

/-- `sgn(v)`: −1 if v < 0 and +1 otherwise, so sgn(0) = +1 (R13). -/
def sgn (v : Int) : Int := if v < 0 then -1 else 1

/-- `tquo(x, y)`, the truncated quotient (R14). -/
def tquo (x y : Int) : Int := sgn x * sgn y * ((x.natAbs / y.natAbs : Nat) : Int)

/-- `trem(x, y)`, the truncated remainder (R14). -/
def trem (x y : Int) : Int := sgn x * ((x.natAbs % y.natAbs : Nat) : Int)

/-- `fmod(x, y)`, the floored remainder in [0, y), for y > 0 (R14). -/
def fmod (x y : Int) : Int := x % y

/-- `bitlen(v)` (R15). -/
def bitlen (v : Int) : Nat := if v = 0 then 0 else v.natAbs.log2 + 1

/-- `nlimbs(v)`, the limb count of the minimal encoding: max(1, ceil(bitlen(v) / 32)) (R15). -/
def nlimbs (v : Int) : Nat := max 1 ((bitlen v + 31) / 32)

/-- `fits(v)` in registers of `lMax` limbs (R16). -/
def fits (lMax : Nat) (v : Int) : Bool := decide (nlimbs v ≤ lMax)

/-- SIGN of the minimal encoding: 1 iff v < 0 (R35). -/
def signBit (v : Int) : Bool := decide (v < 0)

/-- LIMB[j] of the minimal encoding: (abs(v) div 2^(32j)) mod 2^32 (R35). -/
def limb (v : Int) (j : Nat) : Word := BitVec.ofNat 32 (v.natAbs / 2 ^ (32 * j))

/-- The limbs of the minimal encoding, least significant first (R33, R35). -/
def limbs (v : Int) : List Word := (List.range (nlimbs v)).map (limb v)

/-- Σ_{j<count} word(j) · 2^(32j): limbs read little-endian (R33, R34, R78). -/
def limbSum (word : Nat → Word) (count : Nat) : Nat :=
  match count with
  | 0 => 0
  | k + 1 => limbSum word k + (word k).toNat * 2 ^ (32 * k)

/-- The integer of a sign and a magnitude; a zero magnitude has no sign (R32, R34, R287). -/
def signed (negative : Bool) (magnitude : Nat) : Int :=
  if negative ∧ magnitude ≠ 0 then -(magnitude : Int) else magnitude

end Sys2Proof.Machine
end

