-- ==== Sys2Proof/Machine/Flags.lean ====
section
/-! DEFINITION. The flags Z, N, NI (spec 10_state.md R39, R40): how commands write them and how B.cond reads them
(30_encoding.md R118). -/

namespace Sys2Proof.Machine

/-- `setZN(v)` (R17): Z = (v = 0), N = (v < 0); NI is unchanged (R40). -/
def State.setZN (s : State) (v : Int) : State := { s with z := decide (v = 0), n := decide (v < 0) }

/-- The flags of CMP and CMP.M (R40): Z iff the operands compare equal, N iff first < second; NI is unchanged. -/
def State.setCompare (s : State) (a b : Int) : State := { s with z := decide (a = b), n := decide (a < b) }

/-- `NI <- b` (R244). -/
def State.setNI (s : State) (b : Bool) : State := { s with ni := b }

/-- When B.cond is taken (R118). -/
def taken (c : Cond) (s : State) : Bool :=
  match c with
  | .al => true
  | .eq => s.z
  | .ne => !s.z
  | .lt => s.n
  | .ge => !s.n
  | .gt => !s.n && !s.z
  | .le => s.n || s.z
  | .ni => s.ni
  | .iv => !s.ni

end Sys2Proof.Machine
end

