-- ==== Sys2Proof/Machine/Operands.lean ====
section
/-! DEFINITION. The operand forms of a command: a signed register operand, a magnitude operand, a destination register
(spec R17, R30, R36, R113, R115). Immediates are sign-extended by the decoder (R116). A meaning reads every operand from
the state the command starts in, which is the snapshot of R263. -/

namespace Sys2Proof.Machine

/-- `R[i]`, the integer big register i holds (R17, R34). -/
def State.reg (s : State) (i : RegIdx) : Int := s.regs[i]

/-- abs(R[i]), the operand of a magnitude-only form (R113, R160). -/
def State.mag (s : State) (i : RegIdx) : Nat := (s.reg i).natAbs

/-- `R[i] <- v` (R17, R35); no other register changes (R36). -/
def State.setReg (s : State) (i : RegIdx) (v : Int) : State := { s with regs := s.regs.set i v }

end Sys2Proof.Machine
end

