-- ==== Sys2Proof/Machine/Ops.lean ====
section
/-! DEFINITION. The shared operations: memory (BUF and IMEM as bytes of the host window), the program counter, writing a
result, taking a fault and restarting after it, the end of a run, and the two resets. -/

namespace Sys2Proof.Machine

/-! ## Memory -/

/-- Window offsets rise strictly along the list (log 5): the one canonical form of a memory. -/
def Memory.wf (m : Memory) : Bool :=
  match m with
  | [] => true
  | [_] => true
  | (a, _) :: (b, y) :: rest => decide (a < b) && Memory.wf ((b, y) :: rest)

/-- What an unlisted offset reads as: nothing has been written there since power-on. -/
def Memory.unlisted : Option Byte := none

/-- The byte written at a window offset, if one has been. -/
def Memory.lookup (m : Memory) (a : Nat) : Option Byte :=
  match m with
  | [] => Memory.unlisted
  | (b, x) :: rest => if a = b then some x else Memory.lookup rest a

/-- Write one byte, keeping the canonical form. -/
def Memory.insert (m : Memory) (a : Nat) (x : Byte) : Memory :=
  match m with
  | [] => [(a, x)]
  | (b, y) :: rest =>
    if a < b then (a, x) :: (b, y) :: rest
    else if a = b then (a, x) :: rest
    else (b, y) :: Memory.insert rest a x

/-- The byte at a window offset of BUF or IMEM: the one written, else the draw fixed at power-on (R341, R345). -/
def Memory.readByte (m : Memory) (epoch a : Nat) : Byte := (m.lookup a).getD (Config.powerOnByte epoch a)

/-- The word whose lane 0 is at window offset `a` (R79). -/
def Memory.readWord (m : Memory) (epoch a : Nat) : Word :=
  wordOfBytes (m.readByte epoch a) (m.readByte epoch (a + 1)) (m.readByte epoch (a + 2)) (m.readByte epoch (a + 3))

/-- Write a whole word, lane 0 at window offset `a` (R79, R80). -/
def Memory.writeWord (m : Memory) (a : Nat) (w : Word) : Memory :=
  (((m.insert a (wordByte w 0)).insert (a + 1) (wordByte w 1)).insert (a + 2) (wordByte w 2)).insert (a + 3) (wordByte w 3)

/-- The window offset of BUF[j] (R72, R75). -/
def bufAddr (j : Nat) : Nat := 0x1000 + 4 * j

/-- The window offset of IMEM[i] (R72, R73). -/
def imemAddr (i : Nat) : Nat := 0x4000 + 4 * i

/-- The byte at a window offset of BUF or IMEM. -/
def State.readByte (s : State) (a : Nat) : Byte := s.mem.readByte s.epoch a

/-- BUF[j] (R57). -/
def State.buf (s : State) (j : Nat) : Word := s.mem.readWord s.epoch (bufAddr j)

/-- `IMemRead(i)`, IMEM[i] (R74). -/
def State.imem (s : State) (i : Nat) : Word := s.mem.readWord s.epoch (imemAddr i)

/-- BUF[j] <- w (R75). -/
def State.setBuf (s : State) (j : Nat) (w : Word) : State := { s with mem := s.mem.writeWord (bufAddr j) w }

/-- IMEM[i] <- w (R73). -/
def State.setImem (s : State) (i : Nat) (w : Word) : State := { s with mem := s.mem.writeWord (imemAddr i) w }

/-! ## The program counter -/

/-- `pc <- t`, taken modulo IMEM_WORDS (R17, R37). -/
def State.setPc (s : State) (t : Int) : State := { s with pc := (t % (s.cfg.imemWords : Int)).toNat }

/-- `pc <- pc + 1` (R265). -/
def State.advance (s : State) : State := s.setPc ((s.pc : Int) + 1)

/-- The new pc of B.cond: relative to the branch's own index if taken, else the next command (R262). -/
def State.branch (s : State) (c : Cond) (off : Int) : State :=
  if taken c s then s.setPc ((s.pc : Int) + off) else s.advance

/-! ## Faults, the end of a run, and the restart -/

/-- Fault entry (R304), and with code `abort` the abort stop (R266): the run ends with ERR and ERRCODE, the abort
request is discarded, and pc, registers, flags and memory stay. -/
def State.faultEntry (s : State) (code : ErrCode) : State :=
  { s with err := true, errcode := code, busy := false, abortp := false }

/-- `raise FAULT(code)` (R17): a next state. -/
def raise (code : ErrCode) (s : State) : Host.Outcome State Fault Refusal := .next (s.faultEntry code)

/-- HALT's end of the run (R261): DONE, not BUSY, a pending abort request discarded (R58). -/
def State.endRun (s : State) : State := { s with done := true, busy := false, abortp := false }

/-- `start()` (R280): the host's restart after a fault, an abort or a HALT (R313); it resumes at pc. -/
def State.startRun (s : State) : State :=
  { s with done := false, err := false, errcode := .none, abortp := false, busy := true }

/-! ## Results of commands -/

/-- Write the result v to rd, set Z and N from it and go on (R17, R40, R265); for a command whose result always fits. -/
def commit (rd : RegIdx) (v : Int) (s : State) : Host.Outcome State Fault Refusal :=
  .next ((s.setReg rd v).setZN v).advance

/-- The same after the capacity check: a result that does not fit raises FAULT(OVERFLOW) (R16, R175). -/
def commitFitting (rd : RegIdx) (v : Int) (s : State) : Host.Outcome State Fault Refusal :=
  if fits s.cfg.lMax v then commit rd v s else raise .overflow s

/-- Write a quotient to rd, then a remainder to rc, with the flags of the remainder (R168, R263). -/
def commitDivision (rd rc : RegIdx) (q r : Int) (s : State) : Host.Outcome State Fault Refusal :=
  .next (((s.setReg rd q).setReg rc r).setZN r).advance

/-! ## Resets -/

/-- Power-on reset (R341): every element at its reset value, BUF and IMEM at a new draw. -/
def State.powerOn (s : State) : State := State.atPowerOn s.cfg (s.epoch + 1) s.draws s.rdata s.inputs

/-- Soft reset (R342): every element at its power-on value except BUF and IMEM, which keep their contents. -/
def State.softReset (s : State) : State :=
  { State.atPowerOn s.cfg s.epoch s.draws s.rdata s.inputs with mem := s.mem }

/-- The interrupt output (R310): IE and (DONE or ERR). -/
def State.irq (s : State) : Bool := s.ie && (s.done || s.err)

end Sys2Proof.Machine
end

