-- ==== Sys2Proof/Machine/Arith.lean ====
section
/-! DEFINITION. Add, subtract, multiply, divide and compare (spec 41_arith.md). -/

namespace Sys2Proof.Machine

/-- ADD (R161). -/
def execAdd (rd ra rb : RegIdx) (s : State) : Host.Outcome State Fault Refusal :=
  commitFitting rd (s.reg ra + s.reg rb) s

/-- ADD.M (R162). -/
def execAddM (rd ra rb : RegIdx) (s : State) : Host.Outcome State Fault Refusal :=
  commitFitting rd ((s.mag ra + s.mag rb : Nat) : Int) s

/-- SUB (R163). -/
def execSub (rd ra rb : RegIdx) (s : State) : Host.Outcome State Fault Refusal :=
  commitFitting rd (s.reg ra - s.reg rb) s

/-- SUB.M (R164): PRECOND when the first magnitude is the smaller; the result always fits. -/
def execSubM (rd ra rb : RegIdx) (s : State) : Host.Outcome State Fault Refusal :=
  if s.mag ra < s.mag rb then raise .precond s else commit rd ((s.mag ra - s.mag rb : Nat) : Int) s

/-- MUL (R166). -/
def execMul (rd ra rb : RegIdx) (s : State) : Host.Outcome State Fault Refusal :=
  commitFitting rd (s.reg ra * s.reg rb) s

/-- MUL.M (R167). -/
def execMulM (rd ra rb : RegIdx) (s : State) : Host.Outcome State Fault Refusal :=
  commitFitting rd ((s.mag ra * s.mag rb : Nat) : Int) s

/-- DIV (R168): truncated quotient to rd, remainder to rc. -/
def execDiv (rd ra rb rc : RegIdx) (s : State) : Host.Outcome State Fault Refusal :=
  if s.reg rb = 0 then raise .divzero s
  else commitDivision rd rc (tquo (s.reg ra) (s.reg rb)) (trem (s.reg ra) (s.reg rb)) s

/-- DIV.M (R169): the same on magnitudes. -/
def execDivM (rd ra rb rc : RegIdx) (s : State) : Host.Outcome State Fault Refusal :=
  if s.reg rb = 0 then raise .divzero s
  else commitDivision rd rc ((s.mag ra / s.mag rb : Nat) : Int) ((s.mag ra % s.mag rb : Nat) : Int) s

/-- CMP (R172): the order on the integers; no register is written. -/
def execCmp (ra rb : RegIdx) (s : State) : Host.Outcome State Fault Refusal :=
  .next (s.setCompare (s.reg ra) (s.reg rb)).advance

/-- CMP.M (R173): the order of the magnitudes. -/
def execCmpM (ra rb : RegIdx) (s : State) : Host.Outcome State Fault Refusal :=
  .next (s.setCompare (s.mag ra) (s.mag rb)).advance

end Sys2Proof.Machine
end

