-- ==== Sys2Proof/Machine/Control.lean ====
section
/-! DEFINITION. NOP, HALT and B.cond (spec 44_control.md). -/

namespace Sys2Proof.Machine

/-- NOP (R260). -/
def execNop (s : State) : Host.Outcome State Fault Refusal := .next s.advance

/-- HALT (R261). -/
def execHalt (s : State) : Host.Outcome State Fault Refusal := .next s.endRun.advance

/-- B.AL (R262, R118). -/
def execBAL (off : Int) (s : State) : Host.Outcome State Fault Refusal := .next (s.branch .al off)

/-- B.EQ (R262, R118). -/
def execBEQ (off : Int) (s : State) : Host.Outcome State Fault Refusal := .next (s.branch .eq off)

/-- B.NE (R262, R118). -/
def execBNE (off : Int) (s : State) : Host.Outcome State Fault Refusal := .next (s.branch .ne off)

/-- B.LT (R262, R118). -/
def execBLT (off : Int) (s : State) : Host.Outcome State Fault Refusal := .next (s.branch .lt off)

/-- B.GE (R262, R118). -/
def execBGE (off : Int) (s : State) : Host.Outcome State Fault Refusal := .next (s.branch .ge off)

/-- B.GT (R262, R118). -/
def execBGT (off : Int) (s : State) : Host.Outcome State Fault Refusal := .next (s.branch .gt off)

/-- B.LE (R262, R118). -/
def execBLE (off : Int) (s : State) : Host.Outcome State Fault Refusal := .next (s.branch .le off)

/-- B.NI (R262, R118). -/
def execBNI (off : Int) (s : State) : Host.Outcome State Fault Refusal := .next (s.branch .ni off)

/-- B.IV (R262, R118). -/
def execBIV (off : Int) (s : State) : Host.Outcome State Fault Refusal := .next (s.branch .iv off)

end Sys2Proof.Machine
end

