-- ==== Sys2Proof/Machine/Move.lean ====
section
/-! DEFINITION. LDI and MOV (spec 40_move.md). -/

namespace Sys2Proof.Machine

/-- LDI (R140). -/
def execLdi (rd : RegIdx) (imm : Int) (s : State) : Host.Outcome State Fault Refusal := commit rd imm s

/-- MOV (R141): a deep copy. -/
def execMov (rd ra : RegIdx) (s : State) : Host.Outcome State Fault Refusal := commit rd (s.reg ra) s

end Sys2Proof.Machine
end

