-- ==== Sys2Proof/Machine/NumberTheory.lean ====
section
/-! DEFINITION. GCD, modular exponentiation and modular inverse (spec 43_number_theory.md). Each loop of the spec is a
recursion on a step bound; the bound each meaning passes is large enough for the loop to end by its own test (R230;
log 12), which Laws/NumberTheory.lean shows. -/

namespace Sys2Proof.Machine

/-- The Euclid loop of R231: while y ≠ 0, (x, y) <- (y, x mod y). -/
def gcdLoop (bound x y : Nat) : Nat :=
  match bound with
  | 0 => x
  | k + 1 => if y = 0 then x else gcdLoop k y (x % y)

/-- GCD (R231), on magnitudes. -/
def execGcd (rd ra rb : RegIdx) (s : State) : Host.Outcome State Fault Refusal :=
  commit rd (gcdLoop (s.mag rb) (s.mag ra) (s.mag rb) : Int) s

/-- The square-and-multiply loop of R236, on the exponent e: its result x. -/
def modexpLoop (bound : Nat) (x m : Int) (e : Nat) (n : Int) : Int :=
  match bound with
  | 0 => x
  | k + 1 =>
    if e = 0 then x
    else if e % 2 = 0 then modexpLoop k x (trem (m * m) n) (e / 2) n
    else modexpLoop k (trem (x * m) n) m (e - 1) n

/-- The value of R236: 0 if n divides a, else the loop from x = 1, m = a. -/
def modexpValue (a : Int) (e : Nat) (n : Int) : Int :=
  if trem a n = 0 then 0 else modexpLoop e 1 a e n

/-- MODEXP (R235, R236): the domain checks in their order, then the loop. -/
def execModexp (rd ra rb rc : RegIdx) (s : State) : Host.Outcome State Fault Refusal :=
  if s.reg rc = 0 then raise .divzero s
  else if s.reg rc < 0 then raise .range s
  else if s.reg rb < 0 then raise .range s
  else commit rd (modexpValue (s.reg ra) (s.reg rb).toNat (s.reg rc)) s

/-- The extended Euclid loop of R241: the last remainder g = r0 and its coefficient u0. -/
def euclidLoop (bound : Nat) (r0 r1 u0 u1 : Int) : Int × Int :=
  match bound with
  | 0 => (r0, u0)
  | k + 1 =>
    if r1 = 0 then (r0, u0)
    else euclidLoop k r1 (r0 - tquo r0 r1 * r1) u1 (u0 - tquo r0 r1 * u1)

/-- (g, u0) of R241 for the value a and the modulus b. -/
def bezout (a b : Int) : Int × Int := euclidLoop b.natAbs a b 1 0

/-- "adding multiples of the original modulus" (R241): while d < 0, d <- d + b. -/
def addModulus (bound : Nat) (d b : Int) : Int :=
  match bound with
  | 0 => d
  | k + 1 => if d < 0 then addModulus k (d + b) b else d

/-- d of R241, from the coefficient u0. -/
def normalizeCoefficient (u0 b : Int) : Int :=
  if u0 < 0 then addModulus u0.natAbs u0 b else trem u0 b

/-- The d MODINV writes: the value of R241 in EXACT mode; in WEAK mode a free value in [0, b), a fresh one for every
execution (R243; log 9). -/
def modinvValue (s : State) (a b : Int) : Int :=
  match s.cfg.modinvMode with
  | .exactMode => normalizeCoefficient (bezout a b).2 b
  | .weakMode => ((Config.weakInverse s.draws : Nat) : Int) % b

/-- WEAK mode uses up one draw (R243); EXACT mode none. -/
def State.drawInverse (s : State) : State :=
  match s.cfg.modinvMode with
  | .exactMode => s
  | .weakMode => { s with draws := s.draws + 1 }

/-- MODINV (R240, R241, R243, R244): the domain checks in their order, then d, Z and N from d, NI from the gcd. -/
def execModinv (rd ra rb : RegIdx) (s : State) : Host.Outcome State Fault Refusal :=
  if s.reg rb = 0 then raise .divzero s
  else if s.reg rb < 0 then raise .range s
  else if s.reg ra < 0 then raise .range s
  else
    commit rd (modinvValue s (s.reg ra) (s.reg rb))
      (s.drawInverse.setNI (decide ((bezout (s.reg ra) (s.reg rb)).1 ≠ 1)))

end Sys2Proof.Machine
end

