-- ==== Sys2Proof/Machine/ShiftLogic.lean ====
section
/-! DEFINITION. Shift and bitwise logic on magnitudes (spec 42_shift_logic.md). -/

namespace Sys2Proof.Machine

/-- `shift(a, k)` (R200): abs(a)·2^k for k ≥ 0, floor(abs(a) / 2^(−k)) for k < 0. Zero and a right shift by at least
bitlen(a) give 0 without forming the power, so that the amount may be any register value (log 13). -/
def shiftMagnitude (a k : Int) : Nat :=
  if 0 ≤ k then
    if a = 0 then 0 else a.natAbs * 2 ^ k.toNat
  else if bitlen a ≤ (-k).toNat then 0
  else a.natAbs / 2 ^ (-k).toNat

/-- The OVERFLOW condition of a shift (R201). -/
def shiftOverflows (lMax : Nat) (a k : Int) : Bool :=
  decide (0 ≤ k) && decide (a ≠ 0) && decide ((bitlen a : Int) + k > 32 * lMax)

/-- SHFT and SHFTI share the amount's meaning (R201, R202). -/
def shiftInto (rd : RegIdx) (a k : Int) (s : State) : Host.Outcome State Fault Refusal :=
  if shiftOverflows s.cfg.lMax a k then raise .overflow s else commit rd (shiftMagnitude a k : Int) s

/-- SHFT (R201): the amount is R[rb], any integer. -/
def execShft (rd ra rb : RegIdx) (s : State) : Host.Outcome State Fault Refusal :=
  shiftInto rd (s.reg ra) (s.reg rb) s

/-- SHFTI (R202): the amount is the immediate. -/
def execShfti (rd ra : RegIdx) (imm : Int) (s : State) : Host.Outcome State Fault Refusal :=
  shiftInto rd (s.reg ra) imm s

/-- AND (R205, R206). -/
def execAnd (rd ra rb : RegIdx) (s : State) : Host.Outcome State Fault Refusal :=
  commit rd ((s.mag ra &&& s.mag rb : Nat) : Int) s

/-- OR (R205, R207). -/
def execOr (rd ra rb : RegIdx) (s : State) : Host.Outcome State Fault Refusal :=
  commit rd ((s.mag ra ||| s.mag rb : Nat) : Int) s

/-- XOR (R205, R208). -/
def execXor (rd ra rb : RegIdx) (s : State) : Host.Outcome State Fault Refusal :=
  commit rd ((s.mag ra ^^^ s.mag rb : Nat) : Int) s

end Sys2Proof.Machine
end

