-- ==== Sys2Proof/Machine/Dispatch.lean ====
section
/-! DEFINITION. One arm per command, each one call of its meaning (spec 44_control.md R266: execute c by its rule). -/

namespace Sys2Proof.Machine

def exec (i : Instr) (s : State) : Host.Outcome State Fault Refusal :=
  match i with
  | .nop => Sys2Proof.Machine.execNop s
  | .halt => Sys2Proof.Machine.execHalt s
  | .ldi rd imm => Sys2Proof.Machine.execLdi rd imm s
  | .mov rd ra => Sys2Proof.Machine.execMov rd ra s
  | .add rd ra rb => Sys2Proof.Machine.execAdd rd ra rb s
  | .addM rd ra rb => Sys2Proof.Machine.execAddM rd ra rb s
  | .sub rd ra rb => Sys2Proof.Machine.execSub rd ra rb s
  | .subM rd ra rb => Sys2Proof.Machine.execSubM rd ra rb s
  | .mul rd ra rb => Sys2Proof.Machine.execMul rd ra rb s
  | .mulM rd ra rb => Sys2Proof.Machine.execMulM rd ra rb s
  | .div rd ra rb rc => Sys2Proof.Machine.execDiv rd ra rb rc s
  | .divM rd ra rb rc => Sys2Proof.Machine.execDivM rd ra rb rc s
  | .cmp ra rb => Sys2Proof.Machine.execCmp ra rb s
  | .cmpM ra rb => Sys2Proof.Machine.execCmpM ra rb s
  | .shft rd ra rb => Sys2Proof.Machine.execShft rd ra rb s
  | .shfti rd ra imm => Sys2Proof.Machine.execShfti rd ra imm s
  | .and rd ra rb => Sys2Proof.Machine.execAnd rd ra rb s
  | .or rd ra rb => Sys2Proof.Machine.execOr rd ra rb s
  | .xor rd ra rb => Sys2Proof.Machine.execXor rd ra rb s
  | .gcd rd ra rb => Sys2Proof.Machine.execGcd rd ra rb s
  | .modexp rd ra rb rc => Sys2Proof.Machine.execModexp rd ra rb rc s
  | .modinv rd ra rb => Sys2Proof.Machine.execModinv rd ra rb s
  | .bAL off => Sys2Proof.Machine.execBAL off s
  | .bEQ off => Sys2Proof.Machine.execBEQ off s
  | .bNE off => Sys2Proof.Machine.execBNE off s
  | .bLT off => Sys2Proof.Machine.execBLT off s
  | .bGE off => Sys2Proof.Machine.execBGE off s
  | .bGT off => Sys2Proof.Machine.execBGT off s
  | .bLE off => Sys2Proof.Machine.execBLE off s
  | .bNI off => Sys2Proof.Machine.execBNI off s
  | .bIV off => Sys2Proof.Machine.execBIV off s

end Sys2Proof.Machine
end

