-- ==== Sys2Proof/Machine/Engine.lean ====
section
/-! DEFINITION. The engine agent (spec 44_control.md R264 to R267): fetch, decode, the engine step, and the command
boundary as a move of its own for host accesses that land while a command is in progress (log 7). -/

namespace Sys2Proof.Machine

/-- The word at pc (R74): fetch never faults. -/
def State.fetch (s : State) : Word := s.imem s.pc

/-- The command in progress completes: decode the word at pc, run it or raise ILLEGAL (R266, R120). -/
def runCommand (s : State) : Host.Outcome State Fault Refusal :=
  match decode s.fetch with
  | .ok i => exec i { s with inFlight := false }
  | .error _ => raise .illegal { s with inFlight := false }

/-- The engine's move (R266). Idle: none (R266, R343). At a boundary with ABORTP = 1: the abort stop. Otherwise the
command at pc runs; a command already in progress is not stopped by ABORTP (R281, R307). -/
def engineStep (s : State) : Host.Outcome State Fault Refusal :=
  if s.busy = false then .next s
  else if s.abortp && !s.inFlight then .next (s.faultEntry .abort)
  else runCommand s

/-- The engine passes the command boundary: it looks at ABORTP (R266) and the command at pc is then in progress. -/
def engineBoundary (s : State) : State :=
  if s.busy = false then s
  else if s.inFlight then s
  else if s.abortp then s.faultEntry .abort
  else { s with inFlight := true }

end Sys2Proof.Machine
end

