-- ==== Sys2Proof/Machine/HostPort.lean ====
section
/-! DEFINITION. The host agent: HostRead and HostWrite of the host window (spec 10_state.md R42 to R58, 20_memory.md R70
to R84, 45_host_ops.md R280 to R292). -/

namespace Sys2Proof.Machine

/-- What an offset of the host window selects (R42, R72). -/
inductive Port where
  | id
  | ctrl
  | status
  | pc
  | sel
  | count
  | xsign
  | xfer
  | rlen
  | rsign
  | param
  | buf (j : Nat)
  | imem (i : Nat)
  | unmapped
deriving DecidableEq, Repr

/-- The layout of R72; offset bits [1:0] are ignored (R80, R81). -/
def portOf (c : Config) (off : Offset) : Port :=
  match off.toNat / 4 with
  | 0 => .id
  | 1 => .ctrl
  | 2 => .status
  | 3 => .pc
  | 4 => .sel
  | 5 => .count
  | 6 => .xsign
  | 7 => .xfer
  | 8 => .rlen
  | 9 => .rsign
  | 10 => .param
  | k =>
    if 0x400 ≤ k ∧ k < 0x400 + c.lMax then .buf (k - 0x400)
    else if 0x1000 ≤ k ∧ k < 0x1000 + c.imemWords then .imem (k - 0x1000)
    else .unmapped

/-- The offset bits of a platform address inside the window at HOST_BASE (R11, R71); no other address selects MPALU. -/
def windowOffset (c : Config) (address : Nat) : Option Offset :=
  if c.hostBase ≤ address ∧ address < c.hostBase + 0x8000 then some (BitVec.ofNat 15 (address - c.hostBase)) else none

/-- The registers that may be accessed while BUSY = 1 (R42, R290). -/
def Port.always (p : Port) : Bool :=
  match p with
  | .id | .ctrl | .status | .param => true
  | .pc | .sel | .count | .xsign | .xfer | .rlen | .rsign | .buf _ | .imem _ | .unmapped => false

/-- A flag as the number of its bit. -/
def bit (b : Bool) : Nat := if b then 1 else 0

/-- The 4-bit number of an error code (R301). -/
def ErrCode.toNat (e : ErrCode) : Nat :=
  match e with
  | .none => 0
  | .illegal => 1
  | .divzero => 2
  | .overflow => 3
  | .precond => 4
  | .range => 5
  | .abort => 6

/-- ID (R45). -/
def idWord : Word := 0x4D504131

/-- CTRL as read: IE in bit 3, 0 elsewhere (R46, R283). -/
def State.ctrlWord (s : State) : Word := BitVec.ofNat 32 (8 * bit s.ie)

/-- STATUS as read (R47). -/
def State.statusWord (s : State) : Word :=
  BitVec.ofNat 32 (bit s.busy + 2 * bit s.done + 4 * bit s.err + 8 * bit s.abortp + 16 * s.errcode.toNat
    + 256 * bit s.z + 512 * bit s.n + 1024 * bit s.ni + 2048 * bit s.xerr + 4096 * bit s.herr)

/-- PARAM (R55): L_MAX, PCW and MODINV_MODE. -/
def paramWord (c : Config) : Word :=
  BitVec.ofNat 32 (c.lMax % 2 ^ 16 + 2 ^ 16 * (c.pcw % 16) + 2 ^ 24 * bit (decide (c.modinvMode = .weakMode)))

/-- What a read of a port gives when it is not refused (R42 to R57, R76, R286, R289, R291, R292). -/
def State.readPort (s : State) (p : Port) : Word :=
  match p with
  | .id => idWord
  | .ctrl => s.ctrlWord
  | .status => s.statusWord
  | .pc => BitVec.ofNat 32 s.pc
  | .sel => BitVec.ofNat 32 s.sel.val
  | .count => s.count
  | .xsign => BitVec.ofNat 32 (bit s.xsign)
  | .xfer => 0
  | .rlen => BitVec.ofNat 32 (nlimbs (s.reg s.sel))
  | .rsign => BitVec.ofNat 32 (bit (signBit (s.reg s.sel)))
  | .param => paramWord s.cfg
  | .buf j => s.buf j
  | .imem i => s.imem i
  | .unmapped => 0

/-- `HostRead(off)` (R80): the returned word goes to `rdata`. Refused while BUSY = 1 unless the port is always
accessible: HERR is set and the word is a free value (R290). -/
def hostRead (off : Offset) (s : State) : State :=
  if s.busy && !(portOf s.cfg off).always then
    { s with herr := true, rdata := Config.busyReadWord s.draws, draws := s.draws + 1 }
  else { s with rdata := s.readPort (portOf s.cfg off) }

/-- A CTRL write (R280 to R284), in the order of R284. -/
def ctrlWrite (w : Word) (s : State) : State :=
  if w.getLsbD 2 then s.softReset
  else if s.busy then
    { s with ie := w.getLsbD 3, abortp := s.abortp || w.getLsbD 1, herr := s.herr || w.getLsbD 0 }
  else if w.getLsbD 0 then { s with ie := w.getLsbD 3 }.startRun
  else { s with ie := w.getLsbD 3 }

/-- A STATUS write (R285): write 1 to clear DONE, ERR with ERRCODE, XERR, HERR. -/
def statusWrite (w : Word) (s : State) : State :=
  { s with
    done := s.done && !w.getLsbD 1
    err := s.err && !w.getLsbD 2
    errcode := if w.getLsbD 2 then .none else s.errcode
    xerr := s.xerr && !w.getLsbD 11
    herr := s.herr && !w.getLsbD 12 }

/-- IMPORT (R287): load R[SEL] from BUF[0..COUNT−1] and XSIGN. -/
def importReg (s : State) : State :=
  if s.count.toNat < 1 ∨ s.cfg.lMax < s.count.toNat then { s with xerr := true }
  else s.setReg s.sel (signed s.xsign (limbSum s.buf s.count.toNat))

/-- BUF[j] <- LIMB[j] of v for j < count (R288). -/
def storeLimbs (v : Int) (count : Nat) (m : Memory) : Memory :=
  match count with
  | 0 => m
  | k + 1 => (storeLimbs v k m).writeWord (bufAddr k) (limb v k)

/-- EXPORT (R288): copy R[SEL] to BUF and XSIGN when COUNT is its limb count, else XERR. -/
def exportReg (s : State) : State :=
  if s.count.toNat = nlimbs (s.reg s.sel) then
    { s with mem := storeLimbs (s.reg s.sel) (nlimbs (s.reg s.sel)) s.mem, xsign := signBit (s.reg s.sel) }
  else { s with xerr := true }

/-- An XFER write (R53, R287 to R289). -/
def xferWrite (w : Word) (s : State) : State :=
  if w = 1 then importReg s else if w = 2 then exportReg s else { s with xerr := true }

/-- What a write of a port does when it is not refused; a read-only register and an unmapped offset ignore it (R43,
R76). -/
def writePort (p : Port) (w : Word) (s : State) : State :=
  match p with
  | .id => s
  | .ctrl => ctrlWrite w s
  | .status => statusWrite w s
  | .pc => s.setPc w.toNat
  | .sel => { s with sel := ⟨w.toNat % 16, Nat.mod_lt _ (by decide)⟩ }
  | .count => { s with count := w }
  | .xsign => { s with xsign := w.getLsbD 0 }
  | .xfer => xferWrite w s
  | .rlen => s
  | .rsign => s
  | .param => s
  | .buf j => s.setBuf j w
  | .imem i => s.setImem i w
  | .unmapped => s

/-- `HostWrite(off, w)` (R80). Refused while BUSY = 1 unless the port is always accessible: HERR is set and the write
is ignored (R290). -/
def hostWrite (off : Offset) (w : Word) (s : State) : State :=
  if s.busy && !(portOf s.cfg off).always then { s with herr := true } else writePort (portOf s.cfg off) w s

/-- One host access: one atomic transition (R82). -/
def hostAccess (a : HostAccess) (s : State) : State :=
  match a with
  | .read off => hostRead off s
  | .write off w => hostWrite off w s

/-- The byte a byte-addressed host bus sees at a window offset: lane (offset mod 4) of the word (R79). -/
def State.windowByte (s : State) (off : Offset) : Byte :=
  wordByte (s.readPort (portOf s.cfg off)) (off.toNat % 4)

end Sys2Proof.Machine
end

