-- ==== Sys2Proof/Machine/Step.lean ====
section
/-! DEFINITION. One step of the machine: the first move of `inputs`, or with none to come the engine's (spec R85 to R88;
log 6); and the host's way to place a word where the next step fetches. -/

namespace Sys2Proof.Machine

/-- The move of one event (R85, R340). -/
def eventStep (e : Event) (s : State) : Host.Outcome State Fault Refusal :=
  match e with
  | .engine => engineStep s
  | .boundary => .next (engineBoundary s)
  | .host a => .next (hostAccess a s)
  | .powerOn => .next s.powerOn

/-- One step: each move of an agent is one atomic transition (R264, R266, R82). -/
def step (s : State) : Host.Outcome State Fault Refusal :=
  match s.inputs with
  | [] => engineStep s
  | e :: rest => eventStep e { s with inputs := rest }

/-- `s` with the command word `w` in IMEM[pc] and a run in progress at a command boundary, no abort pending and no
move of the host before the engine's (log 11). A command has 32 bits (R110). -/
def State.withFetchWord (s : State) (nbits w : Nat) : State :=
  { s.setImem s.pc (BitVec.ofNat 32 (w % 2 ^ nbits)) with
    busy := true, abortp := false, inFlight := false, inputs := [] }

end Sys2Proof.Machine
end

