-- ==== Sys2Proof/Machine/Assembler.lean ====
section
/-! DEFINITION. The assembler's language (spec 30_encoding.md R130 to R133): pseudo-instructions as expansions to one
command, and source lines to commands and words. The machine does not depend on it (log 20). -/

namespace Sys2Proof.Machine

/-- The pseudo-instructions of R133. A jump's target is its offset from the command itself (R132). -/
inductive Pseudo where
  | clr (rd : RegIdx)
  | mod (rd ra rb : RegIdx)
  | modM (rd ra rb : RegIdx)
  | j (off : Int)
  | shl (rd ra : RegIdx) (k : Int)
  | shr (rd ra : RegIdx) (k : Int)
deriving DecidableEq, Repr

/-- The expansion of R133; none where the amount or offset is out of the pseudo-instruction's range. -/
def Pseudo.expand (p : Pseudo) : Option Instr :=
  match p with
  | .clr rd => some (.ldi rd 0)
  | .mod rd ra rb => some (.div rd ra rb rd)
  | .modM rd ra rb => some (.divM rd ra rb rd)
  | .j off => if immInRange off then some (.bAL off) else none
  | .shl rd ra k => if 0 ≤ k ∧ k ≤ 32767 then some (.shfti rd ra k) else none
  | .shr rd ra k => if 1 ≤ k ∧ k ≤ 32768 then some (.shfti rd ra (-k)) else none

/-! ## Lexical forms -/

/-- A blank between tokens. -/
def isBlank (c : Char) : Bool := decide (c = ' ') || decide (c = '\t')

/-- The text without leading and trailing blanks. -/
def trimBlanks (t : List Char) : List Char := ((t.dropWhile isBlank).reverse.dropWhile isBlank).reverse

/-- A letter's capital; mnemonics are case-insensitive (R130). -/
def upperChar (c : Char) : Char := if 97 ≤ c.toNat ∧ c.toNat ≤ 122 then Char.ofNat (c.toNat - 32) else c

/-- The value of a digit in a base up to 16. -/
def digitValue (base : Nat) (c : Char) : Option Nat :=
  let n := c.toNat
  let d := if 48 ≤ n ∧ n ≤ 57 then n - 48 else if 97 ≤ n ∧ n ≤ 102 then n - 87 else if 65 ≤ n ∧ n ≤ 70 then n - 55 else 16
  if d < base then some d else none

/-- A run of digits, most significant first. -/
def readDigits (base acc : Nat) (t : List Char) : Option Nat :=
  match t with
  | [] => some acc
  | c :: rest => (digitValue base c).bind fun d => readDigits base (acc * base + d) rest

/-- An unsigned decimal or `0x` hexadecimal number (R132). -/
def readNat (t : List Char) : Option Nat :=
  match t with
  | [] => none
  | '0' :: 'x' :: c :: rest => readDigits 16 0 (c :: rest)
  | c :: rest => readDigits 10 0 (c :: rest)

/-- An integer, optionally with a leading minus (R132). -/
def readInt (t : List Char) : Option Int :=
  match t with
  | '-' :: rest => (readNat rest).map fun k => -(k : Int)
  | _ => (readNat t).map fun k => (k : Int)

/-- An immediate, whose value must lie in −32768 to 32767 (R132). -/
def readImm (t : List Char) : Option Int := (readInt t).bind fun v => if immInRange v then some v else none

/-- A register `r0` to `r15` (R130), without leading zeros. -/
def readReg (t : List Char) : Option RegIdx := (List.finRange 16).find? fun i => decide ('r' :: (Nat.toDigits 10 i.val) = t)

/-- A letter, digit or underscore; an identifier does not begin with a digit. -/
def isIdentifier (t : List Char) : Bool :=
  match t with
  | [] => false
  | c :: rest =>
    let start := fun (x : Char) => x.isAlpha || decide (x = '_')
    start c && rest.all fun x => start x || x.isDigit

/-- The parts of a text between commas (R130). -/
def splitCommas (t : List Char) : List (List Char) :=
  match t with
  | [] => [[]]
  | c :: rest =>
    match splitCommas rest with
    | [] => [[c]]
    | part :: parts => if c = ',' then [] :: part :: parts else (c :: part) :: parts

/-! ## Lines -/

/-- A source line: an optional label and an optional statement, a mnemonic in capitals and its operands (R130). -/
structure AsmLine where
  label : Option (List Char)
  mnemonic : List Char
  operands : List (List Char)
deriving DecidableEq, Repr

/-- The statement of a line after its label. -/
def readStatement (label : Option (List Char)) (t : List Char) : AsmLine :=
  let body := trimBlanks t
  let mn := body.takeWhile fun c => !isBlank c
  let rest := trimBlanks (body.dropWhile fun c => !isBlank c)
  { label := label, mnemonic := mn.map upperChar,
    operands := if rest = [] then [] else (splitCommas rest).map trimBlanks }

/-- One source line (R130): `;` starts a comment, an identifier and `:` at the start is a label. -/
def readLine (t : List Char) : AsmLine :=
  let code := t.takeWhile fun c => decide (c ≠ ';')
  let head := code.takeWhile fun c => decide (c ≠ ':')
  if isIdentifier head ∧ head.length < code.length then readStatement (some head) (code.drop (head.length + 1))
  else readStatement none code

/-- The labels with the index of the next command (R130). -/
def labelIndexes (index : Nat) (ls : List AsmLine) : List (List Char × Nat) :=
  match ls with
  | [] => []
  | l :: rest =>
    let more := labelIndexes (if l.mnemonic = [] then index else index + 1) rest
    match l.label with
    | some name => (name, index) :: more
    | none => more

/-- A branch target: a label, or a signed offset in command words from the branch itself (R131, R132). -/
def readTarget (labels : List (List Char × Nat)) (index : Nat) (t : List Char) : Option Int :=
  match labels.lookup t with
  | some k => if immInRange ((k : Int) - index) then some ((k : Int) - index) else none
  | none => readImm t

/-- Two registers. -/
def regs2 (a b : List Char) (f : RegIdx → RegIdx → Instr) : Option Instr :=
  (readReg a).bind fun x => (readReg b).map fun y => f x y

/-- Three registers. -/
def regs3 (a b c : List Char) (f : RegIdx → RegIdx → RegIdx → Instr) : Option Instr :=
  (readReg a).bind fun x => (readReg b).bind fun y => (readReg c).map fun z => f x y z

/-- Four registers. -/
def regs4 (a b c d : List Char) (f : RegIdx → RegIdx → RegIdx → RegIdx → Instr) : Option Instr :=
  (readReg a).bind fun x => (readReg b).bind fun y => (readReg c).bind fun z => (readReg d).map fun u => f x y z u

/-- The commands without operands. -/
def assemble0 (mn : List Char) : Option Instr :=
  if mn = "NOP".toList then some .nop else if mn = "HALT".toList then some .halt else none

/-- The commands with one operand: branches, J and CLR (R131, R133). -/
def assemble1 (labels : List (List Char × Nat)) (index : Nat) (mn a : List Char) : Option Instr :=
  let target := readTarget labels index a
  if mn = "B.AL".toList then target.map .bAL
  else if mn = "B.EQ".toList then target.map .bEQ
  else if mn = "B.NE".toList then target.map .bNE
  else if mn = "B.LT".toList then target.map .bLT
  else if mn = "B.GE".toList then target.map .bGE
  else if mn = "B.GT".toList then target.map .bGT
  else if mn = "B.LE".toList then target.map .bLE
  else if mn = "B.NI".toList then target.map .bNI
  else if mn = "B.IV".toList then target.map .bIV
  else if mn = "J".toList then target.bind fun off => (Pseudo.j off).expand
  else if mn = "CLR".toList then (readReg a).bind fun rd => (Pseudo.clr rd).expand
  else none

/-- The commands with two operands. -/
def assemble2 (mn a b : List Char) : Option Instr :=
  if mn = "LDI".toList then (readReg a).bind fun rd => (readImm b).map fun v => .ldi rd v
  else if mn = "MOV".toList then regs2 a b .mov
  else if mn = "CMP".toList then regs2 a b .cmp
  else if mn = "CMP.M".toList then regs2 a b .cmpM
  else none

/-- A shift by a constant: SHFTI, SHL or SHR (R131, R133). -/
def assembleShift (a b c : List Char) (f : RegIdx → RegIdx → Int → Option Instr) : Option Instr :=
  (readReg a).bind fun rd => (readReg b).bind fun ra => (readInt c).bind fun k => f rd ra k

/-- The commands with three operands. -/
def assemble3 (mn a b c : List Char) : Option Instr :=
  if mn = "ADD".toList then regs3 a b c .add
  else if mn = "ADD.M".toList then regs3 a b c .addM
  else if mn = "SUB".toList then regs3 a b c .sub
  else if mn = "SUB.M".toList then regs3 a b c .subM
  else if mn = "MUL".toList then regs3 a b c .mul
  else if mn = "MUL.M".toList then regs3 a b c .mulM
  else if mn = "SHFT".toList then regs3 a b c .shft
  else if mn = "AND".toList then regs3 a b c .and
  else if mn = "OR".toList then regs3 a b c .or
  else if mn = "XOR".toList then regs3 a b c .xor
  else if mn = "GCD".toList then regs3 a b c .gcd
  else if mn = "MODINV".toList then regs3 a b c .modinv
  else if mn = "MOD".toList then regs3 a b c fun rd ra rb => .div rd ra rb rd
  else if mn = "MOD.M".toList then regs3 a b c fun rd ra rb => .divM rd ra rb rd
  else if mn = "SHFTI".toList then assembleShift a b c fun rd ra k => if immInRange k then some (.shfti rd ra k) else none
  else if mn = "SHL".toList then assembleShift a b c fun rd ra k => (Pseudo.shl rd ra k).expand
  else if mn = "SHR".toList then assembleShift a b c fun rd ra k => (Pseudo.shr rd ra k).expand
  else none

/-- The commands with four operands; DIV is written quotient, remainder, dividend, divisor (R131). -/
def assemble4 (mn a b c d : List Char) : Option Instr :=
  if mn = "DIV".toList then regs4 a b c d fun rq rr ra rb => .div rq ra rb rr
  else if mn = "DIV.M".toList then regs4 a b c d fun rq rr ra rb => .divM rq ra rb rr
  else if mn = "MODEXP".toList then regs4 a b c d .modexp
  else none

/-- One statement by its number of operands (R131). -/
def assembleLine (labels : List (List Char × Nat)) (index : Nat) (l : AsmLine) : Option Instr :=
  match l.operands with
  | [] => assemble0 l.mnemonic
  | [a] => assemble1 labels index l.mnemonic a
  | [a, b] => assemble2 l.mnemonic a b
  | [a, b, c] => assemble3 l.mnemonic a b c
  | [a, b, c, d] => assemble4 l.mnemonic a b c d
  | _ => none

/-- The commands of the lines, in order. -/
def assembleLines (labels : List (List Char × Nat)) (index : Nat) (ls : List AsmLine) : Option (List Instr) :=
  match ls with
  | [] => some []
  | l :: rest =>
    if l.mnemonic = [] then assembleLines labels index rest
    else (assembleLine labels index l).bind fun i => (assembleLines labels (index + 1) rest).map fun is => i :: is

/-- No label is defined twice. -/
def labelsDistinct (labels : List (List Char × Nat)) : Bool := decide ((labels.map Prod.fst).Nodup)

/-- Assemble source lines to commands; none if a line or a label is not of the language (R130 to R133). -/
def assemble (source : List (List Char)) : Option (List Instr) :=
  let ls := source.map readLine
  let labels := labelIndexes 0 ls
  if labelsDistinct labels then assembleLines labels 0 ls else none

end Sys2Proof.Machine
end

