-- ==== Sys2Proof/Machine/Procedures.lean ====
section
/-! DEFINITION. The limb procedures the spec describes as permitted implementations (41_arith.md R162, R164, R165, R167,
R171, R174; 42_shift_logic.md R203; log 21). No meaning calls them: only their results are architectural, and the
statements say that the results agree with the meanings. -/

namespace Sys2Proof.Machine

/-- The signed combine of ADD (`neg` false) and SUB (`neg` true) (R165). -/
def combine (a b : Int) (neg : Bool) : Int :=
  let b' := if neg then -b else b
  if sgn a = sgn b' then sgn a * ((a.natAbs + b'.natAbs : Nat) : Int)
  else if b'.natAbs ≤ a.natAbs then sgn a * ((a.natAbs - b'.natAbs : Nat) : Int)
  else sgn b' * ((b'.natAbs - a.natAbs : Nat) : Int)

/-- The magnitude of a list of limbs, least significant first (R33). -/
def limbsValue (limbs : List Word) : Nat :=
  match limbs with
  | [] => 0
  | w :: ws => w.toNat + 2 ^ 32 * limbsValue ws

/-- Limb-wise 32-bit add with a carry from a wider accumulator (R162); a missing limb is 0. -/
def addLimbs (carry : Nat) (x y : List Word) : List Word :=
  match x, y with
  | [], [] => [BitVec.ofNat 32 carry]
  | a :: as, [] => BitVec.ofNat 32 (a.toNat + carry) :: addLimbs ((a.toNat + carry) / 2 ^ 32) as []
  | [], b :: bs => BitVec.ofNat 32 (b.toNat + carry) :: addLimbs ((b.toNat + carry) / 2 ^ 32) [] bs
  | a :: as, b :: bs =>
    BitVec.ofNat 32 (a.toNat + b.toNat + carry) :: addLimbs ((a.toNat + b.toNat + carry) / 2 ^ 32) as bs

/-- Limb-wise subtract with borrow of the shorter or equal `y` from `x` (R164). -/
def subLimbs (borrow : Nat) (x y : List Word) : List Word :=
  match x, y with
  | [], _ => []
  | a :: as, [] =>
    BitVec.ofNat 32 (2 ^ 32 + a.toNat - borrow) :: subLimbs (if a.toNat < borrow then 1 else 0) as []
  | a :: as, b :: bs =>
    BitVec.ofNat 32 (2 ^ 32 + a.toNat - (b.toNat + borrow))
      :: subLimbs (if a.toNat < b.toNat + borrow then 1 else 0) as bs

/-- One limb against every limb of the other operand, with a 64-bit intermediate for each pair (R167). -/
def partialProduct (carry : Nat) (d : Word) (x : List Word) : List Word :=
  match x with
  | [] => [BitVec.ofNat 32 carry]
  | a :: as =>
    BitVec.ofNat 32 (a.toNat * d.toNat + carry) :: partialProduct ((a.toNat * d.toNat + carry) / 2 ^ 32) d as

/-- The schoolbook multiply (R167): each partial product, moved up by whole limbs, is added to the running result. -/
def schoolbook (x y : List Word) : List Word :=
  match y with
  | [] => []
  | d :: ds => addLimbs 0 (partialProduct 0 d x) (0 :: schoolbook x ds)

/-- The correction loop of a quotient digit (R171): while B·d > rem, d <- d − 1. -/
def correctDigit (B rem d : Nat) : Nat :=
  match d with
  | 0 => 0
  | k + 1 => if rem < B * (k + 1) then correctDigit B rem k else k + 1

/-- The long division of R171 on the limbs of A, from the most significant: (quotient, remainder). `estimate` is any
quotient-digit estimator. -/
def longDivide (estimate : Nat → Nat → Nat) (A : Int) (B : Nat) (count : Nat) : Nat → Nat → Nat × Nat :=
  match count with
  | 0 => fun q rem => (q, rem)
  | k + 1 => fun q rem =>
    let rem' := rem * 2 ^ 32 + (limb A k).toNat
    let d := correctDigit B rem' (min (2 ^ 32 - 1) (estimate rem' B))
    longDivide estimate A B k (q * 2 ^ 32 + d) (rem' - B * d)

/-- −1, 0 or +1 from the most significant differing limb below `count` (R174). -/
def limbCompare (A B : Int) (count : Nat) : Int :=
  match count with
  | 0 => 0
  | k + 1 =>
    if (limb A k).toNat = (limb B k).toNat then limbCompare A B k
    else if (limb A k).toNat < (limb B k).toNat then -1 else 1

/-- `magcmp` of R174: bit length first, then limbs. -/
def magCompare (A B : Int) : Int :=
  if bitlen A ≠ bitlen B then (if bitlen A < bitlen B then -1 else 1) else limbCompare A B (nlimbs A)

/-- `sign3` of R174. -/
def sign3 (x : Int) : Int := if x < 0 then -1 else if x = 0 then 0 else 1

/-- `cmp` of R174. -/
def compareProcedure (a b : Int) (signedForm : Bool) : Int :=
  if signedForm = false then magCompare (a.natAbs : Int) (b.natAbs : Int)
  else if sign3 a ≠ sign3 b then (if sign3 a < sign3 b then -1 else 1)
  else if a < 0 then -(magCompare (a.natAbs : Int) (b.natAbs : Int))
  else magCompare (a.natAbs : Int) (b.natAbs : Int)

/-- The sub-limb part of a left shift, with 64-bit intermediates (R203); `spill` comes from the limb below. -/
def shiftUpBits (r spill : Nat) (x : List Word) : List Word :=
  match x with
  | [] => [BitVec.ofNat 32 spill]
  | a :: as => BitVec.ofNat 32 (a.toNat * 2 ^ r + spill) :: shiftUpBits r ((a.toNat * 2 ^ r + spill) / 2 ^ 32) as

/-- The left shift of R203: whole limbs, then bits. -/
def shiftUp (k : Nat) (x : List Word) : List Word := List.replicate (k / 32) 0 ++ shiftUpBits (k % 32) 0 x

/-- The sub-limb part of a right shift: the bits of the next-higher limb are pulled in (R203). -/
def shiftDownBits (r : Nat) (x : List Word) : List Word :=
  match x with
  | [] => []
  | a :: as =>
    BitVec.ofNat 32 ((a.toNat + 2 ^ 32 * (as.headD 0).toNat) / 2 ^ r) :: shiftDownBits r as

/-- The right shift of R203: whole limbs are dropped, then bits. -/
def shiftDown (k : Nat) (x : List Word) : List Word := shiftDownBits (k % 32) (x.drop (k / 32))

end Sys2Proof.Machine
end

