-- ==== Sys2Proof/Safety.lean ====
section
/-! DEFINITION. The terms claims use: the invariant of every state the machine can be in, what a command that completes
leaves, and the frames. -/

namespace Sys2Proof.Machine

/-- Every listed byte of memory belongs to BUF or IMEM (R72). -/
def Memory.mapped (c : Config) (m : Memory) : Prop :=
  ∀ cell ∈ m, (∃ j < c.lMax, bufAddr j ≤ cell.1 ∧ cell.1 < bufAddr j + 4)
    ∨ (∃ i < c.imemWords, imemAddr i ≤ cell.1 ∧ cell.1 < imemAddr i + 4)

/-- What holds of every state at a command boundary and whenever the host can look: the invariant that every step keeps. -/
structure State.Inv (s : State) : Prop where
  /-- the configuration is one of R8, R9 -/
  cfg_valid : s.cfg.valid = true
  /-- |Val(r)| < 2^(32·L_MAX) for every register (R34) -/
  regs_fit : ∀ i : RegIdx, (s.reg i).natAbs < 2 ^ (32 * s.cfg.lMax)
  /-- pc is a command-memory index (R37) -/
  pc_lt : s.pc < s.cfg.imemWords
  /-- memory has its canonical form -/
  mem_wf : s.mem.wf = true
  /-- and lists only bytes of BUF and IMEM -/
  mem_mapped : s.mem.mapped s.cfg
  /-- DONE and ERR are never both 1 (R47) -/
  done_err : ¬(s.done = true ∧ s.err = true)
  /-- ERRCODE is 0 exactly when ERR is 0 (R47, R301) -/
  errcode_err : s.err = false ↔ s.errcode = .none
  /-- while a run is in progress DONE and ERR are 0 (R280, R304) -/
  busy_clear : s.busy = true → s.done = false ∧ s.err = false
  /-- an abort request is pending only during a run (R58) -/
  abortp_busy : s.abortp = true → s.busy = true
  /-- a command is in progress only during a run -/
  inFlight_busy : s.inFlight = true → s.busy = true

/-- The index after pc (R265). -/
def State.nextPc (s : State) : Nat := (s.pc + 1) % s.cfg.imemWords

/-- What a command that writes the value `v` to rd leaves: rd holds v, Z and N are set from it, pc is at the next
command, and nothing else has changed (R17, R40, R265). -/
def State.written (s : State) (rd : RegIdx) (v : Int) : State :=
  { s with regs := s.regs.set rd v, z := decide (v = 0), n := decide (v < 0), pc := s.nextPc }

/-- What a division leaves: rd holds q, then rc holds r, Z and N are set from r (R168). -/
def State.divided (s : State) (rd rc : RegIdx) (q r : Int) : State :=
  { s with regs := (s.regs.set rd q).set rc r, z := decide (r = 0), n := decide (r < 0), pc := s.nextPc }

/-- What a command that raises FAULT(code) leaves (R304): nothing of it but ERR, ERRCODE, BUSY and ABORTP. -/
def State.faulted (s : State) (code : ErrCode) : State :=
  { s with err := true, errcode := code, busy := false, abortp := false }

/-- Every byte of BUF and IMEM reads as before. -/
def sameMemory (s t : State) : Prop := ∀ a, t.readByte a = s.readByte a

/-- Everything the host alone writes is unchanged: IE, XERR, HERR, SEL, COUNT, XSIGN, the configuration, and the
model's own fields but the draw counter. -/
structure SameHostSide (s t : State) : Prop where
  cfg : t.cfg = s.cfg
  ie : t.ie = s.ie
  xerr : t.xerr = s.xerr
  herr : t.herr = s.herr
  sel : t.sel = s.sel
  count : t.count = s.count
  xsign : t.xsign = s.xsign
  epoch : t.epoch = s.epoch
  rdata : t.rdata = s.rdata
  inputs : t.inputs = s.inputs

/-- Run control and status are unchanged. -/
structure SameRunControl (s t : State) : Prop where
  busy : t.busy = s.busy
  done : t.done = s.done
  err : t.err = s.err
  errcode : t.errcode = s.errcode
  abortp : t.abortp = s.abortp
  inFlight : t.inFlight = s.inFlight

/-- The destination registers of a command (R131, R161 to R169, R201 to R208, R231, R236, R241). -/
def destinations (i : Instr) : List RegIdx :=
  match i with
  | .nop | .halt | .cmp _ _ | .cmpM _ _ => []
  | .bAL _ | .bEQ _ | .bNE _ | .bLT _ | .bGE _ | .bGT _ | .bLE _ | .bNI _ | .bIV _ => []
  | .ldi rd _ | .mov rd _ | .shfti rd _ _ => [rd]
  | .add rd _ _ | .addM rd _ _ | .sub rd _ _ | .subM rd _ _ | .mul rd _ _ | .mulM rd _ _ => [rd]
  | .shft rd _ _ | .and rd _ _ | .or rd _ _ | .xor rd _ _ | .gcd rd _ _ | .modinv rd _ _ => [rd]
  | .modexp rd _ _ _ => [rd]
  | .div rd _ _ rc | .divM rd _ _ rc => [rd, rc]

/-- The commands that only branch (R262). -/
def isBranch (i : Instr) : Bool :=
  match i with
  | .bAL _ | .bEQ _ | .bNE _ | .bLT _ | .bGE _ | .bGT _ | .bLE _ | .bNI _ | .bIV _ => true
  | .nop | .halt | .ldi _ _ | .mov _ _ | .add _ _ _ | .addM _ _ _ | .sub _ _ _ | .subM _ _ _ => false
  | .mul _ _ _ | .mulM _ _ _ | .div _ _ _ _ | .divM _ _ _ _ | .cmp _ _ | .cmpM _ _ => false
  | .shft _ _ _ | .shfti _ _ _ | .and _ _ _ | .or _ _ _ | .xor _ _ _ => false
  | .gcd _ _ _ | .modexp _ _ _ _ | .modinv _ _ _ => false

/-- The commands that write Z and N (R40). -/
def writesZN (i : Instr) : Bool := !isBranch i && decide (i ≠ .nop) && decide (i ≠ .halt)

/-- MODINV, the one command that writes NI (R40). -/
def writesNI (i : Instr) : Bool :=
  match i with
  | .modinv _ _ _ => true
  | .nop | .halt | .ldi _ _ | .mov _ _ | .add _ _ _ | .addM _ _ _ | .sub _ _ _ | .subM _ _ _ => false
  | .mul _ _ _ | .mulM _ _ _ | .div _ _ _ _ | .divM _ _ _ _ | .cmp _ _ | .cmpM _ _ => false
  | .shft _ _ _ | .shfti _ _ _ | .and _ _ _ | .or _ _ _ | .xor _ _ _ | .gcd _ _ _ | .modexp _ _ _ _ => false
  | .bAL _ | .bEQ _ | .bNE _ | .bLT _ | .bGE _ | .bGT _ | .bLE _ | .bNI _ | .bIV _ => false

/-- The error codes a command may raise when it executes (R301, R302). -/
def mayRaise (i : Instr) (code : ErrCode) : Bool :=
  match i, code with
  | .add _ _ _, .overflow | .addM _ _ _, .overflow | .sub _ _ _, .overflow => true
  | .mul _ _ _, .overflow | .mulM _ _ _, .overflow | .shft _ _ _, .overflow | .shfti _ _ _, .overflow => true
  | .subM _ _ _, .precond => true
  | .div _ _ _ _, .divzero | .divM _ _ _ _, .divzero | .modexp _ _ _ _, .divzero | .modinv _ _ _, .divzero => true
  | .modexp _ _ _ _, .range | .modinv _ _ _, .range => true
  | _, _ => false

/-- The register whose new value sets Z and N when the command completes (R40): rc for a division, else rd. -/
def flagSource (i : Instr) : Option RegIdx :=
  match i with
  | .nop | .halt | .cmp _ _ | .cmpM _ _ => none
  | .bAL _ | .bEQ _ | .bNE _ | .bLT _ | .bGE _ | .bGT _ | .bLE _ | .bNI _ | .bIV _ => none
  | .ldi rd _ | .mov rd _ | .shfti rd _ _ => some rd
  | .add rd _ _ | .addM rd _ _ | .sub rd _ _ | .subM rd _ _ | .mul rd _ _ | .mulM rd _ _ => some rd
  | .shft rd _ _ | .and rd _ _ | .or rd _ _ | .xor rd _ _ | .gcd rd _ _ | .modinv rd _ _ => some rd
  | .modexp rd _ _ _ => some rd
  | .div _ _ _ rc | .divM _ _ _ rc => some rc

/-- The condition and the offset of a branch (R262). -/
def branchParts (i : Instr) : Option (Cond × Int) :=
  match i with
  | .bAL off => some (.al, off)
  | .bEQ off => some (.eq, off)
  | .bNE off => some (.ne, off)
  | .bLT off => some (.lt, off)
  | .bGE off => some (.ge, off)
  | .bGT off => some (.gt, off)
  | .bLE off => some (.le, off)
  | .bNI off => some (.ni, off)
  | .bIV off => some (.iv, off)
  | .nop | .halt | .ldi _ _ | .mov _ _ | .add _ _ _ | .addM _ _ _ | .sub _ _ _ | .subM _ _ _ => none
  | .mul _ _ _ | .mulM _ _ _ | .div _ _ _ _ | .divM _ _ _ _ | .cmp _ _ | .cmpM _ _ => none
  | .shft _ _ _ | .shfti _ _ _ | .and _ _ _ | .or _ _ _ | .xor _ _ _ => none
  | .gcd _ _ _ | .modexp _ _ _ _ | .modinv _ _ _ => none

/-- What a branch leaves: pc at the target, modulo IMEM_WORDS, if it is taken, else at the next command (R262). -/
def State.branched (s : State) (isTaken : Bool) (off : Int) : State :=
  { s with pc := if isTaken then (((s.pc : Int) + off) % (s.cfg.imemWords : Int)).toNat else s.nextPc }

/-- The words of a row of R119 decode to the row's command, with its operands read from the word. -/
def EncodedAs (pattern mask : Word) (command : Word → Instr) : Prop :=
  ∀ w : Word, w &&& mask = pattern → decode w = .ok (command w)

/-- The engine makes the next move: the inputs are empty, or begin with the engine's turn. `s'` is the state it moves
from. -/
def EngineTurn (s s' : State) : Prop :=
  (s.inputs = [] ∧ s' = s) ∨ ∃ rest, s.inputs = .engine :: rest ∧ s' = { s with inputs := rest }

/-- The word encodes no command, and an engine step that fetches it, with no abort to stop it first, raises
FAULT(ILLEGAL): nothing changes but ERR, ERRCODE, BUSY and ABORTP (R120, R304); the model's own `inFlight` is left open
here. -/
def RaisesIllegal (w : Word) : Prop :=
  (∃ e, decode w = .error e) ∧
  ∀ s s' : State, EngineTurn s s' → s.busy = true → (s.abortp = false ∨ s.inFlight = true) → s.imem s.pc = w →
    ∃ inFlight, step s = .next { s'.faulted .illegal with inFlight := inFlight }

/-- A word of this opcode that matches none of the opcode's rows is illegal (R120). -/
def IllegalUnless (opcode : Nat) (rows : List (Word × Word)) : Prop :=
  ∀ w : Word, field w 31 26 = opcode → (∀ r ∈ rows, w &&& r.2 ≠ r.1) → RaisesIllegal w

/-- The event is the next move; `s'` is the state it acts on. -/
def EventTurn (s s' : State) (e : Event) : Prop :=
  ∃ rest, s.inputs = e :: rest ∧ s' = { s with inputs := rest }

/-- The host's access is the next move; `s'` is the state it acts on. -/
def HostTurn (s s' : State) (a : HostAccess) : Prop := EventTurn s s' (.host a)

/-- `t` is `s` with the word `w` stored at window offset `a`: every other byte of BUF and IMEM and everything outside
memory is as before. -/
def StoresWord (s t : State) (a : Nat) (w : Word) : Prop :=
  ∃ m : Memory, t = { s with mem := m } ∧ m.readWord s.epoch a = w ∧
    ∀ b, b < a ∨ a + 4 ≤ b → m.readByte s.epoch b = s.readByte b

/-- The same state but for what the host alone writes and the engine may not see (R321): IE, XERR, HERR, SEL, COUNT,
XSIGN, and the last word a host read returned. -/
def State.withHostSide (s : State) (ie xerr herr : Bool) (sel : RegIdx) (count : Word) (xsign : Bool) (rdata : Word) :
    State :=
  { s with ie := ie, xerr := xerr, herr := herr, sel := sel, count := count, xsign := xsign, rdata := rdata }

end Sys2Proof.Machine
end

