-- ==== Sys2Proof/Certificates/Slice0/Obligations.lean ====
section
/-! DEFINITION. The statements for the provers: what the rules of spec/ say of the model. -/

open Sys2Proof Sys2Proof.Machine

/-! ## Encoding -/

/-- Every well-formed command, with every operand value, is what its word decodes to. -/
def Obligations.DecodeEncodeRoundTrip : Prop :=
  ∀ i : Instr, i.wellFormed = true → decode (encode i) = .ok i

/-- Every word that decodes to a command is that command's word, and the command is well formed. -/
def Obligations.EncodeDecodeRoundTrip : Prop :=
  ∀ (w : Word) (i : Instr), decode w = .ok i → i.wellFormed = true ∧ encode i = w

/-- R119, R123: a word decodes iff it matches a row, then exactly one, and the command is that row's, with the row's
operand fields. -/
def Obligations.DecodeFollowsTheRowTable : Prop :=
  ∀ w : Word,
    (∀ i, decode w = .ok i → ∃ r ∈ opTable, w &&& r.mask = r.pattern ∧ r.mnemonic = i.mnemonic ∧
      i.fieldValues = r.fields.map (fun f => (f.1, field w f.2.1 f.2.2)) ∧
      ∀ r' ∈ opTable, w &&& r'.mask = r'.pattern → r' = r) ∧
    ((∃ r ∈ opTable, w &&& r.mask = r.pattern) → ∃ i, decode w = .ok i)

/-- A few of the spec's own example words (R140, R141, R161, R168, R172, R201, R202, R206, R231, R236, R241, R260 to
R262). -/
def Obligations.SpecWordsDecode : Prop :=
  decode 0x0CC0FFFB = .ok (.ldi 3 (-5)) ∧ decode 0x10480000 = .ok (.mov 1 2) ∧
  decode 0x1448C200 = .ok (.add 1 2 3) ∧ decode 0x2108D600 = .ok (.div 4 2 3 5) ∧
  decode 0x2408C200 = .ok (.cmp 2 3) ∧ decode 0x2848C000 = .ok (.shft 1 2 3) ∧
  decode 0x2C48FFFC = .ok (.shfti 1 2 (-4)) ∧ decode 0x3048C000 = .ok (.and 1 2 3) ∧
  decode 0x4048C000 = .ok (.gcd 1 2 3) ∧ decode 0x45048C00 = .ok (.modexp 4 1 2 3) ∧
  decode 0x4848C000 = .ok (.modinv 1 2 3) ∧ decode 0x04000000 = .ok .nop ∧ decode 0x08000000 = .ok .halt ∧
  decode 0x8080FFFD = .ok (.bNE (-3))

/-! ## The engine step -/

/-- When the engine moves, BUSY = 1, no abort stops it, and the word at pc decodes to i, the step is exec of i; the
model's one addition is that no command is in progress any more (log 7). -/
def Obligations.StepRunsTheDecodedCommand : Prop :=
  ∀ (s s' : State) (i : Instr), EngineTurn s s' → s.busy = true → (s.abortp = false ∨ s.inFlight = true) →
    decode (s.imem s.pc) = .ok i → step s = exec i { s' with inFlight := false }

/-- R266, R82, R341: a step makes the next move. The engine's: idle, none; at a command boundary a pending abort stops
the run with ERRCODE 6 and pc kept; else, and for a command already in progress, the word at pc runs, or raises ILLEGAL.
The host's: its read or write. The platform's: power-on reset. The boundary's: the abort stop, or the command at pc is in
progress, or no change. The moves as data are log 6, `inFlight` and the boundary log 7. -/
def Obligations.EngineStepOrder : Prop :=
  (∀ s s' : State, EngineTurn s s' →
    (s.busy = false → step s = .next s') ∧
    (s.busy = true → s.abortp = true → s.inFlight = false → step s = .next (s'.faulted .abort)) ∧
    (s.busy = true → (s.abortp = false ∨ s.inFlight = true) →
      (∀ i, decode (s.imem s.pc) = .ok i → step s = exec i { s' with inFlight := false }) ∧
      (∀ e, decode (s.imem s.pc) = .error e → step s = .next ({ s' with inFlight := false }.faulted .illegal)))) ∧
  (∀ (s s' : State) (off : Offset), HostTurn s s' (.read off) → step s = .next (hostRead off s')) ∧
  (∀ (s s' : State) (off : Offset) (w : Word), HostTurn s s' (.write off w) → step s = .next (hostWrite off w s')) ∧
  (∀ s s' : State, EventTurn s s' .powerOn → step s = .next s'.powerOn) ∧
  ∀ s s' : State, EventTurn s s' .boundary →
    (s.busy = false ∨ s.inFlight = true → step s = .next s') ∧
    (s.busy = true → s.inFlight = false → s.abortp = true → step s = .next (s'.faulted .abort)) ∧
    (s.busy = true → s.inFlight = false → s.abortp = false → step s = .next { s' with inFlight := true })

/-- R120: a word that matches no row of R119 raises FAULT(ILLEGAL) when it is executed. -/
def Obligations.UnmatchedWordRaisesIllegal : Prop :=
  ∀ w : Word, (∀ r ∈ opTable, w &&& r.mask ≠ r.pattern) → RaisesIllegal w

/-! ## Value construction and copy -/

/-- R140: LDI. -/
def Obligations.LdiLoadsTheImmediate : Prop :=
  EncodedAs 0x0C000000 0xFC3F0000 (fun w => .ldi (regField w 22) (sext16 (field w 15 0))) ∧
  IllegalUnless 0x03 [(0x0C000000, 0xFC3F0000)] ∧
  ∀ (s : State) (rd : RegIdx) (imm : Int), exec (.ldi rd imm) s = .next (s.written rd imm)

/-- R141: MOV. -/
def Obligations.MovCopiesTheRegister : Prop :=
  EncodedAs 0x10000000 0xFC03FFFF (fun w => .mov (regField w 22) (regField w 18)) ∧
  IllegalUnless 0x04 [(0x10000000, 0xFC03FFFF)] ∧
  ∀ (s : State) (rd ra : RegIdx), exec (.mov rd ra) s = .next (s.written rd (s.reg ra))

/-! ## Arithmetic -/

/-- R161, R162: ADD and ADD.M. -/
def Obligations.AddAndAddM : Prop :=
  EncodedAs 0x14000200 0xFC003FFF (fun w => .add (regField w 22) (regField w 18) (regField w 14)) ∧
  EncodedAs 0x14000000 0xFC003FFF (fun w => .addM (regField w 22) (regField w 18) (regField w 14)) ∧
  IllegalUnless 0x05 [(0x14000200, 0xFC003FFF), (0x14000000, 0xFC003FFF)] ∧
  ∀ (s : State) (rd ra rb : RegIdx), s.cfg.valid = true →
    ((s.reg ra + s.reg rb).natAbs < 2 ^ (32 * s.cfg.lMax) →
      exec (.add rd ra rb) s = .next (s.written rd (s.reg ra + s.reg rb))) ∧
    (2 ^ (32 * s.cfg.lMax) ≤ (s.reg ra + s.reg rb).natAbs → exec (.add rd ra rb) s = .next (s.faulted .overflow)) ∧
    (|s.reg ra| + |s.reg rb| < 2 ^ (32 * s.cfg.lMax) →
      exec (.addM rd ra rb) s = .next (s.written rd (|s.reg ra| + |s.reg rb|))) ∧
    (2 ^ (32 * s.cfg.lMax) ≤ |s.reg ra| + |s.reg rb| → exec (.addM rd ra rb) s = .next (s.faulted .overflow))

/-- R163, R164: SUB and SUB.M. -/
def Obligations.SubAndSubM : Prop :=
  EncodedAs 0x18000200 0xFC003FFF (fun w => .sub (regField w 22) (regField w 18) (regField w 14)) ∧
  EncodedAs 0x18000000 0xFC003FFF (fun w => .subM (regField w 22) (regField w 18) (regField w 14)) ∧
  IllegalUnless 0x06 [(0x18000200, 0xFC003FFF), (0x18000000, 0xFC003FFF)] ∧
  ∀ (s : State) (rd ra rb : RegIdx), s.cfg.valid = true →
    ((s.reg ra - s.reg rb).natAbs < 2 ^ (32 * s.cfg.lMax) →
      exec (.sub rd ra rb) s = .next (s.written rd (s.reg ra - s.reg rb))) ∧
    (2 ^ (32 * s.cfg.lMax) ≤ (s.reg ra - s.reg rb).natAbs → exec (.sub rd ra rb) s = .next (s.faulted .overflow)) ∧
    (|s.reg rb| ≤ |s.reg ra| → exec (.subM rd ra rb) s = .next (s.written rd (|s.reg ra| - |s.reg rb|))) ∧
    (|s.reg ra| < |s.reg rb| → exec (.subM rd ra rb) s = .next (s.faulted .precond))

/-- R166, R167: MUL and MUL.M. -/
def Obligations.MulAndMulM : Prop :=
  EncodedAs 0x1C000200 0xFC003FFF (fun w => .mul (regField w 22) (regField w 18) (regField w 14)) ∧
  EncodedAs 0x1C000000 0xFC003FFF (fun w => .mulM (regField w 22) (regField w 18) (regField w 14)) ∧
  IllegalUnless 0x07 [(0x1C000200, 0xFC003FFF), (0x1C000000, 0xFC003FFF)] ∧
  ∀ (s : State) (rd ra rb : RegIdx), s.cfg.valid = true →
    ((s.reg ra * s.reg rb).natAbs < 2 ^ (32 * s.cfg.lMax) →
      exec (.mul rd ra rb) s = .next (s.written rd (s.reg ra * s.reg rb)) ∧
      exec (.mulM rd ra rb) s = .next (s.written rd (|s.reg ra| * |s.reg rb|))) ∧
    (2 ^ (32 * s.cfg.lMax) ≤ (s.reg ra * s.reg rb).natAbs →
      exec (.mul rd ra rb) s = .next (s.faulted .overflow) ∧ exec (.mulM rd ra rb) s = .next (s.faulted .overflow))

/-- R168: DIV. The quotient and remainder are the only pair with the division law of R14 and its signs. -/
def Obligations.DivTruncates : Prop :=
  EncodedAs 0x20000200 0xFC0003FF (fun w => .div (regField w 22) (regField w 18) (regField w 14) (regField w 10)) ∧
  IllegalUnless 0x08 [(0x20000200, 0xFC0003FF), (0x20000000, 0xFC0003FF)] ∧
  ∀ (s : State) (rd ra rb rc : RegIdx),
    (s.reg rb ≠ 0 → ∃ q r : Int, exec (.div rd ra rb rc) s = .next (s.divided rd rc q r) ∧
      s.reg ra = s.reg rb * q + r ∧ r.natAbs < (s.reg rb).natAbs ∧
      (r ≠ 0 → sgn r = sgn (s.reg ra)) ∧ (q ≠ 0 → sgn q = sgn (s.reg ra) * sgn (s.reg rb))) ∧
    (s.reg rb = 0 → exec (.div rd ra rb rc) s = .next (s.faulted .divzero))

/-- R169: DIV.M. -/
def Obligations.DivMOnMagnitudes : Prop :=
  EncodedAs 0x20000000 0xFC0003FF (fun w => .divM (regField w 22) (regField w 18) (regField w 14) (regField w 10)) ∧
  IllegalUnless 0x08 [(0x20000200, 0xFC0003FF), (0x20000000, 0xFC0003FF)] ∧
  ∀ (s : State) (rd ra rb rc : RegIdx),
    (s.reg rb ≠ 0 → ∃ q r : Nat, exec (.divM rd ra rb rc) s = .next (s.divided rd rc q r) ∧
      (s.reg ra).natAbs = (s.reg rb).natAbs * q + r ∧ r < (s.reg rb).natAbs) ∧
    (s.reg rb = 0 → exec (.divM rd ra rb rc) s = .next (s.faulted .divzero))

/-- R172, R173: CMP and CMP.M write Z and N from the order on the integers and on the magnitudes, and no register. -/
def Obligations.CompareSetsZAndN : Prop :=
  EncodedAs 0x24000200 0xFFC03FFF (fun w => .cmp (regField w 18) (regField w 14)) ∧
  EncodedAs 0x24000000 0xFFC03FFF (fun w => .cmpM (regField w 18) (regField w 14)) ∧
  IllegalUnless 0x09 [(0x24000200, 0xFFC03FFF), (0x24000000, 0xFFC03FFF)] ∧
  ∀ (s : State) (ra rb : RegIdx),
    exec (.cmp ra rb) s = .next { s with
      z := decide (s.reg ra = s.reg rb), n := decide (s.reg ra < s.reg rb), pc := s.nextPc } ∧
    exec (.cmpM ra rb) s = .next { s with
      z := decide (|s.reg ra| = |s.reg rb|), n := decide (|s.reg ra| < |s.reg rb|), pc := s.nextPc }

/-! ## Shift and logic -/

/-- R200, R201, R202: SHFT and SHFTI. -/
def Obligations.ShiftResults : Prop :=
  EncodedAs 0x28000000 0xFC003FFF (fun w => .shft (regField w 22) (regField w 18) (regField w 14)) ∧
  IllegalUnless 0x0A [(0x28000000, 0xFC003FFF)] ∧
  EncodedAs 0x2C000000 0xFC030000 (fun w => .shfti (regField w 22) (regField w 18) (sext16 (field w 15 0))) ∧
  IllegalUnless 0x0B [(0x2C000000, 0xFC030000)] ∧
  ∀ (s : State) (rd ra rb : RegIdx) (imm : Int), s.cfg.valid = true →
    ∀ (i : Instr) (k : Int), (i = .shft rd ra rb ∧ k = s.reg rb) ∨ (i = .shfti rd ra imm ∧ k = imm) →
      (0 ≤ k → s.reg ra ≠ 0 → (bitlen (s.reg ra) : Int) + k > 32 * s.cfg.lMax →
        exec i s = .next (s.faulted .overflow)) ∧
      (0 ≤ k → (s.reg ra = 0 ∨ (bitlen (s.reg ra) : Int) + k ≤ 32 * s.cfg.lMax) →
        exec i s = .next (s.written rd (|s.reg ra| * 2 ^ k.toNat))) ∧
      (k < 0 → exec i s = .next (s.written rd (|s.reg ra| / 2 ^ (-k).toNat)))

/-- R205 to R208: AND, OR and XOR combine the magnitudes limb by limb and write a value that is not negative. -/
def Obligations.BitwiseByLimbs : Prop :=
  EncodedAs 0x30000000 0xFC003FFF (fun w => .and (regField w 22) (regField w 18) (regField w 14)) ∧
  IllegalUnless 0x0C [(0x30000000, 0xFC003FFF)] ∧
  EncodedAs 0x34000000 0xFC003FFF (fun w => .or (regField w 22) (regField w 18) (regField w 14)) ∧
  IllegalUnless 0x0D [(0x34000000, 0xFC003FFF)] ∧
  EncodedAs 0x38000000 0xFC003FFF (fun w => .xor (regField w 22) (regField w 18) (regField w 14)) ∧
  IllegalUnless 0x0E [(0x38000000, 0xFC003FFF)] ∧
  ∀ (s : State) (rd ra rb : RegIdx),
    (∃ v : Int, exec (.and rd ra rb) s = .next (s.written rd v) ∧ 0 ≤ v ∧
      ∀ j, limb v j = limb (s.reg ra) j &&& limb (s.reg rb) j) ∧
    (∃ v : Int, exec (.or rd ra rb) s = .next (s.written rd v) ∧ 0 ≤ v ∧
      ∀ j, limb v j = limb (s.reg ra) j ||| limb (s.reg rb) j) ∧
    (∃ v : Int, exec (.xor rd ra rb) s = .next (s.written rd v) ∧ 0 ≤ v ∧
      ∀ j, limb v j = limb (s.reg ra) j ^^^ limb (s.reg rb) j)

/-! ## Number theory -/

/-- R231: GCD. -/
def Obligations.GcdResult : Prop :=
  EncodedAs 0x40000000 0xFC003FFF (fun w => .gcd (regField w 22) (regField w 18) (regField w 14)) ∧
  IllegalUnless 0x10 [(0x40000000, 0xFC003FFF)] ∧
  ∀ (s : State) (rd ra rb : RegIdx),
    exec (.gcd rd ra rb) s = .next (s.written rd (Int.gcd (s.reg ra) (s.reg rb)))

/-- R235, R236: MODEXP, in the closed form that R237 derives from the loop of R236. -/
def Obligations.ModexpResult : Prop :=
  EncodedAs 0x44000000 0xFC0003FF (fun w => .modexp (regField w 22) (regField w 18) (regField w 14) (regField w 10)) ∧
  IllegalUnless 0x11 [(0x44000000, 0xFC0003FF)] ∧
  ∀ (s : State) (rd ra rb rc : RegIdx),
    (s.reg rc = 0 → exec (.modexp rd ra rb rc) s = .next (s.faulted .divzero)) ∧
    (s.reg rc < 0 → exec (.modexp rd ra rb rc) s = .next (s.faulted .range)) ∧
    (0 < s.reg rc → s.reg rb < 0 → exec (.modexp rd ra rb rc) s = .next (s.faulted .range)) ∧
    (0 < s.reg rc → 0 ≤ s.reg rb → ∃ v : Int, exec (.modexp rd ra rb rc) s = .next (s.written rd v) ∧
      v = (if s.reg rc ∣ s.reg ra then 0 else trem (s.reg ra ^ (s.reg rb).toNat) (s.reg rc)) ∧
      v.natAbs < (s.reg rc).natAbs ∧
      (0 ≤ s.reg ra → ¬ s.reg rc ∣ s.reg ra → v = s.reg ra ^ (s.reg rb).toNat % s.reg rc))

/-- R240, R241, R244: MODINV in EXACT mode, in the closed form that R242 derives from the loop of R241. After the domain
checks it writes d = fmod(u0, b) in [0, b) with a·d ≡ gcd(a, b) modulo b, the inverse when the gcd is 1, and NI says
whether it is not. -/
def Obligations.ModinvExactResult : Prop :=
  EncodedAs 0x48000000 0xFC003FFF (fun w => .modinv (regField w 22) (regField w 18) (regField w 14)) ∧
  IllegalUnless 0x12 [(0x48000000, 0xFC003FFF)] ∧
  ∀ (s : State) (rd ra rb : RegIdx), s.cfg.modinvMode = .exactMode →
    (s.reg rb = 0 → exec (.modinv rd ra rb) s = .next (s.faulted .divzero)) ∧
    (s.reg rb < 0 ∨ (0 < s.reg rb ∧ s.reg ra < 0) → exec (.modinv rd ra rb) s = .next (s.faulted .range)) ∧
    (0 < s.reg rb → 0 ≤ s.reg ra → ∃ d : Int,
      exec (.modinv rd ra rb) s =
        .next { s.written rd d with ni := decide (Int.gcd (s.reg ra) (s.reg rb) ≠ 1) } ∧
      d = fmod (bezout (s.reg ra) (s.reg rb)).2 (s.reg rb) ∧ 0 ≤ d ∧ d < s.reg rb ∧
      s.reg rb ∣ s.reg ra * d - Int.gcd (s.reg ra) (s.reg rb) ∧
      (Int.gcd (s.reg ra) (s.reg rb) = 1 → 1 < s.reg rb → d * s.reg ra % s.reg rb = 1))

/-- R243, R244: MODINV in WEAK mode writes some d in [0, b); NI is exact. Log 9: d is a free value and one draw is used
up. -/
def Obligations.ModinvWeakResult : Prop :=
  ∀ (s : State) (rd ra rb : RegIdx), s.cfg.modinvMode = .weakMode → 0 ≤ s.reg ra → 0 < s.reg rb →
    ∃ d : Int, 0 ≤ d ∧ d < s.reg rb ∧
      exec (.modinv rd ra rb) s =
        .next { s.written rd d with ni := decide (Int.gcd (s.reg ra) (s.reg rb) ≠ 1), draws := s.draws + 1 }

/-- R240: the operand domain of MODINV, in both modes, in the rule's order. -/
def Obligations.ModinvDomainFaults : Prop :=
  ∀ (s : State) (rd ra rb : RegIdx),
    (s.reg rb = 0 → exec (.modinv rd ra rb) s = .next (s.faulted .divzero)) ∧
    (s.reg rb < 0 → exec (.modinv rd ra rb) s = .next (s.faulted .range)) ∧
    (0 < s.reg rb → s.reg ra < 0 → exec (.modinv rd ra rb) s = .next (s.faulted .range)) ∧
    (0 < s.reg rb → 0 ≤ s.reg ra → ∃ t, exec (.modinv rd ra rb) s = .next t ∧ t.err = s.err ∧ t.busy = s.busy)

/-! ## Control -/

/-- R260, R261: NOP and HALT. -/
def Obligations.NopAndHalt : Prop :=
  EncodedAs 0x04000000 0xFFFFFFFF (fun _ => .nop) ∧ IllegalUnless 0x01 [(0x04000000, 0xFFFFFFFF)] ∧
  EncodedAs 0x08000000 0xFFFFFFFF (fun _ => .halt) ∧ IllegalUnless 0x02 [(0x08000000, 0xFFFFFFFF)] ∧
  ∀ s : State,
    exec .nop s = .next { s with pc := s.nextPc } ∧
    exec .halt s = .next { s with done := true, busy := false, abortp := false, pc := s.nextPc }

/-- R262, R118, R121: B.cond under each of the nine conditions; the other conditions are illegal. -/
def Obligations.BranchResults : Prop :=
  EncodedAs 0x80000000 0xFFFF0000 (fun w => .bAL (sext16 (field w 15 0))) ∧
  EncodedAs 0x80400000 0xFFFF0000 (fun w => .bEQ (sext16 (field w 15 0))) ∧
  EncodedAs 0x80800000 0xFFFF0000 (fun w => .bNE (sext16 (field w 15 0))) ∧
  EncodedAs 0x80C00000 0xFFFF0000 (fun w => .bLT (sext16 (field w 15 0))) ∧
  EncodedAs 0x81000000 0xFFFF0000 (fun w => .bGE (sext16 (field w 15 0))) ∧
  EncodedAs 0x81400000 0xFFFF0000 (fun w => .bGT (sext16 (field w 15 0))) ∧
  EncodedAs 0x81800000 0xFFFF0000 (fun w => .bLE (sext16 (field w 15 0))) ∧
  EncodedAs 0x81C00000 0xFFFF0000 (fun w => .bNI (sext16 (field w 15 0))) ∧
  EncodedAs 0x82000000 0xFFFF0000 (fun w => .bIV (sext16 (field w 15 0))) ∧
  (∀ w : Word, field w 31 26 = 0x20 → (9 ≤ field w 25 22 ∨ field w 21 16 ≠ 0) → RaisesIllegal w) ∧
  ∀ (s : State) (off : Int),
    exec (.bAL off) s = .next (s.branched true off) ∧
    exec (.bEQ off) s = .next (s.branched s.z off) ∧
    exec (.bNE off) s = .next (s.branched (!s.z) off) ∧
    exec (.bLT off) s = .next (s.branched s.n off) ∧
    exec (.bGE off) s = .next (s.branched (!s.n) off) ∧
    exec (.bGT off) s = .next (s.branched (!s.n && !s.z) off) ∧
    exec (.bLE off) s = .next (s.branched (s.n || s.z) off) ∧
    exec (.bNI off) s = .next (s.branched s.ni off) ∧
    exec (.bIV off) s = .next (s.branched (!s.ni) off)

/-! ## The whole machine -/

/-- Every step from a state with the invariant gives a state with the invariant, whatever the host and the platform do. -/
def Obligations.EveryStepKeepsTheInvariant : Prop :=
  ∀ s t : State, s.Inv → step s = .next t → t.Inv

/-- Power-on reset of every configuration of R8 and R9, `State.reset` among them, has the invariant. -/
def Obligations.ResetMeetsTheInvariant : Prop :=
  State.reset.Inv ∧
  ∀ (c : Config) (epoch draws : Nat) (rdata : Word) (inputs : List Event), c.valid = true →
    (State.atPowerOn c epoch draws rdata inputs).Inv

/-- No step stops the machine, and none changes the configuration (R8 to R11, R74). -/
def Obligations.EveryStepAnswersNext : Prop :=
  ∀ s : State, ∃ t, step s = .next t ∧ t.cfg = s.cfg

/-- R301, R302: a command raises only the codes listed for it, and no step produces a code but through its raisers: a
step that changes ERRCODE to one is the abort stop at a boundary, the fetch of a word that encodes no command, or a
command that may raise it. -/
def Obligations.CommandsRaiseOnlyTheirCodes : Prop :=
  (∀ (i : Instr) (s t : State), s.err = false → exec i s = .next t → t.err = true → mayRaise i t.errcode = true) ∧
  ∀ s t : State, step s = .next t → t.errcode ≠ s.errcode → t.errcode ≠ .none → s.busy = true ∧
    ((t.errcode = .abort ∧ s.abortp = true ∧ s.inFlight = false) ∨
      (t.errcode = .illegal ∧ ∃ e, decode (s.imem s.pc) = .error e) ∨
      ∃ i, decode (s.imem s.pc) = .ok i ∧ mayRaise i t.errcode = true)

/-- R305: an engine step that ends in a fault, of any command or of a word that encodes none, makes none of its writes:
the state is the one before it, but for ERR, ERRCODE, BUSY and ABORTP (and the model's own `inFlight`), with a code in 1
to 5. -/
def Obligations.FaultsArePrecise : Prop :=
  ∀ s s' t : State, EngineTurn s s' → s.busy = true → (s.abortp = false ∨ s.inFlight = true) → s.err = false →
    step s = .next t → t.err = true →
    t = { s'.faulted t.errcode with inFlight := t.inFlight } ∧ 1 ≤ t.errcode.toNat ∧ t.errcode.toNat ≤ 5

/-- R36: a command changes no register but its destinations, and a host write that is no soft reset none but R[SEL]. -/
def Obligations.CommandsChangeOnlyDestinations : Prop :=
  (∀ (i : Instr) (s t : State) (k : RegIdx), exec i s = .next t → k ∉ destinations i → t.reg k = s.reg k) ∧
  ∀ (s : State) (off : Offset) (w : Word) (k : RegIdx), k ≠ s.sel → (off.toNat / 4 ≠ 1 ∨ w.getLsbD 2 = false) →
    (hostWrite off w s).reg k = s.reg k

/-- R70, R90, R321: a command leaves every byte of BUF and IMEM, the registers that the host alone writes, and, but for
HALT and a fault, the run control. -/
def Obligations.CommandsLeaveMemoryAndHostSide : Prop :=
  ∀ (i : Instr) (s t : State), exec i s = .next t →
    sameMemory s t ∧ SameHostSide s t ∧
    (s.err = false → t.err = false → i ≠ .halt → SameRunControl s t)

/-- R40: what each command does to Z, N and NI. -/
def Obligations.FlagsFollowTheTable : Prop :=
  ∀ (i : Instr) (s t : State), s.err = false → exec i s = .next t →
    (t.err = true → t.z = s.z ∧ t.n = s.n ∧ t.ni = s.ni) ∧
    (t.err = false →
      (∀ k, flagSource i = some k → t.z = decide (t.reg k = 0) ∧ t.n = decide (t.reg k < 0)) ∧
      (∀ a b, i = .cmp a b → t.z = decide (s.reg a = s.reg b) ∧ t.n = decide (s.reg a < s.reg b)) ∧
      (∀ a b, i = .cmpM a b → t.z = decide (|s.reg a| = |s.reg b|) ∧ t.n = decide (|s.reg a| < |s.reg b|)) ∧
      (∀ d a b, i = .modinv d a b → t.n = false ∧ t.ni = decide (Int.gcd (s.reg a) (s.reg b) ≠ 1)) ∧
      (writesNI i = false → t.ni = s.ni) ∧
      (writesZN i = false → t.z = s.z ∧ t.n = s.n))

/-- R41: only B.cond reads the flags. With other flags before it, any other command leaves the same state, but for the
flags it does not write: those stay what they were. -/
def Obligations.OnlyBranchesReadTheFlags : Prop :=
  ∀ (i : Instr) (s t : State) (z n ni : Bool), s.err = false → isBranch i = false → exec i s = .next t →
    exec i { s with z := z, n := n, ni := ni } = .next { t with
      z := if writesZN i = true ∧ t.err = false then t.z else z
      n := if writesZN i = true ∧ t.err = false then t.n else n
      ni := if writesNI i = true ∧ t.err = false then t.ni else ni }

/-- R265, R262: pc after a command: its own index if it faults, the branch's target if it is a taken branch, else the
next index. -/
def Obligations.PcAdvancesSequentially : Prop :=
  ∀ (i : Instr) (s t : State), s.err = false → exec i s = .next t →
    (t.err = true → t.pc = s.pc) ∧
    (t.err = false → isBranch i = false → t.pc = (s.pc + 1) % s.cfg.imemWords) ∧
    (∀ c off, branchParts i = some (c, off) → t.err = false ∧
      t.pc = if taken c s then (((s.pc : Int) + off) % (s.cfg.imemWords : Int)).toNat
        else (s.pc + 1) % s.cfg.imemWords)

/-- R267: a run ends in one of four ways. -/
def Obligations.RunsEndInFourWays : Prop :=
  ∀ s t : State, s.Inv → s.busy = true → step s = .next t → t.busy = false →
    (decode (s.imem s.pc) = .ok .halt ∧ t.done = true ∧ t.err = false) ∨
    (t.done = false ∧ t.err = true ∧ 1 ≤ t.errcode.toNat ∧ t.errcode.toNat ≤ 5 ∧ t.pc = s.pc) ∨
    (t.done = false ∧ t.err = true ∧ t.errcode = .abort ∧ t.pc = s.pc) ∨
    (t = { State.atPowerOn s.cfg t.epoch s.draws s.rdata t.inputs with mem := t.mem })

/-- R321: a command neither sees nor changes the registers that the host alone writes: with other values there, it does
the same. -/
def Obligations.CommandsIgnoreHostRegisters : Prop :=
  ∀ (i : Instr) (s t : State) (ie xerr herr : Bool) (sel : RegIdx) (count : Word) (xsign : Bool) (rdata : Word),
    exec i s = .next t →
    exec i (s.withHostSide ie xerr herr sel count xsign rdata) =
      .next (t.withHostSide ie xerr herr sel count xsign rdata)

/-- R307: an abort request that lands while a command is in progress does not stop that command: one that ends the run
ends it with its own outcome and the request is discarded; after any other the request stops the run at the next
boundary. That a command can be in progress between steps is log 7. -/
def Obligations.AbortWaitsForTheCommand : Prop :=
  ∀ s t : State, s.Inv → s.busy = true → s.abortp = true → s.inFlight = true → s.inputs = [] → step s = .next t →
    (t.busy = false → t.abortp = false ∧ t.errcode ≠ .abort) ∧
    (t.busy = true → t.abortp = true ∧ step t = .next (t.faulted .abort))

/-- R313: a START without repair re-executes the faulting command, which faults the same way again. -/
def Obligations.RestartFaultsAgain : Prop :=
  ∀ s t : State, s.Inv → s.busy = true → s.abortp = false → s.inputs = [] → step s = .next t → t.err = true →
    ∃ u, hostWrite 0x004 (if t.ie then 9 else 1) t = u ∧ u.busy = true ∧ u.err = false ∧ u.pc = t.pc ∧ step u = .next t

/-- R310: irq is low while a run is in progress; it follows IE when a run ends by HALT, fault or abort; clearing DONE
and ERR lowers it. -/
def Obligations.IrqMarksTheEndOfARun : Prop :=
  ∀ s t : State, s.Inv →
    (s.busy = true → s.irq = false) ∧
    (s.busy = true → EngineTurn s { s with inputs := s.inputs.tail } → step s = .next t → t.busy = false →
      t.irq = s.ie) ∧
    (hostWrite 0x008 0x6 s).irq = false

/-! ## The host port -/

/-- R280, R282 to R284: a CTRL write, in the order of R284, and a CTRL read. -/
def Obligations.CtrlWritePrecedence : Prop :=
  ∀ (s : State) (w : Word),
    (w.getLsbD 2 = true → hostWrite 0x004 w s = s.softReset) ∧
    (w.getLsbD 2 = false → s.busy = true → hostWrite 0x004 w s =
      { s with ie := w.getLsbD 3, abortp := s.abortp || w.getLsbD 1, herr := s.herr || w.getLsbD 0 }) ∧
    (w.getLsbD 2 = false → s.busy = false → w.getLsbD 0 = true → hostWrite 0x004 w s =
      { s with ie := w.getLsbD 3, done := false, err := false, errcode := .none, abortp := false, busy := true }) ∧
    (w.getLsbD 2 = false → s.busy = false → w.getLsbD 0 = false → hostWrite 0x004 w s = { s with ie := w.getLsbD 3 }) ∧
    hostRead 0x004 s = { s with rdata := if s.ie then 8 else 0 }

/-- R285: a STATUS write clears what it names and changes nothing else, at any time. -/
def Obligations.StatusWriteClears : Prop :=
  ∀ (s : State) (w : Word), hostWrite 0x008 w s = { s with
    done := if w.getLsbD 1 then false else s.done
    err := if w.getLsbD 2 then false else s.err
    errcode := if w.getLsbD 2 then .none else s.errcode
    xerr := if w.getLsbD 11 then false else s.xerr
    herr := if w.getLsbD 12 then false else s.herr }

/-- R47: the bits of STATUS as a read returns them, at any time. -/
def Obligations.StatusBitsAsRead : Prop :=
  ∀ s : State, ∃ w, hostRead 0x008 s = { s with rdata := w } ∧
    w.getLsbD 0 = s.busy ∧ w.getLsbD 1 = s.done ∧ w.getLsbD 2 = s.err ∧ w.getLsbD 3 = s.abortp ∧
    field w 7 4 = s.errcode.toNat ∧ w.getLsbD 8 = s.z ∧ w.getLsbD 9 = s.n ∧ w.getLsbD 10 = s.ni ∧
    w.getLsbD 11 = s.xerr ∧ w.getLsbD 12 = s.herr ∧ field w 31 13 = 0

/-- R290: while BUSY = 1 an access of an offset other than ID, CTRL, STATUS and PARAM does nothing but set HERR; a
read returns an unspecified word (log 9: a free value, one draw). Those four behave as while idle: a read changes nothing
and returns the same word, but for BUSY itself in STATUS; ID and PARAM ignore writes; a STATUS write clears the same
bits; a CTRL write resets the same, and without SRST sets IE the same, with what R284 says of START and ABORT while
busy. -/
def Obligations.BusyAccessIsRefused : Prop :=
  ∀ (s : State) (off : Offset) (w : Word), s.busy = true →
    (off.toNat / 4 ≠ 0 ∧ off.toNat / 4 ≠ 1 ∧ off.toNat / 4 ≠ 2 ∧ off.toNat / 4 ≠ 10 →
      hostWrite off w s = { s with herr := true } ∧
      ∃ v, hostRead off s = { s with herr := true, rdata := v, draws := s.draws + 1 }) ∧
    (off.toNat / 4 = 0 ∨ off.toNat / 4 = 1 ∨ off.toNat / 4 = 2 ∨ off.toNat / 4 = 10 →
      ∃ v, hostRead off s = { s with rdata := v } ∧
        (off.toNat / 4 ≠ 2 → v = (hostRead off { s with busy := false }).rdata) ∧
        (off.toNat / 4 = 2 → v.getLsbD 0 = true ∧
          ∀ k, 1 ≤ k → v.getLsbD k = (hostRead off { s with busy := false }).rdata.getLsbD k)) ∧
    (off.toNat / 4 = 0 ∨ off.toNat / 4 = 10 → hostWrite off w s = s) ∧
    (off.toNat / 4 = 2 → hostWrite off w s = { hostWrite off w { s with busy := false } with busy := true }) ∧
    (off.toNat / 4 = 1 →
      (w.getLsbD 2 = true → hostWrite off w s = hostWrite off w { s with busy := false }) ∧
      (w.getLsbD 2 = false → (hostWrite off w s).ie = (hostWrite off w { s with busy := false }).ie ∧
        hostWrite off w s =
          { s with ie := w.getLsbD 3, abortp := s.abortp || w.getLsbD 1, herr := s.herr || w.getLsbD 0 }))

/-- R88: while BUSY = 1 a host access is a soft reset or leaves every register, flag, pc, BUF and IMEM. -/
def Obligations.HostCannotDisturbARun : Prop :=
  ∀ (s s' t : State) (a : HostAccess), HostTurn s s' a → s.busy = true → step s = .next t →
    t = s'.softReset ∨
    (t.regs = s.regs ∧ t.z = s.z ∧ t.n = s.n ∧ t.ni = s.ni ∧ t.pc = s.pc ∧ t.mem = s.mem ∧ t.epoch = s.epoch ∧
      t.sel = s.sel ∧ t.count = s.count ∧ t.xsign = s.xsign ∧ t.busy = true ∧ t.inFlight = s.inFlight)

/-- R287, R289: IMPORT, an XFER value other than 1 and 2, and a read of XFER. -/
def Obligations.ImportLoadsTheRegister : Prop :=
  ∀ s : State, s.busy = false →
    (s.count.toNat < 1 ∨ s.cfg.lMax < s.count.toNat → hostWrite 0x01C 1 s = { s with xerr := true }) ∧
    (1 ≤ s.count.toNat → s.count.toNat ≤ s.cfg.lMax → ∃ v : Int,
      hostWrite 0x01C 1 s = { s with regs := s.regs.set s.sel v } ∧
      v.natAbs = limbSum s.buf s.count.toNat ∧ (v < 0 ↔ s.xsign = true ∧ v ≠ 0) ∧
      v.natAbs < 2 ^ (32 * s.cfg.lMax)) ∧
    (∀ w : Word, w ≠ 1 → w ≠ 2 → hostWrite 0x01C w s = { s with xerr := true }) ∧
    hostRead 0x01C s = { s with rdata := 0 }

/-- R288: EXPORT. -/
def Obligations.ExportStoresTheLimbs : Prop :=
  ∀ s : State, s.busy = false →
    (s.count.toNat ≠ nlimbs (s.reg s.sel) → hostWrite 0x01C 2 s = { s with xerr := true }) ∧
    (s.count.toNat = nlimbs (s.reg s.sel) → ∃ m : Memory,
      hostWrite 0x01C 2 s = { s with mem := m, xsign := decide (s.reg s.sel < 0) } ∧
      (∀ j < nlimbs (s.reg s.sel), m.readWord s.epoch (bufAddr j) = limb (s.reg s.sel) j) ∧
      ∀ a, a < bufAddr 0 ∨ bufAddr (nlimbs (s.reg s.sel)) ≤ a → m.readByte s.epoch a = s.readByte a)

/-- What EXPORT leaves in BUF, COUNT and XSIGN, IMPORT loads back as the same integer, into any register. -/
def Obligations.ImportUndoesExport : Prop :=
  ∀ (s : State) (k : RegIdx), s.Inv → s.busy = false → s.count.toNat = nlimbs (s.reg s.sel) →
    (hostWrite 0x01C 1 (hostWrite 0x010 (BitVec.ofNat 32 k.val) (hostWrite 0x01C 2 s))).reg k = s.reg s.sel

/-- R292, R286, R44, R83: while idle BUF, IMEM, SEL, COUNT, XSIGN and PC are plain storage: a write changes what it names
and nothing else, a read changes nothing and returns what is stored (to `rdata`, log 8), so a read returns what was
written. -/
def Obligations.HostStorageReadsBack : Prop :=
  ∀ (s : State) (w : Word), s.Inv → s.busy = false →
    (∀ j < s.cfg.lMax, ∃ off : Offset, off.toNat = 0x1000 + 4 * j ∧
      StoresWord s (hostWrite off w s) off.toNat w ∧ hostRead off s = { s with rdata := s.buf j } ∧
      (hostRead off (hostWrite off w s)).rdata = w) ∧
    (∀ i < s.cfg.imemWords, ∃ off : Offset, off.toNat = 0x4000 + 4 * i ∧
      StoresWord s (hostWrite off w s) off.toNat w ∧ hostRead off s = { s with rdata := s.imem i } ∧
      (hostRead off (hostWrite off w s)).rdata = w) ∧
    ((∃ k : RegIdx, k.val = w.toNat % 16 ∧ hostWrite 0x010 w s = { s with sel := k }) ∧
      (∃ v, hostRead 0x010 s = { s with rdata := v } ∧ v.toNat = s.sel.val) ∧
      (hostRead 0x010 (hostWrite 0x010 w s)).rdata.toNat = w.toNat % 16) ∧
    (hostWrite 0x014 w s = { s with count := w } ∧ hostRead 0x014 s = { s with rdata := s.count } ∧
      (hostRead 0x014 (hostWrite 0x014 w s)).rdata = w) ∧
    (hostWrite 0x018 w s = { s with xsign := w.getLsbD 0 } ∧
      (∃ v, hostRead 0x018 s = { s with rdata := v } ∧ v.toNat = if s.xsign then 1 else 0) ∧
      (hostRead 0x018 (hostWrite 0x018 w s)).rdata.toNat = w.toNat % 2) ∧
    (hostWrite 0x00C w s = { s with pc := w.toNat % s.cfg.imemWords } ∧
      (∃ v, hostRead 0x00C s = { s with rdata := v } ∧ v.toNat = s.pc) ∧
      (hostRead 0x00C (hostWrite 0x00C w s)).rdata.toNat = w.toNat % s.cfg.imemWords)

/-- R90: no command writes IMEM; a host write to IMEM while idle is what fetch sees, and the other words stay; while
BUSY = 1 it is ignored. -/
def Obligations.FetchSeesIdleImemWrites : Prop :=
  (∀ (i : Instr) (s t : State), exec i s = .next t → ∀ k, t.imem k = s.imem k) ∧
  ∀ (s : State) (off : Offset) (w : Word) (i : Nat), s.cfg.valid = true → i < s.cfg.imemWords →
    off.toNat = 0x4000 + 4 * i →
    (s.busy = false → (hostWrite off w s).imem i = w ∧
      (∀ k, k ≠ i → (hostWrite off w s).imem k = s.imem k) ∧ ∀ j < s.cfg.lMax, (hostWrite off w s).buf j = s.buf j) ∧
    (s.busy = true → ∀ k, (hostWrite off w s).imem k = s.imem k)

/-- R79: the byte lanes of a word in the window, little-endian; memory holds the same bytes. -/
def Obligations.ByteLanesAreLittleEndian : Prop :=
  ∀ (s : State) (j k : Nat) (w : Word) (off byteOff : Offset), s.cfg.valid = true → s.busy = false → j < s.cfg.lMax →
    k < 4 → off.toNat = 0x1000 + 4 * j → byteOff.toNat = off.toNat + k →
    (hostWrite off w s).windowByte byteOff = w.extractLsb' (8 * k) 8 ∧
    (hostWrite off w s).readByte byteOff.toNat = w.extractLsb' (8 * k) 8

/-- R72, R76: an unmapped offset. While idle a read gives 0 and a write has no effect; while BUSY = 1 the access is
refused as an idle-only one is. -/
def Obligations.UnmappedOffsetsReadZero : Prop :=
  ∀ (s : State) (off : Offset) (w : Word), s.cfg.valid = true →
    (0x2C ≤ off.toNat ∧ off.toNat < 0x1000 ∨
      0x1000 + 4 * s.cfg.lMax ≤ off.toNat ∧ off.toNat < 0x4000 ∨ 0x4000 + 4 * s.cfg.imemWords ≤ off.toNat) →
    (s.busy = false → hostRead off s = { s with rdata := 0 } ∧ hostWrite off w s = s) ∧
    (s.busy = true → hostWrite off w s = { s with herr := true } ∧
      ∃ v draws, hostRead off s = { s with herr := true, rdata := v, draws := draws })

/-- R45, R54, R55, R291, R43: ID and PARAM as read at any time, RLEN and RSIGN as read while idle; writes to them have no
effect. -/
def Obligations.ReadOnlyRegisters : Prop :=
  ∀ (s : State) (w : Word), s.Inv →
    hostRead 0x000 s = { s with rdata := 0x4D504131 } ∧ hostWrite 0x000 w s = s ∧
    (∃ v, hostRead 0x028 s = { s with rdata := v } ∧ field v 15 0 = s.cfg.lMax ∧ field v 19 16 = s.cfg.pcw ∧
      (v.getLsbD 24 = true ↔ s.cfg.modinvMode = .weakMode) ∧ field v 23 20 = 0 ∧ field v 31 25 = 0) ∧
    hostWrite 0x028 w s = s ∧
    (s.busy = false →
      (∃ v, hostRead 0x020 s = { s with rdata := v } ∧ v.toNat = nlimbs (s.reg s.sel)) ∧
      (∃ v, hostRead 0x024 s = { s with rdata := v } ∧ v.toNat = if s.reg s.sel < 0 then 1 else 0) ∧
      hostWrite 0x020 w s = s ∧ hostWrite 0x024 w s = s)

/-- R341, R342, R343: what each reset leaves. -/
def Obligations.ResetsSetEveryElement : Prop :=
  ∀ s t : State, (t = s.powerOn ∨ t = s.softReset) →
    (∀ k, t.reg k = 0) ∧ t.pc = 0 ∧ t.z = false ∧ t.n = false ∧ t.ni = false ∧ t.ie = false ∧ t.busy = false ∧
    t.done = false ∧ t.err = false ∧ t.errcode = .none ∧ t.abortp = false ∧ t.xerr = false ∧ t.herr = false ∧
    t.sel = 0 ∧ t.count = 0 ∧ t.xsign = false ∧ t.inFlight = false ∧ t.cfg = s.cfg ∧ t.irq = false ∧
    (t = s.softReset → sameMemory s t)

/-! ## Representation and procedures -/

/-- R32, R34, R35: Enc(v) has the minimal form and Val of it is v; and every encoding of that form is Enc of its Val:
"Enc and Val are inverse bijections", which R35 derives and on which the model's registers rest (log 3). -/
def Obligations.EncodingIsABijection : Prop :=
  ∀ L : Nat, 1 ≤ L →
    (∀ v : Int, v.natAbs < 2 ^ (32 * L) →
      1 ≤ nlimbs v ∧ nlimbs v ≤ L ∧ (nlimbs v = 1 ∨ limb v (nlimbs v - 1) ≠ 0) ∧ (∀ j, nlimbs v ≤ j → limb v j = 0) ∧
      ((∀ j, limb v j = 0) → signBit v = false) ∧ signed (signBit v) (limbSum (limb v) (nlimbs v)) = v) ∧
    (∀ (negative : Bool) (len : Nat) (word : Nat → Word), 1 ≤ len → len ≤ L → (len = 1 ∨ word (len - 1) ≠ 0) →
      (∀ j, len ≤ j → word j = 0) → ((∀ j, word j = 0) → negative = false) →
      (signed negative (limbSum word len)).natAbs < 2 ^ (32 * L) ∧
      signBit (signed negative (limbSum word len)) = negative ∧ nlimbs (signed negative (limbSum word len)) = len ∧
      ∀ j, limb (signed negative (limbSum word len)) j = word j)

/-- R165: the signed combine, one permitted implementation (log 21), is addition and subtraction, as R165 derives. -/
def Obligations.CombineIsAddAndSubtract : Prop :=
  ∀ a b : Int, combine a b false = a + b ∧ combine a b true = a - b

/-- The long division of R171, one permitted implementation (log 21), with any estimator that is not below the true digit
for a remainder the loop can reach (rem < B·2^32), gives the quotient and remainder of the magnitudes, as R171 derives. -/
def Obligations.LongDivisionIsExact : Prop :=
  ∀ (estimate : Nat → Nat → Nat) (A B : Int), B ≠ 0 →
    (∀ rem, rem < B.natAbs * 2 ^ 32 → rem / B.natAbs ≤ estimate rem B.natAbs) →
    longDivide estimate A B.natAbs (nlimbs A) 0 0 = (A.natAbs / B.natAbs, A.natAbs % B.natAbs)

/-- R174: the compare procedure, one permitted implementation (log 21), "equals the order of rule R172 for every pair of
integers", as R174 derives; its other form is the order on the magnitudes. -/
def Obligations.CompareProcedureIsTheOrder : Prop :=
  ∀ a b : Int,
    (compareProcedure a b true = if a < b then -1 else if a = b then 0 else 1) ∧
    (compareProcedure a b false = if |a| < |b| then -1 else if |a| = |b| then 0 else 1)

/-- R162, R164, R167: the limb procedures of add, subtract and multiply give the exact results, for any limb lists. -/
def Obligations.LimbArithmeticIsExact : Prop :=
  (∀ x y : List Word, limbsValue (addLimbs 0 x y) = limbsValue x + limbsValue y) ∧
  (∀ x y : List Word, y.length ≤ x.length → limbsValue y ≤ limbsValue x →
    limbsValue (subLimbs 0 x y) = limbsValue x - limbsValue y) ∧
  (∀ x y : List Word, limbsValue (schoolbook x y) = limbsValue x * limbsValue y) ∧
  ∀ v : Int, limbsValue (limbs v) = v.natAbs

/-- R203: the shift procedures multiply and divide the magnitude by a power of two, for any limb list. -/
def Obligations.LimbShiftsAreExact : Prop :=
  ∀ (k : Nat) (x : List Word),
    limbsValue (shiftUp k x) = limbsValue x * 2 ^ k ∧ limbsValue (shiftDown k x) = limbsValue x / 2 ^ k

/-- R133: the expansion of each pseudo-instruction, and the effect of the expansion. -/
def Obligations.PseudoInstructionsHaveTheirEffect : Prop :=
  ∀ (s : State) (rd ra rb : RegIdx) (k : Int), s.cfg.valid = true →
    ((Pseudo.clr rd).expand = some (.ldi rd 0) ∧ exec (.ldi rd 0) s = .next (s.written rd 0)) ∧
    ((Pseudo.mod rd ra rb).expand = some (.div rd ra rb rd) ∧
      (s.reg rb ≠ 0 → exec (.div rd ra rb rd) s = .next (s.written rd (trem (s.reg ra) (s.reg rb))))) ∧
    ((Pseudo.modM rd ra rb).expand = some (.divM rd ra rb rd) ∧
      (s.reg rb ≠ 0 →
        exec (.divM rd ra rb rd) s = .next (s.written rd (((s.reg ra).natAbs % (s.reg rb).natAbs : Nat) : Int)))) ∧
    (-32768 ≤ k → k ≤ 32767 →
      (Pseudo.j k).expand = some (.bAL k) ∧ exec (.bAL k) s = .next (s.branched true k)) ∧
    (0 ≤ k → k ≤ 32767 → (Pseudo.shl rd ra k).expand = some (.shfti rd ra k) ∧
      ((s.reg ra).natAbs * 2 ^ k.toNat < 2 ^ (32 * s.cfg.lMax) →
        exec (.shfti rd ra k) s = .next (s.written rd (|s.reg ra| * 2 ^ k.toNat)))) ∧
    (1 ≤ k → k ≤ 32768 → (Pseudo.shr rd ra k).expand = some (.shfti rd ra (-k)) ∧
      exec (.shfti rd ra (-k)) s = .next (s.written rd (|s.reg ra| / 2 ^ k.toNat)))
end

