-- ==== Sys2Proof/Laws/State.lean ====
section
/-! SUPPORT. One lemma for each field of State under each named update, so that no proof unfolds a record update. -/

namespace Sys2Proof.Machine

/-! setReg -/

@[simp] theorem State.setReg_cfg (s : State) (i : RegIdx) (v : Int) : (s.setReg i v).cfg = s.cfg := rfl
@[simp] theorem State.setReg_regs (s : State) (i : RegIdx) (v : Int) : (s.setReg i v).regs = s.regs.set i v := rfl
@[simp] theorem State.setReg_pc (s : State) (i : RegIdx) (v : Int) : (s.setReg i v).pc = s.pc := rfl
@[simp] theorem State.setReg_z (s : State) (i : RegIdx) (v : Int) : (s.setReg i v).z = s.z := rfl
@[simp] theorem State.setReg_n (s : State) (i : RegIdx) (v : Int) : (s.setReg i v).n = s.n := rfl
@[simp] theorem State.setReg_ni (s : State) (i : RegIdx) (v : Int) : (s.setReg i v).ni = s.ni := rfl
@[simp] theorem State.setReg_ie (s : State) (i : RegIdx) (v : Int) : (s.setReg i v).ie = s.ie := rfl
@[simp] theorem State.setReg_busy (s : State) (i : RegIdx) (v : Int) : (s.setReg i v).busy = s.busy := rfl
@[simp] theorem State.setReg_done (s : State) (i : RegIdx) (v : Int) : (s.setReg i v).done = s.done := rfl
@[simp] theorem State.setReg_err (s : State) (i : RegIdx) (v : Int) : (s.setReg i v).err = s.err := rfl
@[simp] theorem State.setReg_errcode (s : State) (i : RegIdx) (v : Int) : (s.setReg i v).errcode = s.errcode := rfl
@[simp] theorem State.setReg_abortp (s : State) (i : RegIdx) (v : Int) : (s.setReg i v).abortp = s.abortp := rfl
@[simp] theorem State.setReg_xerr (s : State) (i : RegIdx) (v : Int) : (s.setReg i v).xerr = s.xerr := rfl
@[simp] theorem State.setReg_herr (s : State) (i : RegIdx) (v : Int) : (s.setReg i v).herr = s.herr := rfl
@[simp] theorem State.setReg_sel (s : State) (i : RegIdx) (v : Int) : (s.setReg i v).sel = s.sel := rfl
@[simp] theorem State.setReg_count (s : State) (i : RegIdx) (v : Int) : (s.setReg i v).count = s.count := rfl
@[simp] theorem State.setReg_xsign (s : State) (i : RegIdx) (v : Int) : (s.setReg i v).xsign = s.xsign := rfl
@[simp] theorem State.setReg_mem (s : State) (i : RegIdx) (v : Int) : (s.setReg i v).mem = s.mem := rfl
@[simp] theorem State.setReg_inFlight (s : State) (i : RegIdx) (v : Int) : (s.setReg i v).inFlight = s.inFlight := rfl
@[simp] theorem State.setReg_epoch (s : State) (i : RegIdx) (v : Int) : (s.setReg i v).epoch = s.epoch := rfl
@[simp] theorem State.setReg_draws (s : State) (i : RegIdx) (v : Int) : (s.setReg i v).draws = s.draws := rfl
@[simp] theorem State.setReg_rdata (s : State) (i : RegIdx) (v : Int) : (s.setReg i v).rdata = s.rdata := rfl
@[simp] theorem State.setReg_inputs (s : State) (i : RegIdx) (v : Int) : (s.setReg i v).inputs = s.inputs := rfl

/-! setZN -/

@[simp] theorem State.setZN_cfg (s : State) (v : Int) : (s.setZN v).cfg = s.cfg := rfl
@[simp] theorem State.setZN_regs (s : State) (v : Int) : (s.setZN v).regs = s.regs := rfl
@[simp] theorem State.setZN_pc (s : State) (v : Int) : (s.setZN v).pc = s.pc := rfl
@[simp] theorem State.setZN_z (s : State) (v : Int) : (s.setZN v).z = decide (v = 0) := rfl
@[simp] theorem State.setZN_n (s : State) (v : Int) : (s.setZN v).n = decide (v < 0) := rfl
@[simp] theorem State.setZN_ni (s : State) (v : Int) : (s.setZN v).ni = s.ni := rfl
@[simp] theorem State.setZN_ie (s : State) (v : Int) : (s.setZN v).ie = s.ie := rfl
@[simp] theorem State.setZN_busy (s : State) (v : Int) : (s.setZN v).busy = s.busy := rfl
@[simp] theorem State.setZN_done (s : State) (v : Int) : (s.setZN v).done = s.done := rfl
@[simp] theorem State.setZN_err (s : State) (v : Int) : (s.setZN v).err = s.err := rfl
@[simp] theorem State.setZN_errcode (s : State) (v : Int) : (s.setZN v).errcode = s.errcode := rfl
@[simp] theorem State.setZN_abortp (s : State) (v : Int) : (s.setZN v).abortp = s.abortp := rfl
@[simp] theorem State.setZN_xerr (s : State) (v : Int) : (s.setZN v).xerr = s.xerr := rfl
@[simp] theorem State.setZN_herr (s : State) (v : Int) : (s.setZN v).herr = s.herr := rfl
@[simp] theorem State.setZN_sel (s : State) (v : Int) : (s.setZN v).sel = s.sel := rfl
@[simp] theorem State.setZN_count (s : State) (v : Int) : (s.setZN v).count = s.count := rfl
@[simp] theorem State.setZN_xsign (s : State) (v : Int) : (s.setZN v).xsign = s.xsign := rfl
@[simp] theorem State.setZN_mem (s : State) (v : Int) : (s.setZN v).mem = s.mem := rfl
@[simp] theorem State.setZN_inFlight (s : State) (v : Int) : (s.setZN v).inFlight = s.inFlight := rfl
@[simp] theorem State.setZN_epoch (s : State) (v : Int) : (s.setZN v).epoch = s.epoch := rfl
@[simp] theorem State.setZN_draws (s : State) (v : Int) : (s.setZN v).draws = s.draws := rfl
@[simp] theorem State.setZN_rdata (s : State) (v : Int) : (s.setZN v).rdata = s.rdata := rfl
@[simp] theorem State.setZN_inputs (s : State) (v : Int) : (s.setZN v).inputs = s.inputs := rfl

/-! setCompare -/

@[simp] theorem State.setCompare_cfg (s : State) (a b : Int) : (s.setCompare a b).cfg = s.cfg := rfl
@[simp] theorem State.setCompare_regs (s : State) (a b : Int) : (s.setCompare a b).regs = s.regs := rfl
@[simp] theorem State.setCompare_pc (s : State) (a b : Int) : (s.setCompare a b).pc = s.pc := rfl
@[simp] theorem State.setCompare_z (s : State) (a b : Int) : (s.setCompare a b).z = decide (a = b) := rfl
@[simp] theorem State.setCompare_n (s : State) (a b : Int) : (s.setCompare a b).n = decide (a < b) := rfl
@[simp] theorem State.setCompare_ni (s : State) (a b : Int) : (s.setCompare a b).ni = s.ni := rfl
@[simp] theorem State.setCompare_ie (s : State) (a b : Int) : (s.setCompare a b).ie = s.ie := rfl
@[simp] theorem State.setCompare_busy (s : State) (a b : Int) : (s.setCompare a b).busy = s.busy := rfl
@[simp] theorem State.setCompare_done (s : State) (a b : Int) : (s.setCompare a b).done = s.done := rfl
@[simp] theorem State.setCompare_err (s : State) (a b : Int) : (s.setCompare a b).err = s.err := rfl
@[simp] theorem State.setCompare_errcode (s : State) (a b : Int) : (s.setCompare a b).errcode = s.errcode := rfl
@[simp] theorem State.setCompare_abortp (s : State) (a b : Int) : (s.setCompare a b).abortp = s.abortp := rfl
@[simp] theorem State.setCompare_xerr (s : State) (a b : Int) : (s.setCompare a b).xerr = s.xerr := rfl
@[simp] theorem State.setCompare_herr (s : State) (a b : Int) : (s.setCompare a b).herr = s.herr := rfl
@[simp] theorem State.setCompare_sel (s : State) (a b : Int) : (s.setCompare a b).sel = s.sel := rfl
@[simp] theorem State.setCompare_count (s : State) (a b : Int) : (s.setCompare a b).count = s.count := rfl
@[simp] theorem State.setCompare_xsign (s : State) (a b : Int) : (s.setCompare a b).xsign = s.xsign := rfl
@[simp] theorem State.setCompare_mem (s : State) (a b : Int) : (s.setCompare a b).mem = s.mem := rfl
@[simp] theorem State.setCompare_inFlight (s : State) (a b : Int) : (s.setCompare a b).inFlight = s.inFlight := rfl
@[simp] theorem State.setCompare_epoch (s : State) (a b : Int) : (s.setCompare a b).epoch = s.epoch := rfl
@[simp] theorem State.setCompare_draws (s : State) (a b : Int) : (s.setCompare a b).draws = s.draws := rfl
@[simp] theorem State.setCompare_rdata (s : State) (a b : Int) : (s.setCompare a b).rdata = s.rdata := rfl
@[simp] theorem State.setCompare_inputs (s : State) (a b : Int) : (s.setCompare a b).inputs = s.inputs := rfl

/-! setNI -/

@[simp] theorem State.setNI_cfg (s : State) (b : Bool) : (s.setNI b).cfg = s.cfg := rfl
@[simp] theorem State.setNI_regs (s : State) (b : Bool) : (s.setNI b).regs = s.regs := rfl
@[simp] theorem State.setNI_pc (s : State) (b : Bool) : (s.setNI b).pc = s.pc := rfl
@[simp] theorem State.setNI_z (s : State) (b : Bool) : (s.setNI b).z = s.z := rfl
@[simp] theorem State.setNI_n (s : State) (b : Bool) : (s.setNI b).n = s.n := rfl
@[simp] theorem State.setNI_ni (s : State) (b : Bool) : (s.setNI b).ni = b := rfl
@[simp] theorem State.setNI_ie (s : State) (b : Bool) : (s.setNI b).ie = s.ie := rfl
@[simp] theorem State.setNI_busy (s : State) (b : Bool) : (s.setNI b).busy = s.busy := rfl
@[simp] theorem State.setNI_done (s : State) (b : Bool) : (s.setNI b).done = s.done := rfl
@[simp] theorem State.setNI_err (s : State) (b : Bool) : (s.setNI b).err = s.err := rfl
@[simp] theorem State.setNI_errcode (s : State) (b : Bool) : (s.setNI b).errcode = s.errcode := rfl
@[simp] theorem State.setNI_abortp (s : State) (b : Bool) : (s.setNI b).abortp = s.abortp := rfl
@[simp] theorem State.setNI_xerr (s : State) (b : Bool) : (s.setNI b).xerr = s.xerr := rfl
@[simp] theorem State.setNI_herr (s : State) (b : Bool) : (s.setNI b).herr = s.herr := rfl
@[simp] theorem State.setNI_sel (s : State) (b : Bool) : (s.setNI b).sel = s.sel := rfl
@[simp] theorem State.setNI_count (s : State) (b : Bool) : (s.setNI b).count = s.count := rfl
@[simp] theorem State.setNI_xsign (s : State) (b : Bool) : (s.setNI b).xsign = s.xsign := rfl
@[simp] theorem State.setNI_mem (s : State) (b : Bool) : (s.setNI b).mem = s.mem := rfl
@[simp] theorem State.setNI_inFlight (s : State) (b : Bool) : (s.setNI b).inFlight = s.inFlight := rfl
@[simp] theorem State.setNI_epoch (s : State) (b : Bool) : (s.setNI b).epoch = s.epoch := rfl
@[simp] theorem State.setNI_draws (s : State) (b : Bool) : (s.setNI b).draws = s.draws := rfl
@[simp] theorem State.setNI_rdata (s : State) (b : Bool) : (s.setNI b).rdata = s.rdata := rfl
@[simp] theorem State.setNI_inputs (s : State) (b : Bool) : (s.setNI b).inputs = s.inputs := rfl

/-! setPc -/

@[simp] theorem State.setPc_cfg (s : State) (t : Int) : (s.setPc t).cfg = s.cfg := rfl
@[simp] theorem State.setPc_regs (s : State) (t : Int) : (s.setPc t).regs = s.regs := rfl
@[simp] theorem State.setPc_pc (s : State) (t : Int) : (s.setPc t).pc = (t % (s.cfg.imemWords : Int)).toNat := rfl
@[simp] theorem State.setPc_z (s : State) (t : Int) : (s.setPc t).z = s.z := rfl
@[simp] theorem State.setPc_n (s : State) (t : Int) : (s.setPc t).n = s.n := rfl
@[simp] theorem State.setPc_ni (s : State) (t : Int) : (s.setPc t).ni = s.ni := rfl
@[simp] theorem State.setPc_ie (s : State) (t : Int) : (s.setPc t).ie = s.ie := rfl
@[simp] theorem State.setPc_busy (s : State) (t : Int) : (s.setPc t).busy = s.busy := rfl
@[simp] theorem State.setPc_done (s : State) (t : Int) : (s.setPc t).done = s.done := rfl
@[simp] theorem State.setPc_err (s : State) (t : Int) : (s.setPc t).err = s.err := rfl
@[simp] theorem State.setPc_errcode (s : State) (t : Int) : (s.setPc t).errcode = s.errcode := rfl
@[simp] theorem State.setPc_abortp (s : State) (t : Int) : (s.setPc t).abortp = s.abortp := rfl
@[simp] theorem State.setPc_xerr (s : State) (t : Int) : (s.setPc t).xerr = s.xerr := rfl
@[simp] theorem State.setPc_herr (s : State) (t : Int) : (s.setPc t).herr = s.herr := rfl
@[simp] theorem State.setPc_sel (s : State) (t : Int) : (s.setPc t).sel = s.sel := rfl
@[simp] theorem State.setPc_count (s : State) (t : Int) : (s.setPc t).count = s.count := rfl
@[simp] theorem State.setPc_xsign (s : State) (t : Int) : (s.setPc t).xsign = s.xsign := rfl
@[simp] theorem State.setPc_mem (s : State) (t : Int) : (s.setPc t).mem = s.mem := rfl
@[simp] theorem State.setPc_inFlight (s : State) (t : Int) : (s.setPc t).inFlight = s.inFlight := rfl
@[simp] theorem State.setPc_epoch (s : State) (t : Int) : (s.setPc t).epoch = s.epoch := rfl
@[simp] theorem State.setPc_draws (s : State) (t : Int) : (s.setPc t).draws = s.draws := rfl
@[simp] theorem State.setPc_rdata (s : State) (t : Int) : (s.setPc t).rdata = s.rdata := rfl
@[simp] theorem State.setPc_inputs (s : State) (t : Int) : (s.setPc t).inputs = s.inputs := rfl

/-! advance -/

@[simp] theorem State.advance_cfg (s : State) : (s.advance).cfg = s.cfg := rfl
@[simp] theorem State.advance_regs (s : State) : (s.advance).regs = s.regs := rfl
@[simp] theorem State.advance_pc (s : State) : (s.advance).pc = (((s.pc : Int) + 1) % (s.cfg.imemWords : Int)).toNat := rfl
@[simp] theorem State.advance_z (s : State) : (s.advance).z = s.z := rfl
@[simp] theorem State.advance_n (s : State) : (s.advance).n = s.n := rfl
@[simp] theorem State.advance_ni (s : State) : (s.advance).ni = s.ni := rfl
@[simp] theorem State.advance_ie (s : State) : (s.advance).ie = s.ie := rfl
@[simp] theorem State.advance_busy (s : State) : (s.advance).busy = s.busy := rfl
@[simp] theorem State.advance_done (s : State) : (s.advance).done = s.done := rfl
@[simp] theorem State.advance_err (s : State) : (s.advance).err = s.err := rfl
@[simp] theorem State.advance_errcode (s : State) : (s.advance).errcode = s.errcode := rfl
@[simp] theorem State.advance_abortp (s : State) : (s.advance).abortp = s.abortp := rfl
@[simp] theorem State.advance_xerr (s : State) : (s.advance).xerr = s.xerr := rfl
@[simp] theorem State.advance_herr (s : State) : (s.advance).herr = s.herr := rfl
@[simp] theorem State.advance_sel (s : State) : (s.advance).sel = s.sel := rfl
@[simp] theorem State.advance_count (s : State) : (s.advance).count = s.count := rfl
@[simp] theorem State.advance_xsign (s : State) : (s.advance).xsign = s.xsign := rfl
@[simp] theorem State.advance_mem (s : State) : (s.advance).mem = s.mem := rfl
@[simp] theorem State.advance_inFlight (s : State) : (s.advance).inFlight = s.inFlight := rfl
@[simp] theorem State.advance_epoch (s : State) : (s.advance).epoch = s.epoch := rfl
@[simp] theorem State.advance_draws (s : State) : (s.advance).draws = s.draws := rfl
@[simp] theorem State.advance_rdata (s : State) : (s.advance).rdata = s.rdata := rfl
@[simp] theorem State.advance_inputs (s : State) : (s.advance).inputs = s.inputs := rfl

/-! faultEntry -/

@[simp] theorem State.faultEntry_cfg (s : State) (e : ErrCode) : (s.faultEntry e).cfg = s.cfg := rfl
@[simp] theorem State.faultEntry_regs (s : State) (e : ErrCode) : (s.faultEntry e).regs = s.regs := rfl
@[simp] theorem State.faultEntry_pc (s : State) (e : ErrCode) : (s.faultEntry e).pc = s.pc := rfl
@[simp] theorem State.faultEntry_z (s : State) (e : ErrCode) : (s.faultEntry e).z = s.z := rfl
@[simp] theorem State.faultEntry_n (s : State) (e : ErrCode) : (s.faultEntry e).n = s.n := rfl
@[simp] theorem State.faultEntry_ni (s : State) (e : ErrCode) : (s.faultEntry e).ni = s.ni := rfl
@[simp] theorem State.faultEntry_ie (s : State) (e : ErrCode) : (s.faultEntry e).ie = s.ie := rfl
@[simp] theorem State.faultEntry_busy (s : State) (e : ErrCode) : (s.faultEntry e).busy = false := rfl
@[simp] theorem State.faultEntry_done (s : State) (e : ErrCode) : (s.faultEntry e).done = s.done := rfl
@[simp] theorem State.faultEntry_err (s : State) (e : ErrCode) : (s.faultEntry e).err = true := rfl
@[simp] theorem State.faultEntry_errcode (s : State) (e : ErrCode) : (s.faultEntry e).errcode = e := rfl
@[simp] theorem State.faultEntry_abortp (s : State) (e : ErrCode) : (s.faultEntry e).abortp = false := rfl
@[simp] theorem State.faultEntry_xerr (s : State) (e : ErrCode) : (s.faultEntry e).xerr = s.xerr := rfl
@[simp] theorem State.faultEntry_herr (s : State) (e : ErrCode) : (s.faultEntry e).herr = s.herr := rfl
@[simp] theorem State.faultEntry_sel (s : State) (e : ErrCode) : (s.faultEntry e).sel = s.sel := rfl
@[simp] theorem State.faultEntry_count (s : State) (e : ErrCode) : (s.faultEntry e).count = s.count := rfl
@[simp] theorem State.faultEntry_xsign (s : State) (e : ErrCode) : (s.faultEntry e).xsign = s.xsign := rfl
@[simp] theorem State.faultEntry_mem (s : State) (e : ErrCode) : (s.faultEntry e).mem = s.mem := rfl
@[simp] theorem State.faultEntry_inFlight (s : State) (e : ErrCode) : (s.faultEntry e).inFlight = s.inFlight := rfl
@[simp] theorem State.faultEntry_epoch (s : State) (e : ErrCode) : (s.faultEntry e).epoch = s.epoch := rfl
@[simp] theorem State.faultEntry_draws (s : State) (e : ErrCode) : (s.faultEntry e).draws = s.draws := rfl
@[simp] theorem State.faultEntry_rdata (s : State) (e : ErrCode) : (s.faultEntry e).rdata = s.rdata := rfl
@[simp] theorem State.faultEntry_inputs (s : State) (e : ErrCode) : (s.faultEntry e).inputs = s.inputs := rfl

/-! endRun -/

@[simp] theorem State.endRun_cfg (s : State) : (s.endRun).cfg = s.cfg := rfl
@[simp] theorem State.endRun_regs (s : State) : (s.endRun).regs = s.regs := rfl
@[simp] theorem State.endRun_pc (s : State) : (s.endRun).pc = s.pc := rfl
@[simp] theorem State.endRun_z (s : State) : (s.endRun).z = s.z := rfl
@[simp] theorem State.endRun_n (s : State) : (s.endRun).n = s.n := rfl
@[simp] theorem State.endRun_ni (s : State) : (s.endRun).ni = s.ni := rfl
@[simp] theorem State.endRun_ie (s : State) : (s.endRun).ie = s.ie := rfl
@[simp] theorem State.endRun_busy (s : State) : (s.endRun).busy = false := rfl
@[simp] theorem State.endRun_done (s : State) : (s.endRun).done = true := rfl
@[simp] theorem State.endRun_err (s : State) : (s.endRun).err = s.err := rfl
@[simp] theorem State.endRun_errcode (s : State) : (s.endRun).errcode = s.errcode := rfl
@[simp] theorem State.endRun_abortp (s : State) : (s.endRun).abortp = false := rfl
@[simp] theorem State.endRun_xerr (s : State) : (s.endRun).xerr = s.xerr := rfl
@[simp] theorem State.endRun_herr (s : State) : (s.endRun).herr = s.herr := rfl
@[simp] theorem State.endRun_sel (s : State) : (s.endRun).sel = s.sel := rfl
@[simp] theorem State.endRun_count (s : State) : (s.endRun).count = s.count := rfl
@[simp] theorem State.endRun_xsign (s : State) : (s.endRun).xsign = s.xsign := rfl
@[simp] theorem State.endRun_mem (s : State) : (s.endRun).mem = s.mem := rfl
@[simp] theorem State.endRun_inFlight (s : State) : (s.endRun).inFlight = s.inFlight := rfl
@[simp] theorem State.endRun_epoch (s : State) : (s.endRun).epoch = s.epoch := rfl
@[simp] theorem State.endRun_draws (s : State) : (s.endRun).draws = s.draws := rfl
@[simp] theorem State.endRun_rdata (s : State) : (s.endRun).rdata = s.rdata := rfl
@[simp] theorem State.endRun_inputs (s : State) : (s.endRun).inputs = s.inputs := rfl

/-! startRun -/

@[simp] theorem State.startRun_cfg (s : State) : (s.startRun).cfg = s.cfg := rfl
@[simp] theorem State.startRun_regs (s : State) : (s.startRun).regs = s.regs := rfl
@[simp] theorem State.startRun_pc (s : State) : (s.startRun).pc = s.pc := rfl
@[simp] theorem State.startRun_z (s : State) : (s.startRun).z = s.z := rfl
@[simp] theorem State.startRun_n (s : State) : (s.startRun).n = s.n := rfl
@[simp] theorem State.startRun_ni (s : State) : (s.startRun).ni = s.ni := rfl
@[simp] theorem State.startRun_ie (s : State) : (s.startRun).ie = s.ie := rfl
@[simp] theorem State.startRun_busy (s : State) : (s.startRun).busy = true := rfl
@[simp] theorem State.startRun_done (s : State) : (s.startRun).done = false := rfl
@[simp] theorem State.startRun_err (s : State) : (s.startRun).err = false := rfl
@[simp] theorem State.startRun_errcode (s : State) : (s.startRun).errcode = .none := rfl
@[simp] theorem State.startRun_abortp (s : State) : (s.startRun).abortp = false := rfl
@[simp] theorem State.startRun_xerr (s : State) : (s.startRun).xerr = s.xerr := rfl
@[simp] theorem State.startRun_herr (s : State) : (s.startRun).herr = s.herr := rfl
@[simp] theorem State.startRun_sel (s : State) : (s.startRun).sel = s.sel := rfl
@[simp] theorem State.startRun_count (s : State) : (s.startRun).count = s.count := rfl
@[simp] theorem State.startRun_xsign (s : State) : (s.startRun).xsign = s.xsign := rfl
@[simp] theorem State.startRun_mem (s : State) : (s.startRun).mem = s.mem := rfl
@[simp] theorem State.startRun_inFlight (s : State) : (s.startRun).inFlight = s.inFlight := rfl
@[simp] theorem State.startRun_epoch (s : State) : (s.startRun).epoch = s.epoch := rfl
@[simp] theorem State.startRun_draws (s : State) : (s.startRun).draws = s.draws := rfl
@[simp] theorem State.startRun_rdata (s : State) : (s.startRun).rdata = s.rdata := rfl
@[simp] theorem State.startRun_inputs (s : State) : (s.startRun).inputs = s.inputs := rfl

/-! setBuf -/

@[simp] theorem State.setBuf_cfg (s : State) (j : Nat) (w : Word) : (s.setBuf j w).cfg = s.cfg := rfl
@[simp] theorem State.setBuf_regs (s : State) (j : Nat) (w : Word) : (s.setBuf j w).regs = s.regs := rfl
@[simp] theorem State.setBuf_pc (s : State) (j : Nat) (w : Word) : (s.setBuf j w).pc = s.pc := rfl
@[simp] theorem State.setBuf_z (s : State) (j : Nat) (w : Word) : (s.setBuf j w).z = s.z := rfl
@[simp] theorem State.setBuf_n (s : State) (j : Nat) (w : Word) : (s.setBuf j w).n = s.n := rfl
@[simp] theorem State.setBuf_ni (s : State) (j : Nat) (w : Word) : (s.setBuf j w).ni = s.ni := rfl
@[simp] theorem State.setBuf_ie (s : State) (j : Nat) (w : Word) : (s.setBuf j w).ie = s.ie := rfl
@[simp] theorem State.setBuf_busy (s : State) (j : Nat) (w : Word) : (s.setBuf j w).busy = s.busy := rfl
@[simp] theorem State.setBuf_done (s : State) (j : Nat) (w : Word) : (s.setBuf j w).done = s.done := rfl
@[simp] theorem State.setBuf_err (s : State) (j : Nat) (w : Word) : (s.setBuf j w).err = s.err := rfl
@[simp] theorem State.setBuf_errcode (s : State) (j : Nat) (w : Word) : (s.setBuf j w).errcode = s.errcode := rfl
@[simp] theorem State.setBuf_abortp (s : State) (j : Nat) (w : Word) : (s.setBuf j w).abortp = s.abortp := rfl
@[simp] theorem State.setBuf_xerr (s : State) (j : Nat) (w : Word) : (s.setBuf j w).xerr = s.xerr := rfl
@[simp] theorem State.setBuf_herr (s : State) (j : Nat) (w : Word) : (s.setBuf j w).herr = s.herr := rfl
@[simp] theorem State.setBuf_sel (s : State) (j : Nat) (w : Word) : (s.setBuf j w).sel = s.sel := rfl
@[simp] theorem State.setBuf_count (s : State) (j : Nat) (w : Word) : (s.setBuf j w).count = s.count := rfl
@[simp] theorem State.setBuf_xsign (s : State) (j : Nat) (w : Word) : (s.setBuf j w).xsign = s.xsign := rfl
@[simp] theorem State.setBuf_mem (s : State) (j : Nat) (w : Word) : (s.setBuf j w).mem = s.mem.writeWord (bufAddr j) w := rfl
@[simp] theorem State.setBuf_inFlight (s : State) (j : Nat) (w : Word) : (s.setBuf j w).inFlight = s.inFlight := rfl
@[simp] theorem State.setBuf_epoch (s : State) (j : Nat) (w : Word) : (s.setBuf j w).epoch = s.epoch := rfl
@[simp] theorem State.setBuf_draws (s : State) (j : Nat) (w : Word) : (s.setBuf j w).draws = s.draws := rfl
@[simp] theorem State.setBuf_rdata (s : State) (j : Nat) (w : Word) : (s.setBuf j w).rdata = s.rdata := rfl
@[simp] theorem State.setBuf_inputs (s : State) (j : Nat) (w : Word) : (s.setBuf j w).inputs = s.inputs := rfl

/-! setImem -/

@[simp] theorem State.setImem_cfg (s : State) (j : Nat) (w : Word) : (s.setImem j w).cfg = s.cfg := rfl
@[simp] theorem State.setImem_regs (s : State) (j : Nat) (w : Word) : (s.setImem j w).regs = s.regs := rfl
@[simp] theorem State.setImem_pc (s : State) (j : Nat) (w : Word) : (s.setImem j w).pc = s.pc := rfl
@[simp] theorem State.setImem_z (s : State) (j : Nat) (w : Word) : (s.setImem j w).z = s.z := rfl
@[simp] theorem State.setImem_n (s : State) (j : Nat) (w : Word) : (s.setImem j w).n = s.n := rfl
@[simp] theorem State.setImem_ni (s : State) (j : Nat) (w : Word) : (s.setImem j w).ni = s.ni := rfl
@[simp] theorem State.setImem_ie (s : State) (j : Nat) (w : Word) : (s.setImem j w).ie = s.ie := rfl
@[simp] theorem State.setImem_busy (s : State) (j : Nat) (w : Word) : (s.setImem j w).busy = s.busy := rfl
@[simp] theorem State.setImem_done (s : State) (j : Nat) (w : Word) : (s.setImem j w).done = s.done := rfl
@[simp] theorem State.setImem_err (s : State) (j : Nat) (w : Word) : (s.setImem j w).err = s.err := rfl
@[simp] theorem State.setImem_errcode (s : State) (j : Nat) (w : Word) : (s.setImem j w).errcode = s.errcode := rfl
@[simp] theorem State.setImem_abortp (s : State) (j : Nat) (w : Word) : (s.setImem j w).abortp = s.abortp := rfl
@[simp] theorem State.setImem_xerr (s : State) (j : Nat) (w : Word) : (s.setImem j w).xerr = s.xerr := rfl
@[simp] theorem State.setImem_herr (s : State) (j : Nat) (w : Word) : (s.setImem j w).herr = s.herr := rfl
@[simp] theorem State.setImem_sel (s : State) (j : Nat) (w : Word) : (s.setImem j w).sel = s.sel := rfl
@[simp] theorem State.setImem_count (s : State) (j : Nat) (w : Word) : (s.setImem j w).count = s.count := rfl
@[simp] theorem State.setImem_xsign (s : State) (j : Nat) (w : Word) : (s.setImem j w).xsign = s.xsign := rfl
@[simp] theorem State.setImem_mem (s : State) (j : Nat) (w : Word) : (s.setImem j w).mem = s.mem.writeWord (imemAddr j) w := rfl
@[simp] theorem State.setImem_inFlight (s : State) (j : Nat) (w : Word) : (s.setImem j w).inFlight = s.inFlight := rfl
@[simp] theorem State.setImem_epoch (s : State) (j : Nat) (w : Word) : (s.setImem j w).epoch = s.epoch := rfl
@[simp] theorem State.setImem_draws (s : State) (j : Nat) (w : Word) : (s.setImem j w).draws = s.draws := rfl
@[simp] theorem State.setImem_rdata (s : State) (j : Nat) (w : Word) : (s.setImem j w).rdata = s.rdata := rfl
@[simp] theorem State.setImem_inputs (s : State) (j : Nat) (w : Word) : (s.setImem j w).inputs = s.inputs := rfl

/-! softReset -/

@[simp] theorem State.softReset_cfg (s : State) : (s.softReset).cfg = s.cfg := rfl
@[simp] theorem State.softReset_regs (s : State) : (s.softReset).regs = Vector.replicate 16 0 := rfl
@[simp] theorem State.softReset_pc (s : State) : (s.softReset).pc = 0 := rfl
@[simp] theorem State.softReset_z (s : State) : (s.softReset).z = false := rfl
@[simp] theorem State.softReset_n (s : State) : (s.softReset).n = false := rfl
@[simp] theorem State.softReset_ni (s : State) : (s.softReset).ni = false := rfl
@[simp] theorem State.softReset_ie (s : State) : (s.softReset).ie = false := rfl
@[simp] theorem State.softReset_busy (s : State) : (s.softReset).busy = false := rfl
@[simp] theorem State.softReset_done (s : State) : (s.softReset).done = false := rfl
@[simp] theorem State.softReset_err (s : State) : (s.softReset).err = false := rfl
@[simp] theorem State.softReset_errcode (s : State) : (s.softReset).errcode = .none := rfl
@[simp] theorem State.softReset_abortp (s : State) : (s.softReset).abortp = false := rfl
@[simp] theorem State.softReset_xerr (s : State) : (s.softReset).xerr = false := rfl
@[simp] theorem State.softReset_herr (s : State) : (s.softReset).herr = false := rfl
@[simp] theorem State.softReset_sel (s : State) : (s.softReset).sel = 0 := rfl
@[simp] theorem State.softReset_count (s : State) : (s.softReset).count = 0 := rfl
@[simp] theorem State.softReset_xsign (s : State) : (s.softReset).xsign = false := rfl
@[simp] theorem State.softReset_mem (s : State) : (s.softReset).mem = s.mem := rfl
@[simp] theorem State.softReset_inFlight (s : State) : (s.softReset).inFlight = false := rfl
@[simp] theorem State.softReset_epoch (s : State) : (s.softReset).epoch = s.epoch := rfl
@[simp] theorem State.softReset_draws (s : State) : (s.softReset).draws = s.draws := rfl
@[simp] theorem State.softReset_rdata (s : State) : (s.softReset).rdata = s.rdata := rfl
@[simp] theorem State.softReset_inputs (s : State) : (s.softReset).inputs = s.inputs := rfl

/-! powerOn -/

@[simp] theorem State.powerOn_cfg (s : State) : (s.powerOn).cfg = s.cfg := rfl
@[simp] theorem State.powerOn_regs (s : State) : (s.powerOn).regs = Vector.replicate 16 0 := rfl
@[simp] theorem State.powerOn_pc (s : State) : (s.powerOn).pc = 0 := rfl
@[simp] theorem State.powerOn_z (s : State) : (s.powerOn).z = false := rfl
@[simp] theorem State.powerOn_n (s : State) : (s.powerOn).n = false := rfl
@[simp] theorem State.powerOn_ni (s : State) : (s.powerOn).ni = false := rfl
@[simp] theorem State.powerOn_ie (s : State) : (s.powerOn).ie = false := rfl
@[simp] theorem State.powerOn_busy (s : State) : (s.powerOn).busy = false := rfl
@[simp] theorem State.powerOn_done (s : State) : (s.powerOn).done = false := rfl
@[simp] theorem State.powerOn_err (s : State) : (s.powerOn).err = false := rfl
@[simp] theorem State.powerOn_errcode (s : State) : (s.powerOn).errcode = .none := rfl
@[simp] theorem State.powerOn_abortp (s : State) : (s.powerOn).abortp = false := rfl
@[simp] theorem State.powerOn_xerr (s : State) : (s.powerOn).xerr = false := rfl
@[simp] theorem State.powerOn_herr (s : State) : (s.powerOn).herr = false := rfl
@[simp] theorem State.powerOn_sel (s : State) : (s.powerOn).sel = 0 := rfl
@[simp] theorem State.powerOn_count (s : State) : (s.powerOn).count = 0 := rfl
@[simp] theorem State.powerOn_xsign (s : State) : (s.powerOn).xsign = false := rfl
@[simp] theorem State.powerOn_mem (s : State) : (s.powerOn).mem = [] := rfl
@[simp] theorem State.powerOn_inFlight (s : State) : (s.powerOn).inFlight = false := rfl
@[simp] theorem State.powerOn_epoch (s : State) : (s.powerOn).epoch = s.epoch + 1 := rfl
@[simp] theorem State.powerOn_draws (s : State) : (s.powerOn).draws = s.draws := rfl
@[simp] theorem State.powerOn_rdata (s : State) : (s.powerOn).rdata = s.rdata := rfl
@[simp] theorem State.powerOn_inputs (s : State) : (s.powerOn).inputs = s.inputs := rfl

end Sys2Proof.Machine
end

