-- ==== Sys2Proof/Laws/Memory.lean ====
section
/-! SUPPORT. Memory laws (spec R72 to R80): a byte or word read after a write, other places left alone, and every memory
operation keeps the canonical form. -/

namespace Sys2Proof.Machine

theorem Memory.lookup_insert (m : Memory) (a b : Nat) (x : Byte) :
    (m.insert a x).lookup b = if b = a then some x else m.lookup b := by
  induction m with
  | nil => rfl
  | cons c rest ih =>
    obtain ⟨d, y⟩ := c
    simp only [Memory.insert]
    split_ifs <;> simp only [Memory.lookup, ih] <;> split_ifs <;> simp_all

/-- The first offset of a memory in canonical form is below all the others, so the tail's bound is what matters. -/
theorem Memory.wf_cons_iff (a : Nat) (x : Byte) (m : Memory) :
    Memory.wf ((a, x) :: m) = true ↔ (∀ c ∈ m.head?, a < c.1) ∧ m.wf = true := by
  cases m with
  | nil => simp [Memory.wf]
  | cons c rest => obtain ⟨b, y⟩ := c; simp [Memory.wf]

theorem Memory.head?_insert (m : Memory) (a : Nat) (x : Byte) (c : Host.Cell) (hc : c ∈ (m.insert a x).head?) :
    c.1 = a ∨ c ∈ m.head? := by
  cases m with
  | nil => simp [Memory.insert] at hc; simp [← hc]
  | cons d rest =>
    obtain ⟨b, y⟩ := d
    simp only [Memory.insert] at hc
    split_ifs at hc <;> simp at hc <;> simp [← hc]

/-- Writing a byte keeps the canonical form. -/
theorem Memory.wf_insert (m : Memory) (a : Nat) (x : Byte) (h : m.wf = true) : (m.insert a x).wf = true := by
  induction m with
  | nil => rfl
  | cons c rest ih =>
    obtain ⟨b, y⟩ := c
    obtain ⟨h1, h2⟩ := (Memory.wf_cons_iff b y rest).1 h
    simp only [Memory.insert]
    split_ifs with hab hab'
    · exact (Memory.wf_cons_iff _ _ _).2 ⟨by simpa using hab, h⟩
    · subst hab'; exact (Memory.wf_cons_iff _ _ _).2 ⟨h1, h2⟩
    · refine (Memory.wf_cons_iff _ _ _).2 ⟨fun c hc => ?_, ih h2⟩
      rcases Memory.head?_insert rest a x c hc with hc | hc
      · omega
      · exact h1 c hc

/-- Writing a word keeps the canonical form. -/
theorem Memory.wf_writeWord (m : Memory) (a : Nat) (w : Word) (h : m.wf = true) : (m.writeWord a w).wf = true :=
  Memory.wf_insert _ _ _ (Memory.wf_insert _ _ _ (Memory.wf_insert _ _ _ (Memory.wf_insert _ _ _ h)))

theorem Memory.mem_insert (m : Memory) (a : Nat) (x : Byte) (c : Host.Cell) (hc : c ∈ m.insert a x) :
    c.1 = a ∨ c ∈ m := by
  induction m with
  | nil => simp [Memory.insert] at hc; simp [hc]
  | cons d rest ih =>
    obtain ⟨b, y⟩ := d
    simp only [Memory.insert] at hc
    split_ifs at hc
    · rcases List.mem_cons.1 hc with rfl | hc
      · exact .inl rfl
      · exact .inr hc
    · rcases List.mem_cons.1 hc with rfl | hc
      · exact .inl rfl
      · exact .inr (List.mem_cons_of_mem _ hc)
    · rcases List.mem_cons.1 hc with rfl | hc
      · exact .inr (by simp)
      · exact (ih hc).imp_right (List.mem_cons_of_mem _)

/-- The listed offsets after a word write: the word's four, and those listed before. -/
theorem Memory.mem_writeWord (m : Memory) (a : Nat) (w : Word) (c : Host.Cell) (hc : c ∈ m.writeWord a w) :
    (a ≤ c.1 ∧ c.1 < a + 4) ∨ c ∈ m := by
  rcases Memory.mem_insert _ _ _ _ hc with h | hc
  · omega
  rcases Memory.mem_insert _ _ _ _ hc with h | hc
  · omega
  rcases Memory.mem_insert _ _ _ _ hc with h | hc
  · omega
  rcases Memory.mem_insert _ _ _ _ hc with h | hc
  · omega
  exact .inr hc

/-- A byte after a word write: one of the word's lanes, or the byte from before (R79). -/
theorem Memory.readByte_writeWord (m : Memory) (e a b : Nat) (w : Word) :
    (m.writeWord a w).readByte e b =
      if a ≤ b ∧ b < a + 4 then wordByte w (b - a) else m.readByte e b := by
  simp only [Memory.readByte, Memory.writeWord, Memory.lookup_insert]
  split_ifs with h3 h2 h1 h0 h h <;> first | omega | rfl | skip
  · rw [show b - a = 3 by omega]; rfl
  · rw [show b - a = 2 by omega]; rfl
  · rw [show b - a = 1 by omega]; rfl
  · rw [show b - a = 0 by omega]; rfl

/-- A word is made of its byte lanes (R79). -/
theorem wordOfBytes_wordByte (w : Word) :
    wordOfBytes (wordByte w 0) (wordByte w 1) (wordByte w 2) (wordByte w 3) = w := by
  unfold wordOfBytes wordByte
  apply BitVec.eq_of_getLsbD_eq
  intro i hi
  simp only [BitVec.getLsbD_append, BitVec.getLsbD_extractLsb']
  by_cases h0 : i < 8
  · simp [h0]
  by_cases h1 : i < 16
  · simp [h0, show i - 8 < 8 by omega, show 8 + (i - 8) = i by omega]
  by_cases h2 : i < 24
  · simp [h0, show ¬ i - 8 < 8 by omega, show i - 8 - 8 < 8 by omega, show 16 + (i - 8 - 8) = i by omega]
  · simp [h0, show ¬ i - 8 < 8 by omega, show ¬ i - 8 - 8 < 8 by omega, show i - 8 - 8 - 8 < 8 by omega,
      show 24 + (i - 8 - 8 - 8) = i by omega]

/-- Reading a word just written gives it back. -/
theorem Memory.readWord_writeWord_self (m : Memory) (e a : Nat) (w : Word) : (m.writeWord a w).readWord e a = w := by
  unfold Memory.readWord
  simp only [Memory.readByte_writeWord]
  simp only [show a ≤ a ∧ a < a + 4 by omega, show a ≤ a + 1 ∧ a + 1 < a + 4 by omega,
    show a ≤ a + 2 ∧ a + 2 < a + 4 by omega, show a ≤ a + 3 ∧ a + 3 < a + 4 by omega, if_true, Nat.sub_self,
    Nat.add_sub_cancel_left, and_self]
  exact wordOfBytes_wordByte w

/-- Writing a word leaves every word that shares no byte with it. -/
theorem Memory.readWord_writeWord_of_disjoint (m : Memory) (e a b : Nat) (w : Word) (h : b + 4 ≤ a ∨ a + 4 ≤ b) :
    (m.writeWord a w).readWord e b = m.readWord e b := by
  unfold Memory.readWord
  simp only [Memory.readByte_writeWord]
  rw [if_neg (by omega), if_neg (by omega), if_neg (by omega), if_neg (by omega)]

@[simp] theorem State.imem_setImem_self (s : State) (i : Nat) (w : Word) : (s.setImem i w).imem i = w :=
  Memory.readWord_writeWord_self _ _ _ _

theorem State.imem_setImem_of_ne (s : State) (i k : Nat) (w : Word) (h : k ≠ i) : (s.setImem i w).imem k = s.imem k :=
  Memory.readWord_writeWord_of_disjoint _ _ _ _ _ (by unfold imemAddr; omega)

@[simp] theorem State.buf_setBuf_self (s : State) (j : Nat) (w : Word) : (s.setBuf j w).buf j = w :=
  Memory.readWord_writeWord_self _ _ _ _

theorem State.buf_setBuf_of_ne (s : State) (j k : Nat) (w : Word) (h : k ≠ j) : (s.setBuf j w).buf k = s.buf k :=
  Memory.readWord_writeWord_of_disjoint _ _ _ _ _ (by unfold bufAddr; omega)

/-- EXPORT's store keeps the canonical form. -/
theorem wf_storeLimbs (v : Int) (k : Nat) (m : Memory) (h : m.wf = true) : (storeLimbs v k m).wf = true := by
  induction k with
  | zero => exact h
  | succ k ih => exact Memory.wf_writeWord _ _ _ ih

/-- The words EXPORT stores: the limbs below `k`, every other word as before (R288). -/
theorem readWord_storeLimbs (v : Int) (k j : Nat) (m : Memory) (e : Nat) :
    (storeLimbs v k m).readWord e (bufAddr j) = if j < k then limb v j else m.readWord e (bufAddr j) := by
  induction k with
  | zero => simp [storeLimbs]
  | succ k ih =>
    rw [storeLimbs]
    by_cases h : j = k
    · subst h; rw [Memory.readWord_writeWord_self, if_pos (by omega)]
    · rw [Memory.readWord_writeWord_of_disjoint _ _ _ _ _ (by unfold bufAddr; omega), ih]
      by_cases h' : j < k
      · rw [if_pos h', if_pos (by omega)]
      · rw [if_neg h', if_neg (by omega)]

/-- The offsets EXPORT lists lie in BUF[0..k−1]. -/
theorem mem_storeLimbs (v : Int) (k : Nat) (m : Memory) (c : Host.Cell) (hc : c ∈ storeLimbs v k m) :
    (∃ j < k, bufAddr j ≤ c.1 ∧ c.1 < bufAddr j + 4) ∨ c ∈ m := by
  induction k with
  | zero => exact .inr hc
  | succ k ih =>
    rcases Memory.mem_writeWord _ _ _ _ hc with h | hc
    · exact .inl ⟨k, by omega, h⟩
    · exact (ih hc).imp_left fun ⟨j, hj, h⟩ => ⟨j, by omega, h⟩

/-- The bytes EXPORT leaves: outside BUF[0..k−1] all as before (R288). -/
theorem readByte_storeLimbs_of_ge (v : Int) (k b : Nat) (m : Memory) (e : Nat) (h : b < bufAddr 0 ∨ bufAddr k ≤ b) :
    (storeLimbs v k m).readByte e b = m.readByte e b := by
  induction k with
  | zero => rfl
  | succ k ih =>
    rw [storeLimbs, Memory.readByte_writeWord, if_neg (by unfold bufAddr at *; omega)]
    exact ih (by unfold bufAddr at *; omega)

end Sys2Proof.Machine
end

