-- ==== Sys2Proof/Laws/Numbers.lean ====
section
/-! SUPPORT. Facts about the integer primitives (spec R13 to R16) and the encoding of integers as limbs (R31 to R35). -/

namespace Sys2Proof.Machine

/-- bitlen is the least k with |v| < 2^k. -/
theorem bitlen_le_iff (v : Int) (k : Nat) : bitlen v ≤ k ↔ v.natAbs < 2 ^ k := by
  unfold bitlen
  split
  · next h => subst h; simp
  · next h =>
    rw [← Nat.log2_lt (by omega)]
    omega

theorem nlimbs_le_iff (v : Int) (L : Nat) (hL : 1 ≤ L) : nlimbs v ≤ L ↔ v.natAbs < 2 ^ (32 * L) := by
  rw [← bitlen_le_iff]
  unfold nlimbs
  omega

/-- The capacity test of R16 is the bound on the magnitude. -/
theorem fits_iff (L : Nat) (hL : 1 ≤ L) (v : Int) : fits L v = true ↔ v.natAbs < 2 ^ (32 * L) := by
  simp only [fits, decide_eq_true_eq, nlimbs_le_iff v L hL]

theorem nlimbs_pos (v : Int) : 1 ≤ nlimbs v := by unfold nlimbs; omega

theorem natAbs_lt_nlimbs (v : Int) : v.natAbs < 2 ^ (32 * nlimbs v) :=
  (nlimbs_le_iff v (nlimbs v) (nlimbs_pos v)).1 le_rfl

theorem limb_toNat (v : Int) (j : Nat) : (limb v j).toNat = v.natAbs / 2 ^ (32 * j) % 2 ^ 32 := by
  simp [limb]

/-- The limbs below `k` hold the magnitude modulo 2^(32k). -/
theorem limbSum_limb (v : Int) (k : Nat) : limbSum (limb v) k = v.natAbs % 2 ^ (32 * k) := by
  induction k with
  | zero => simp [limbSum, Nat.mod_one]
  | succ k ih =>
    rw [limbSum, ih, limb_toNat, show 32 * (k + 1) = 32 * k + 32 by ring, pow_add, Nat.mod_mul, mul_comm (2 ^ (32 * k))]

theorem limbSum_lt (f : Nat → Word) (k : Nat) : limbSum f k < 2 ^ (32 * k) := by
  induction k with
  | zero => simp [limbSum]
  | succ k ih =>
    have := (f k).isLt
    rw [limbSum, show 32 * (k + 1) = 32 * k + 32 by ring, pow_add]
    nlinarith

theorem limbSum_congr (f g : Nat → Word) (k : Nat) (h : ∀ j < k, f j = g j) : limbSum f k = limbSum g k := by
  induction k with
  | zero => rfl
  | succ k ih => rw [limbSum, limbSum, ih fun j hj => h j (by omega), h k (by omega)]

theorem signed_signBit (v : Int) : signed (signBit v) v.natAbs = v := by
  unfold signed signBit
  split
  · next h => simp only [decide_eq_true_eq] at h; omega
  · next h => simp only [decide_eq_true_eq] at h; omega

theorem natAbs_signed (b : Bool) (m : Nat) : (signed b m).natAbs = m := by
  unfold signed
  split <;> simp

/-- Val(Enc(v)) = v (R34, R35). -/
theorem decode_limbs (v : Int) : signed (signBit v) (limbSum (limb v) (nlimbs v)) = v := by
  rw [limbSum_limb, Nat.mod_eq_of_lt (natAbs_lt_nlimbs v), signed_signBit]

theorem natAbs_sgn (v : Int) : (sgn v).natAbs = 1 := by unfold sgn; split <;> rfl

theorem sgn_mul_natAbs (v : Int) : sgn v * (v.natAbs : Int) = v := by
  unfold sgn; split <;> omega

theorem natAbs_trem (x y : Int) : (trem x y).natAbs = x.natAbs % y.natAbs := by
  rw [trem, Int.natAbs_mul, natAbs_sgn, one_mul, Int.natAbs_natCast]

theorem natAbs_tquo (x y : Int) : (tquo x y).natAbs = x.natAbs / y.natAbs := by
  rw [tquo, Int.natAbs_mul, Int.natAbs_mul, natAbs_sgn, natAbs_sgn, one_mul, one_mul, Int.natAbs_natCast]

/-- The truncated quotient and remainder of R14 are Lean's. -/
theorem trem_eq_tmod (x y : Int) : trem x y = Int.tmod x y := by
  have key : ∀ n : Nat, ((n % y.natAbs : Nat) : Int) = Int.tmod n y := by
    intro n
    obtain ⟨m, rfl | rfl⟩ := y.eq_nat_or_neg
    · rfl
    · rw [Int.tmod_neg, Int.natAbs_neg]; rfl
  unfold trem sgn
  split
  · next h =>
    obtain ⟨n, rfl⟩ : ∃ n : Nat, x = -(n : Int) := ⟨x.natAbs, by omega⟩
    rw [Int.neg_tmod, Int.natAbs_neg, Int.natAbs_natCast, neg_one_mul, key]
  · next h =>
    obtain ⟨n, rfl⟩ : ∃ n : Nat, x = (n : Int) := ⟨x.natAbs, by omega⟩
    rw [Int.natAbs_natCast, one_mul, key]

theorem tquo_mul_add_trem (x y : Int) : y * tquo x y + trem x y = x := by
  have hy := sgn_mul_natAbs y
  have hs : sgn y * sgn y = 1 := by unfold sgn; split <;> rfl
  have hx := sgn_mul_natAbs x
  have hd : (y.natAbs : Int) * ((x.natAbs / y.natAbs : Nat) : Int) + ((x.natAbs % y.natAbs : Nat) : Int) = x.natAbs := by
    exact_mod_cast Nat.div_add_mod x.natAbs y.natAbs
  calc y * tquo x y + trem x y
      = (sgn y * sgn y) * (sgn x * ((y.natAbs : Int) * ((x.natAbs / y.natAbs : Nat) : Int)))
          + sgn x * ((x.natAbs % y.natAbs : Nat) : Int) := by
        rw [tquo, trem]; nth_rewrite 1 [← hy]; ring
    _ = sgn x * (x.natAbs : Int) := by rw [hs, one_mul, ← mul_add, hd]
    _ = x := hx

end Sys2Proof.Machine
end

