-- ==== Sys2Proof/Laws/NumberTheory.lean ====
section
/-! SUPPORT. The loops of spec 43_number_theory.md end by their own test within the bound the meanings pass (R230), and
what they compute (R231, R237, R242). -/

namespace Sys2Proof.Machine

/-- The Euclid loop ends within y steps and gives the greatest common divisor (R231). -/
theorem gcdLoop_eq_gcd (k x y : Nat) (h : y ≤ k) : gcdLoop k x y = Nat.gcd x y := by
  induction k generalizing x y with
  | zero => obtain rfl : y = 0 := by omega
            simp [gcdLoop]
  | succ k ih =>
    rw [gcdLoop]
    split
    · next h0 => subst h0; simp
    · next h0 =>
      have := Nat.mod_lt x (Nat.pos_of_ne_zero h0)
      rw [ih y (x % y) (by omega), Nat.gcd_comm y, ← Nat.gcd_rec, Nat.gcd_comm]

theorem trem_mul_trem (p q n : Int) : trem (trem p n * q) n = trem (p * q) n := by
  simp only [trem_eq_tmod]
  rw [Int.mul_tmod, Int.tmod_tmod, ← Int.mul_tmod]

theorem trem_trem (p n : Int) : trem (trem p n) n = trem p n := by
  simp only [trem_eq_tmod, Int.tmod_tmod]

/-- A reduced base gives the same power modulo n. -/
theorem trem_mul_pow_trem (x m n : Int) (k : Nat) : trem (x * trem m n ^ k) n = trem (x * m ^ k) n := by
  induction k generalizing x with
  | zero => simp
  | succ k ih =>
    calc trem (x * trem m n ^ (k + 1)) n
        = trem ((x * trem m n) * trem m n ^ k) n := by ring_nf
      _ = trem ((x * trem m n) * m ^ k) n := ih _
      _ = trem (trem m n * (x * m ^ k)) n := by ring_nf
      _ = trem (m * (x * m ^ k)) n := trem_mul_trem _ _ _
      _ = trem (x * m ^ (k + 1)) n := by ring_nf

/-- The square-and-multiply loop keeps x·m^e modulo n (R237). -/
theorem modexpLoop_eq (k e : Nat) (x m n : Int) (hk : e ≤ k) (hx : trem x n = x) :
    modexpLoop k x m e n = trem (x * m ^ e) n := by
  induction k generalizing e x m with
  | zero => obtain rfl : e = 0 := by omega
            simp [modexpLoop, hx]
  | succ k ih =>
    rw [modexpLoop]
    split_ifs with h0 h2
    · subst h0; simp [hx]
    · rw [ih (e / 2) x _ (by omega) hx, trem_mul_pow_trem, ← pow_two, ← pow_mul, Nat.mul_div_cancel' (by omega)]
    · rw [ih (e - 1) _ m (by omega) (trem_trem _ _), trem_mul_trem, mul_assoc, ← pow_succ', Nat.sub_add_cancel (by omega)]

theorem trem_eq_zero_iff (a n : Int) : trem a n = 0 ↔ n ∣ a := by
  rw [trem_eq_tmod, Int.dvd_iff_tmod_eq_zero]

/-- The closed form of R237. -/
theorem modexpValue_eq (a : Int) (e : Nat) (n : Int) (hn : 0 < n) :
    modexpValue a e n = if n ∣ a then 0 else trem (a ^ e) n := by
  unfold modexpValue
  by_cases h : n ∣ a
  · rw [if_pos ((trem_eq_zero_iff a n).2 h), if_pos h]
  · rw [if_neg (mt (trem_eq_zero_iff a n).1 h), if_neg h, modexpLoop_eq e e 1 a n le_rfl, one_mul]
    have : n ≠ 1 := fun h1 => h (h1 ▸ one_dvd a)
    rw [trem_eq_tmod, Int.tmod_eq_of_lt] <;> omega

theorem natAbs_trem_lt (x n : Int) (hn : n ≠ 0) : (trem x n).natAbs < n.natAbs := by
  rw [natAbs_trem]; exact Nat.mod_lt _ (Int.natAbs_pos.2 hn)

theorem natAbs_modexpValue_lt (a : Int) (e : Nat) (n : Int) (hn : 0 < n) : (modexpValue a e n).natAbs < n.natAbs := by
  rw [modexpValue_eq a e n hn]
  split
  · simp; omega
  · exact natAbs_trem_lt _ _ (by omega)

/-- The extended Euclid loop ends within r1 steps, with the greatest common divisor and a coefficient of the value
(R242). -/
theorem euclidLoop_spec (a b : Int) (k : Nat) (r0 r1 u0 u1 : Int) (h0 : 0 ≤ r0) (h1 : 0 ≤ r1) (hk : r1.natAbs ≤ k)
    (c0 : b ∣ u0 * a - r0) (c1 : b ∣ u1 * a - r1) :
    (euclidLoop k r0 r1 u0 u1).1 = Int.gcd r0 r1 ∧
      b ∣ (euclidLoop k r0 r1 u0 u1).2 * a - (euclidLoop k r0 r1 u0 u1).1 := by
  induction k generalizing r0 r1 u0 u1 with
  | zero =>
    obtain rfl : r1 = 0 := by omega
    exact ⟨by simp [euclidLoop, abs_of_nonneg h0], c0⟩
  | succ k ih =>
    rw [euclidLoop]
    split_ifs with hz
    · subst hz; exact ⟨by simp [abs_of_nonneg h0], c0⟩
    · have hr : r0 - tquo r0 r1 * r1 = r0 % r1 := by
        have := tquo_mul_add_trem r0 r1
        rw [trem_eq_tmod, Int.tmod_eq_emod_of_nonneg h0] at this
        linarith
      have hlt := Int.emod_lt_of_pos r0 (show 0 < r1 by omega)
      have hnn := Int.emod_nonneg r0 hz
      have hdvd : b ∣ (u0 - tquo r0 r1 * u1) * a - (r0 - tquo r0 r1 * r1) := by
        have := dvd_sub c0 (Dvd.dvd.mul_left c1 (tquo r0 r1))
        rwa [show (u0 - tquo r0 r1 * u1) * a - (r0 - tquo r0 r1 * r1)
          = u0 * a - r0 - tquo r0 r1 * (u1 * a - r1) by ring]
      obtain ⟨hg, hc⟩ := ih r1 (r0 - tquo r0 r1 * r1) u1 (u0 - tquo r0 r1 * u1) h1 (by omega) (by omega) c1 hdvd
      refine ⟨?_, hc⟩
      rw [hg, hr]
      rw [Int.gcd_comm, Int.gcd_emod]

/-- g and u0 of R241: g is the greatest common divisor and u0·a ≡ g modulo b (R242). -/
theorem bezout_spec (a b : Int) (ha : 0 ≤ a) (hb : 0 < b) :
    (bezout a b).1 = Int.gcd a b ∧ b ∣ (bezout a b).2 * a - (bezout a b).1 :=
  euclidLoop_spec a b _ a b 1 0 ha (by omega) le_rfl (by simp) (by simp)

/-- The adding loop ends within |d| steps, in [0, b) for a start above −b·(bound+1) (R241). -/
theorem addModulus_eq (k : Nat) (d b : Int) (hb : 0 < b) (hd : d < b) (hk : -d ≤ k) : addModulus k d b = d % b := by
  induction k generalizing d with
  | zero => rw [addModulus, Int.emod_eq_of_lt] <;> omega
  | succ k ih =>
    rw [addModulus]
    split
    · rw [ih (d + b) (by omega) (by omega), Int.add_emod_right]
    · rw [Int.emod_eq_of_lt] <;> omega

/-- d of R241 is fmod(u0, b) (R242). -/
theorem normalizeCoefficient_eq (u b : Int) (hb : 0 < b) : normalizeCoefficient u b = fmod u b := by
  unfold normalizeCoefficient fmod
  split
  · exact addModulus_eq _ _ _ hb (by omega) (by omega)
  · rw [trem_eq_tmod, Int.tmod_eq_emod_of_nonneg (by omega)]

end Sys2Proof.Machine
end

