-- ==== Sys2Proof/Laws/Ops.lean ====
section
/-! SUPPORT. What each shared operation does, once: the program counter, the registers, the commits, the fault entry, and
every meaning as "completes thus" or "faults thus". -/

namespace Sys2Proof.Machine

/-- A register after a register write (R36): the written value there, every other register as before. -/
theorem State.reg_setReg (s : State) (i k : RegIdx) (v : Int) :
    (s.setReg i v).reg k = if k = i then v else s.reg k := by
  unfold State.reg State.setReg
  by_cases h : k = i
  · subst h; simp
  · have : i.val ≠ k.val := fun hv => h (Fin.ext hv.symm)
    simp [h, this]

theorem imemWords_pos (c : Config) : 0 < c.imemWords := by unfold Config.imemWords; positivity

theorem State.advance_eq (s : State) : s.advance = { s with pc := s.nextPc } := by
  have h : (((s.pc : Int) + 1) % (s.cfg.imemWords : Int)).toNat = s.nextPc := by
    unfold State.nextPc; norm_cast
  unfold State.advance State.setPc; rw [h]

/-- Every write of pc is below IMEM_WORDS (R37). -/
theorem State.setPc_lt (s : State) (t : Int) : (s.setPc t).pc < s.cfg.imemWords := by
  have := imemWords_pos s.cfg
  have h := Int.emod_lt_of_pos t (show (0 : Int) < s.cfg.imemWords by exact_mod_cast this)
  have h' := Int.emod_nonneg t (show (s.cfg.imemWords : Int) ≠ 0 by exact_mod_cast this.ne')
  show (t % (s.cfg.imemWords : Int)).toNat < s.cfg.imemWords
  omega

theorem raise_eq (code : ErrCode) (s : State) : raise code s = .next (s.faulted code) := rfl

/-- A result that is written: rd, Z, N and pc, and nothing else (R17, R40, R265). -/
theorem commit_eq (rd : RegIdx) (v : Int) (s : State) : commit rd v s = .next (s.written rd v) := by
  unfold commit; rw [State.advance_eq]; rfl

theorem commitDivision_eq (rd rc : RegIdx) (q r : Int) (s : State) :
    commitDivision rd rc q r s = .next (s.divided rd rc q r) := by
  unfold commitDivision; rw [State.advance_eq]; rfl

/-- The capacity check (R175): the result is written if it fits, else FAULT(OVERFLOW). -/
theorem commitFitting_eq (rd : RegIdx) (v : Int) (s : State) :
    commitFitting rd v s = .next (if fits s.cfg.lMax v then s.written rd v else s.faulted .overflow) := by
  unfold commitFitting
  split <;> simp only [commit_eq, raise_eq]

theorem shiftInto_eq (rd : RegIdx) (a k : Int) (s : State) :
    shiftInto rd a k s =
      .next (if shiftOverflows s.cfg.lMax a k then s.faulted .overflow else s.written rd (shiftMagnitude a k)) := by
  unfold shiftInto
  split <;> simp only [commit_eq, raise_eq]

theorem Config.valid_iff (c : Config) :
    c.valid = true ↔ 1 ≤ c.lMax ∧ c.lMax ≤ 1024 ∧ 1 ≤ c.pcw ∧ c.pcw ≤ 12 := by
  simp [Config.valid, and_assoc]

/-- The shift of R200 in the spec's own form. -/
theorem shiftMagnitude_eq (a k : Int) :
    shiftMagnitude a k = if 0 ≤ k then a.natAbs * 2 ^ k.toNat else a.natAbs / 2 ^ (-k).toNat := by
  unfold shiftMagnitude
  split_ifs with hk ha hb
  · subst ha; simp
  · rfl
  · exact (Nat.div_eq_of_lt ((bitlen_le_iff _ _).1 hb)).symm
  · rfl

/-- The OVERFLOW condition of R201 is that the shifted magnitude needs more than L_MAX limbs. -/
theorem shiftOverflows_iff (L : Nat) (a k : Int) :
    shiftOverflows L a k = true ↔ ¬ shiftMagnitude a k < 2 ^ (32 * L) ∧ 0 ≤ k := by
  rw [shiftMagnitude_eq]
  simp only [shiftOverflows, Bool.and_eq_true, decide_eq_true_eq]
  by_cases hk : 0 ≤ k
  · obtain ⟨n, rfl⟩ := Int.eq_ofNat_of_zero_le hk
    simp only [hk, if_true, true_and, and_true, Int.toNat_natCast]
    have h := bitlen_le_iff (a * 2 ^ n) (32 * L)
    have hm : (a * 2 ^ n).natAbs = a.natAbs * 2 ^ n := by simp [Int.natAbs_mul, Int.natAbs_pow]
    rw [hm] at h
    rw [← h]
    by_cases ha : a = 0
    · subst ha; simp [bitlen]
    · have hpos : a.natAbs ≠ 0 := by omega
      have hb : bitlen (a * 2 ^ n) = bitlen a + n := by
        have h1 : bitlen a ≤ bitlen a := le_rfl
        apply le_antisymm
        · rw [bitlen_le_iff, hm, pow_add]
          exact Nat.mul_lt_mul_of_pos_right ((bitlen_le_iff _ _).1 h1) (by positivity)
        · by_contra hlt
          have h2 : bitlen (a * 2 ^ n) ≤ (bitlen a - 1) + n := by
            have : 1 ≤ bitlen a := by unfold bitlen; simp [ha]
            omega
          rw [bitlen_le_iff, hm, pow_add] at h2
          have h3 := Nat.lt_of_mul_lt_mul_right h2
          have h4 := (bitlen_le_iff a (bitlen a - 1)).2 h3
          have : 1 ≤ bitlen a := by unfold bitlen; simp [ha]
          omega
      rw [hb]; omega
  · simp [hk]

end Sys2Proof.Machine
end

