-- ==== Sys2Proof/Laws/Exec.lean ====
section
/-! SUPPORT. What a command can do, said once for all commands: it faults with a code it may raise and changes nothing
else (spec R304, R305), or it completes within its frame (R36, R40, R265). -/

namespace Sys2Proof.Machine

/-- What completing leaves alone, for any command. -/
structure Completed (i : Instr) (s t : State) : Prop where
  host : SameHostSide s t
  mem : t.mem = s.mem
  regs : ∀ k ∉ destinations i, t.reg k = s.reg k
  zn : writesZN i = false → t.z = s.z ∧ t.n = s.n
  ni : writesNI i = false → t.ni = s.ni
  draws : writesNI i = false → t.draws = s.draws
  run : i ≠ .halt → SameRunControl s t
  halt : i = .halt → t.busy = false ∧ t.done = true ∧ t.abortp = false ∧ t.err = s.err ∧ t.errcode = s.errcode ∧
    t.inFlight = s.inFlight
  pc : isBranch i = false → t.pc = s.nextPc
  pc_lt : t.pc < s.cfg.imemWords

theorem nextPc_lt (s : State) : s.nextPc < s.cfg.imemWords := Nat.mod_lt _ (imemWords_pos _)

theorem State.reg_written (s : State) (rd k : RegIdx) (v : Int) :
    (s.written rd v).reg k = if k = rd then v else s.reg k := State.reg_setReg s rd k v

theorem State.reg_divided (s : State) (rd rc k : RegIdx) (q r : Int) :
    (s.divided rd rc q r).reg k = if k = rc then r else if k = rd then q else s.reg k := by
  refine (State.reg_setReg (s.setReg rd q) rc k r).trans ?_
  rw [State.reg_setReg s rd k q]

/-- The frame of a command that writes one register and Z and N from it. -/
theorem completed_written (i : Instr) (s : State) (rd : RegIdx) (v : Int) (hd : destinations i = [rd])
    (hz : writesZN i = true) (hh : i ≠ .halt) : Completed i s (s.written rd v) where
  host := ⟨rfl, rfl, rfl, rfl, rfl, rfl, rfl, rfl, rfl, rfl⟩
  mem := rfl
  regs k hk := by rw [State.reg_written, if_neg (by simpa [hd] using hk)]
  zn h := by simp [hz] at h
  ni _ := rfl
  draws _ := rfl
  run _ := ⟨rfl, rfl, rfl, rfl, rfl, rfl⟩
  halt h := absurd h hh
  pc _ := rfl
  pc_lt := nextPc_lt s

theorem completed_divided (i : Instr) (s : State) (rd rc : RegIdx) (q r : Int) (hd : destinations i = [rd, rc])
    (hz : writesZN i = true) (hh : i ≠ .halt) : Completed i s (s.divided rd rc q r) where
  host := ⟨rfl, rfl, rfl, rfl, rfl, rfl, rfl, rfl, rfl, rfl⟩
  mem := rfl
  regs k hk := by
    simp only [hd, List.mem_cons, List.not_mem_nil, or_false, not_or] at hk
    rw [State.reg_divided, if_neg hk.2, if_neg hk.1]
  zn h := by simp [hz] at h
  ni _ := rfl
  draws _ := rfl
  run _ := ⟨rfl, rfl, rfl, rfl, rfl, rfl⟩
  halt h := absurd h hh
  pc _ := rfl
  pc_lt := nextPc_lt s

theorem completed_compare (i : Instr) (s : State) (a b : Int) (hz : writesZN i = true)
    (hh : i ≠ .halt) : Completed i s (s.setCompare a b).advance := by
  rw [State.advance_eq]
  exact ⟨⟨rfl, rfl, rfl, rfl, rfl, rfl, rfl, rfl, rfl, rfl⟩, rfl, fun _ _ => rfl, fun h => by simp [hz] at h,
    fun _ => rfl, fun _ => rfl, fun _ => ⟨rfl, rfl, rfl, rfl, rfl, rfl⟩, fun h => absurd h hh, fun _ => rfl, nextPc_lt s⟩

theorem completed_branch (i : Instr) (s : State) (c : Cond) (off : Int) (hb : isBranch i = true) (hh : i ≠ .halt) :
    Completed i s (s.branch c off) := by
  unfold State.branch
  split
  · exact ⟨⟨rfl, rfl, rfl, rfl, rfl, rfl, rfl, rfl, rfl, rfl⟩, rfl, fun _ _ => rfl, fun _ => ⟨rfl, rfl⟩, fun _ => rfl,
      fun _ => rfl, fun _ => ⟨rfl, rfl, rfl, rfl, rfl, rfl⟩, fun h => absurd h hh, fun h => by simp [hb] at h,
      State.setPc_lt _ _⟩
  · exact ⟨⟨rfl, rfl, rfl, rfl, rfl, rfl, rfl, rfl, rfl, rfl⟩, rfl, fun _ _ => rfl, fun _ => ⟨rfl, rfl⟩, fun _ => rfl,
      fun _ => rfl, fun _ => ⟨rfl, rfl, rfl, rfl, rfl, rfl⟩, fun h => absurd h hh, fun h => by simp [hb] at h,
      State.setPc_lt _ _⟩

/-- An engine step from a state whose next move is the engine's is the engine's step from what is left. -/
theorem step_of_engineTurn (s s' : State) (h : EngineTurn s s') : step s = engineStep s' := by
  rcases h with ⟨h, rfl⟩ | ⟨rest, h, rfl⟩ <;> simp only [step, h, eventStep]

/-- A step from a state whose next move is an event is the event's step from what is left. -/
theorem step_of_eventTurn (s s' : State) (e : Event) (h : EventTurn s s' e) : step s = eventStep e s' := by
  obtain ⟨rest, h, rfl⟩ := h
  rw [step, h]

/-- A word that the decoder rejects raises FAULT(ILLEGAL) (R120). -/
theorem raisesIllegal_of_decode (w : Word) (e : Reject) (h : decode w = .error e) : RaisesIllegal w := by
  refine ⟨⟨e, h⟩, fun s s' ht hb ha hw => ⟨false, ?_⟩⟩
  have hf : s'.busy = s.busy ∧ s'.abortp = s.abortp ∧ s'.inFlight = s.inFlight ∧ s'.fetch = s.imem s.pc := by
    rcases ht with ⟨_, rfl⟩ | ⟨rest, _, rfl⟩ <;> exact ⟨rfl, rfl, rfl, rfl⟩
  rw [step_of_engineTurn s s' ht, engineStep, runCommand, hf.1, hf.2.1, hf.2.2.1, hf.2.2.2, hw, h, hb]
  rcases ha with ha | ha <;> rw [ha] <;> simp [raise_eq, State.faulted]

/-- The state MODINV commits from: NI and, in WEAK mode, the draw counter. -/
theorem execModinv_completed (rd ra rb : RegIdx) (s : State) (v : Int) (b : Bool) :
    Completed (.modinv rd ra rb) s ((s.drawInverse.setNI b).written rd v) := by
  unfold State.drawInverse
  split
  · exact ⟨⟨rfl, rfl, rfl, rfl, rfl, rfl, rfl, rfl, rfl, rfl⟩, rfl,
      fun k hk => by rw [State.reg_written, if_neg (by simpa [destinations] using hk)]; rfl,
      fun h => by simp [writesZN, isBranch] at h, fun h => by simp [writesNI] at h, fun h => by simp [writesNI] at h,
      fun _ => ⟨rfl, rfl, rfl, rfl, rfl, rfl⟩, fun h => by simp at h, fun _ => rfl, nextPc_lt s⟩
  · exact ⟨⟨rfl, rfl, rfl, rfl, rfl, rfl, rfl, rfl, rfl, rfl⟩, rfl,
      fun k hk => by rw [State.reg_written, if_neg (by simpa [destinations] using hk)]; rfl,
      fun h => by simp [writesZN, isBranch] at h, fun h => by simp [writesNI] at h, fun h => by simp [writesNI] at h,
      fun _ => ⟨rfl, rfl, rfl, rfl, rfl, rfl⟩, fun h => by simp at h, fun _ => rfl, nextPc_lt s⟩

/-- Every command faults with a code it may raise, or completes within its frame. -/
theorem exec_cases (i : Instr) (s : State) :
    (∃ code, mayRaise i code = true ∧ exec i s = .next (s.faulted code)) ∨
      ∃ t, exec i s = .next t ∧ Completed i s t := by
  have fitting : ∀ (rd : RegIdx) (v : Int), exec i s = commitFitting rd v s → destinations i = [rd] →
      writesZN i = true → i ≠ .halt → mayRaise i .overflow = true →
      (∃ code, mayRaise i code = true ∧ exec i s = .next (s.faulted code)) ∨
        ∃ t, exec i s = .next t ∧ Completed i s t := by
    intro rd v he hd hz hh hr
    rw [he, commitFitting_eq]
    split
    · exact .inr ⟨_, rfl, completed_written i s rd v hd hz hh⟩
    · exact .inl ⟨_, hr, rfl⟩
  have always : ∀ (rd : RegIdx) (v : Int), exec i s = commit rd v s → destinations i = [rd] →
      writesZN i = true → i ≠ .halt → ∃ t, exec i s = .next t ∧ Completed i s t := by
    intro rd v he hd hz hh
    exact ⟨_, he.trans (commit_eq _ _ _), completed_written i s rd v hd hz hh⟩
  have shifting : ∀ (rd : RegIdx) (a k : Int), exec i s = shiftInto rd a k s → destinations i = [rd] →
      writesZN i = true → i ≠ .halt → mayRaise i .overflow = true →
      (∃ code, mayRaise i code = true ∧ exec i s = .next (s.faulted code)) ∨
        ∃ t, exec i s = .next t ∧ Completed i s t := by
    intro rd a k he hd hz hh hr
    rw [he, shiftInto_eq]
    split
    · exact .inl ⟨_, hr, rfl⟩
    · exact .inr ⟨_, rfl, completed_written i s rd _ hd hz hh⟩
  cases i with
  | nop =>
    refine .inr ⟨_, rfl, ?_⟩
    rw [State.advance_eq]
    exact ⟨⟨rfl, rfl, rfl, rfl, rfl, rfl, rfl, rfl, rfl, rfl⟩, rfl, fun _ _ => rfl, fun _ => ⟨rfl, rfl⟩, fun _ => rfl,
      fun _ => rfl, fun _ => ⟨rfl, rfl, rfl, rfl, rfl, rfl⟩, fun h => by simp at h, fun _ => rfl, nextPc_lt s⟩
  | halt =>
    refine .inr ⟨_, rfl, ?_⟩
    rw [State.advance_eq]
    exact ⟨⟨rfl, rfl, rfl, rfl, rfl, rfl, rfl, rfl, rfl, rfl⟩, rfl, fun _ _ => rfl, fun _ => ⟨rfl, rfl⟩, fun _ => rfl,
      fun _ => rfl, fun h => absurd rfl h, fun _ => ⟨rfl, rfl, rfl, rfl, rfl, rfl⟩, fun _ => rfl, nextPc_lt s⟩
  | ldi rd imm => exact .inr (always rd _ rfl rfl rfl (by simp))
  | mov rd ra => exact .inr (always rd _ rfl rfl rfl (by simp))
  | add rd ra rb => exact fitting rd _ rfl rfl rfl (by simp) rfl
  | addM rd ra rb => exact fitting rd _ rfl rfl rfl (by simp) rfl
  | sub rd ra rb => exact fitting rd _ rfl rfl rfl (by simp) rfl
  | subM rd ra rb =>
    show (∃ code, _ ∧ execSubM rd ra rb s = _) ∨ ∃ t, execSubM rd ra rb s = _ ∧ _
    unfold execSubM
    split
    · exact .inl ⟨.precond, rfl, rfl⟩
    · exact .inr ⟨_, commit_eq _ _ _, completed_written _ s rd _ rfl rfl (by simp)⟩
  | mul rd ra rb => exact fitting rd _ rfl rfl rfl (by simp) rfl
  | mulM rd ra rb => exact fitting rd _ rfl rfl rfl (by simp) rfl
  | div rd ra rb rc =>
    show (∃ code, _ ∧ execDiv rd ra rb rc s = _) ∨ ∃ t, execDiv rd ra rb rc s = _ ∧ _
    unfold execDiv
    split
    · exact .inl ⟨.divzero, rfl, rfl⟩
    · exact .inr ⟨_, commitDivision_eq _ _ _ _ _, completed_divided _ s rd rc _ _ rfl rfl (by simp)⟩
  | divM rd ra rb rc =>
    show (∃ code, _ ∧ execDivM rd ra rb rc s = _) ∨ ∃ t, execDivM rd ra rb rc s = _ ∧ _
    unfold execDivM
    split
    · exact .inl ⟨.divzero, rfl, rfl⟩
    · exact .inr ⟨_, commitDivision_eq _ _ _ _ _, completed_divided _ s rd rc _ _ rfl rfl (by simp)⟩
  | cmp ra rb => exact .inr ⟨_, rfl, completed_compare _ s _ _ rfl (by simp)⟩
  | cmpM ra rb => exact .inr ⟨_, rfl, completed_compare _ s _ _ rfl (by simp)⟩
  | shft rd ra rb => exact shifting rd _ _ rfl rfl rfl (by simp) rfl
  | shfti rd ra imm => exact shifting rd _ _ rfl rfl rfl (by simp) rfl
  | and rd ra rb => exact .inr (always rd _ rfl rfl rfl (by simp))
  | or rd ra rb => exact .inr (always rd _ rfl rfl rfl (by simp))
  | xor rd ra rb => exact .inr (always rd _ rfl rfl rfl (by simp))
  | gcd rd ra rb => exact .inr (always rd _ rfl rfl rfl (by simp))
  | modexp rd ra rb rc =>
    show (∃ code, _ ∧ execModexp rd ra rb rc s = _) ∨ ∃ t, execModexp rd ra rb rc s = _ ∧ _
    unfold execModexp
    split_ifs
    · exact .inl ⟨.divzero, rfl, rfl⟩
    · exact .inl ⟨.range, rfl, rfl⟩
    · exact .inl ⟨.range, rfl, rfl⟩
    · exact .inr ⟨_, commit_eq _ _ _, completed_written _ s rd _ rfl rfl (by simp)⟩
  | modinv rd ra rb =>
    show (∃ code, _ ∧ execModinv rd ra rb s = _) ∨ ∃ t, execModinv rd ra rb s = _ ∧ _
    unfold execModinv
    split_ifs
    · exact .inl ⟨.divzero, rfl, rfl⟩
    · exact .inl ⟨.range, rfl, rfl⟩
    · exact .inl ⟨.range, rfl, rfl⟩
    · exact .inr ⟨_, commit_eq _ _ _, execModinv_completed rd ra rb s _ _⟩
  | bAL off => exact .inr ⟨_, rfl, completed_branch _ s _ _ rfl (by simp)⟩
  | bEQ off => exact .inr ⟨_, rfl, completed_branch _ s _ _ rfl (by simp)⟩
  | bNE off => exact .inr ⟨_, rfl, completed_branch _ s _ _ rfl (by simp)⟩
  | bLT off => exact .inr ⟨_, rfl, completed_branch _ s _ _ rfl (by simp)⟩
  | bGE off => exact .inr ⟨_, rfl, completed_branch _ s _ _ rfl (by simp)⟩
  | bGT off => exact .inr ⟨_, rfl, completed_branch _ s _ _ rfl (by simp)⟩
  | bLE off => exact .inr ⟨_, rfl, completed_branch _ s _ _ rfl (by simp)⟩
  | bNI off => exact .inr ⟨_, rfl, completed_branch _ s _ _ rfl (by simp)⟩
  | bIV off => exact .inr ⟨_, rfl, completed_branch _ s _ _ rfl (by simp)⟩

end Sys2Proof.Machine
end

