-- ==== Sys2Proof/Laws/Bounds.lean ====
section
/-! SUPPORT. Every command keeps every register below 2^(32·L_MAX): a result either fits or faults (spec R34, R175), and
the others are bounded by an operand (R164, R168, R205, R230). -/

namespace Sys2Proof.Machine

/-- Every register's magnitude is below the capacity (R34). -/
def State.RegsFit (s : State) : Prop := ∀ i : RegIdx, (s.reg i).natAbs < 2 ^ (32 * s.cfg.lMax)

/-- A result below the capacity keeps every register below it. -/
theorem State.written_regsFit (s : State) (rd : RegIdx) (v : Int) (h : s.RegsFit) (hv : v.natAbs < 2 ^ (32 * s.cfg.lMax)) :
    (s.written rd v).RegsFit := by
  intro i
  rw [State.reg_written]
  split
  · exact hv
  · exact h i

/-- The same for a quotient and a remainder. -/
theorem State.divided_regsFit (s : State) (rd rc : RegIdx) (q r : Int) (h : s.RegsFit) (hq : q.natAbs < 2 ^ (32 * s.cfg.lMax))
   (hr : r.natAbs < 2 ^ (32 * s.cfg.lMax)) :
    (s.divided rd rc q r).RegsFit := by
  intro i
  rw [State.reg_divided]
  split_ifs
  · exact hr
  · exact hq
  · exact h i

/-- The greatest common divisor is bounded by its operands (R231). -/
theorem gcdLoop_lt (x y M : Nat) (hx : x < M) (hy : y < M) : gcdLoop y x y < M := by
  rw [gcdLoop_eq_gcd _ _ _ le_rfl]
  rcases Nat.eq_zero_or_pos x with h | h
  · subst h; simpa using hy
  · exact lt_of_le_of_lt (Nat.gcd_le_left y h) hx

/-- No command leaves a register that exceeds the capacity (R34, R175, R230). -/
theorem exec_regsFit (i : Instr) (s t : State) (hw : s.cfg.valid = true) (hi : i.wellFormed = true) (h : s.RegsFit)
    (he : exec i s = .next t) : t.RegsFit := by
  have hL := ((Config.valid_iff _).1 hw).1
  have hbig : (2:Nat) ^ 32 ≤ 2 ^ (32 * s.cfg.lMax) := Nat.pow_le_pow_right (by decide) (by omega)
  have done : ∀ u, exec i s = .next u → u.RegsFit → t.RegsFit := by
    intro u hu hf; rw [hu] at he; injection he with he; exact he ▸ hf
  have fault : ∀ c, (s.faulted c).RegsFit := fun c => h
  have fitting : ∀ (rd : RegIdx) (v : Int), exec i s = commitFitting rd v s → t.RegsFit := by
    intro rd v hc
    rw [commitFitting_eq] at hc
    refine done _ hc ?_
    split
    · next hv => exact State.written_regsFit s rd v h ((fits_iff _ hL v).1 hv)
    · exact fault _
  have always : ∀ (rd : RegIdx) (v : Int), exec i s = commit rd v s → v.natAbs < 2 ^ (32 * s.cfg.lMax) → t.RegsFit := by
    intro rd v hc hv
    exact done _ (hc.trans (commit_eq _ _ _)) (State.written_regsFit s rd v h hv)
  have shifting : ∀ (rd : RegIdx) (a : RegIdx) (k : Int), exec i s = shiftInto rd (s.reg a) k s → t.RegsFit := by
    intro rd a k hc
    rw [shiftInto_eq] at hc
    refine done _ hc ?_
    split
    · exact fault _
    · next hv =>
      refine State.written_regsFit s rd _ h ?_
      rw [shiftOverflows_iff] at hv
      rw [Int.natAbs_natCast]
      by_contra hc
      have : ¬ 0 ≤ k := fun hk => hv ⟨hc, hk⟩
      rw [shiftMagnitude_eq, if_neg this] at hc
      exact hc (lt_of_le_of_lt (Nat.div_le_self _ _) (h a))
  have branching : ∀ c off, exec i s = .next (s.branch c off) → t.RegsFit := by
    intro c off hc
    refine done _ hc ?_
    unfold State.branch; split <;> exact h
  cases i with
  | nop => exact done _ rfl h
  | halt => exact done _ rfl h
  | ldi rd imm =>
    refine always rd _ rfl ?_
    simp only [Instr.wellFormed, immInRange, Bool.and_eq_true, decide_eq_true_eq] at hi
    omega
  | mov rd ra => exact always rd _ rfl (h ra)
  | add rd ra rb => exact fitting rd _ rfl
  | addM rd ra rb => exact fitting rd _ rfl
  | sub rd ra rb => exact fitting rd _ rfl
  | mul rd ra rb => exact fitting rd _ rfl
  | mulM rd ra rb => exact fitting rd _ rfl
  | subM rd ra rb =>
    change execSubM rd ra rb s = _ at he
    unfold execSubM at he
    split at he
    · injection he with he; exact he ▸ fault _
    · rw [commit_eq] at he; injection he with he
      refine he ▸ State.written_regsFit s rd _ h ?_
      rw [Int.natAbs_natCast]
      exact lt_of_le_of_lt (Nat.sub_le _ _) (h ra)
  | div rd ra rb rc =>
    change execDiv rd ra rb rc s = _ at he
    unfold execDiv at he
    split at he
    · injection he with he; exact he ▸ fault _
    · rw [commitDivision_eq] at he; injection he with he
      refine he ▸ State.divided_regsFit s rd rc _ _ h ?_ ?_
      · rw [natAbs_tquo]; exact lt_of_le_of_lt (Nat.div_le_self _ _) (h ra)
      · rw [natAbs_trem]; exact lt_of_le_of_lt (Nat.mod_le _ _) (h ra)
  | divM rd ra rb rc =>
    change execDivM rd ra rb rc s = _ at he
    unfold execDivM at he
    split at he
    · injection he with he; exact he ▸ fault _
    · rw [commitDivision_eq] at he; injection he with he
      refine he ▸ State.divided_regsFit s rd rc _ _ h ?_ ?_ <;> rw [Int.natAbs_natCast]
      · exact lt_of_le_of_lt (Nat.div_le_self _ _) (h ra)
      · exact lt_of_le_of_lt (Nat.mod_le _ _) (h ra)
  | cmp ra rb => exact done _ rfl h
  | cmpM ra rb => exact done _ rfl h
  | shft rd ra rb => exact shifting rd ra _ rfl
  | shfti rd ra imm => exact shifting rd ra _ rfl
  | and rd ra rb => exact always rd _ rfl (by rw [Int.natAbs_natCast]; exact Nat.and_lt_two_pow _ (h rb))
  | or rd ra rb => exact always rd _ rfl (by rw [Int.natAbs_natCast]; exact Nat.or_lt_two_pow (h ra) (h rb))
  | xor rd ra rb => exact always rd _ rfl (by rw [Int.natAbs_natCast]; exact Nat.xor_lt_two_pow (h ra) (h rb))
  | gcd rd ra rb => exact always rd _ rfl (by rw [Int.natAbs_natCast]; exact gcdLoop_lt _ _ _ (h ra) (h rb))
  | modexp rd ra rb rc =>
    change execModexp rd ra rb rc s = _ at he
    unfold execModexp at he
    split_ifs at he
    · injection he with he; exact he ▸ fault _
    · injection he with he; exact he ▸ fault _
    · injection he with he; exact he ▸ fault _
    · rw [commit_eq] at he; injection he with he
      exact he ▸ State.written_regsFit s rd _ h (lt_trans (natAbs_modexpValue_lt _ _ _ (by omega)) (h rc))
  | modinv rd ra rb =>
    change execModinv rd ra rb s = _ at he
    unfold execModinv at he
    split_ifs at he
    · injection he with he; exact he ▸ fault _
    · injection he with he; exact he ▸ fault _
    · injection he with he; exact he ▸ fault _
    · rw [commit_eq] at he; injection he with he
      have hb : 0 < s.reg rb := by omega
      have hv : (modinvValue s (s.reg ra) (s.reg rb)).natAbs < 2 ^ (32 * s.cfg.lMax) := by
        refine lt_trans ?_ (h rb)
        have lt : ∀ x : Int, (x % s.reg rb).natAbs < (s.reg rb).natAbs := by
          intro x
          have := Int.emod_nonneg x (show s.reg rb ≠ 0 by omega)
          have := Int.emod_lt_of_pos x hb
          omega
        unfold modinvValue
        split
        · rw [normalizeCoefficient_eq _ _ hb]; exact lt _
        · exact lt _
      rw [← he]
      unfold State.drawInverse
      split
      · exact State.written_regsFit (s.setNI _) rd _ h hv
      · exact State.written_regsFit (State.setNI { s with draws := s.draws + 1 } _) rd _ h hv
  | bAL off => exact branching _ _ rfl
  | bEQ off => exact branching _ _ rfl
  | bNE off => exact branching _ _ rfl
  | bLT off => exact branching _ _ rfl
  | bGE off => exact branching _ _ rfl
  | bGT off => exact branching _ _ rfl
  | bLE off => exact branching _ _ rfl
  | bNI off => exact branching _ _ rfl
  | bIV off => exact branching _ _ rfl

end Sys2Proof.Machine
end

