-- ==== Sys2Proof/Laws/Decode.lean ====
section
/-! SUPPORT. Facts about bit fields and immediates (spec R12, R13), and what a mask of one or two contiguous fields
selects (R119); the fields of an encoded word and the word of given fields (R111, R112, R114). -/

namespace Sys2Proof

/-- An immediate in range survives its field (R116, R132). -/
theorem sext16_immField (v : Int) (h : immInRange v = true) : sext16 (immField v) = v := by
  simp only [immInRange, Bool.and_eq_true, decide_eq_true_eq] at h
  unfold sext16 immField
  split <;> omega

theorem immField_lt (v : Int) : immField v < 65536 := by unfold immField; omega

/-- A 16-bit field reads as an immediate in range. -/
theorem immInRange_sext16 (x : Nat) (h : x < 65536) : immInRange (sext16 x) = true := by
  simp only [immInRange, Bool.and_eq_true, decide_eq_true_eq]
  unfold sext16
  split <;> omega

theorem immField_sext16 (x : Nat) (h : x < 65536) : immField (sext16 x) = x := by
  unfold immField sext16
  split <;> omega

theorem field_lt (w : Word) (hi lo : Nat) : field w hi lo < 2 ^ (hi + 1 - lo) := Nat.mod_lt _ (by positivity)

/-- A mask of two contiguous fields [a+p−1:a] and [b+q−1:b] with b + q ≤ a selects the two fields. -/
theorem land_two_fields (n a p b q : Nat) (h : b + q ≤ a) :
    n &&& ((2 ^ p - 1) * 2 ^ a + (2 ^ q - 1) * 2 ^ b)
      = (n / 2 ^ a % 2 ^ p) * 2 ^ a + (n / 2 ^ b % 2 ^ q) * 2 ^ b := by
  have hle : 2 ^ (b + q) ≤ 2 ^ a := Nat.pow_le_pow_right (by decide) h
  have bound : ∀ x < 2 ^ q, x * 2 ^ b < 2 ^ a := fun x hx => by
    calc x * 2 ^ b < 2 ^ q * 2 ^ b := Nat.mul_lt_mul_of_pos_right hx (by positivity)
      _ = 2 ^ (b + q) := by rw [pow_add, mul_comm]
      _ ≤ 2 ^ a := hle
  apply Nat.eq_of_testBit_eq
  intro j
  rw [Nat.testBit_and, Nat.mul_comm _ (2 ^ a), Nat.mul_comm _ (2 ^ a),
    Nat.testBit_two_pow_mul_add _ (bound _ (Nat.sub_lt (by positivity) one_pos)),
    Nat.testBit_two_pow_mul_add _ (bound _ (Nat.mod_lt _ (by positivity)))]
  split
  · rw [Nat.testBit_mul_two_pow, Nat.testBit_mul_two_pow, Nat.testBit_two_pow_sub_one, Nat.testBit_mod_two_pow,
      Nat.testBit_div_two_pow]
    by_cases hb : b ≤ j
    · rw [Nat.sub_add_cancel hb]; simp [hb, Bool.and_comm]
    · simp [hb]
  · rw [Nat.testBit_two_pow_sub_one, Nat.testBit_mod_two_pow, Nat.testBit_div_two_pow, Nat.sub_add_cancel (by omega),
      Bool.and_comm]

/-- When a masked word has a row's pattern (R119): its opcode-side field and its zero-side field have the pattern's. -/
theorem masked_eq_iff (w : Word) (a p b q x y : Nat) (h : b + q ≤ a) (ha : a + p = 32) (hx : x < 2 ^ p)
    (hy : y < 2 ^ q) :
    w &&& BitVec.ofNat 32 ((2 ^ p - 1) * 2 ^ a + (2 ^ q - 1) * 2 ^ b) = BitVec.ofNat 32 (x * 2 ^ a + y * 2 ^ b)
      ↔ w.toNat / 2 ^ a % 2 ^ p = x ∧ w.toNat / 2 ^ b % 2 ^ q = y := by
  have hpow : 2 ^ a * 2 ^ p = 2 ^ 32 := by rw [← pow_add, ha]
  have hle : 2 ^ (b + q) ≤ 2 ^ a := Nat.pow_le_pow_right (by decide) h
  have bound : ∀ u < 2 ^ p, ∀ v < 2 ^ q, u * 2 ^ a + v * 2 ^ b < 2 ^ 32 := fun u hu v hv => by
    have h1 : v * 2 ^ b < 2 ^ a := by
      calc v * 2 ^ b < 2 ^ q * 2 ^ b := Nat.mul_lt_mul_of_pos_right hv (by positivity)
        _ = 2 ^ (b + q) := by rw [pow_add, mul_comm]
        _ ≤ 2 ^ a := hle
    have h2 : (u + 1) * 2 ^ a ≤ 2 ^ p * 2 ^ a := Nat.mul_le_mul_right _ hu
    nlinarith
  have sub_lt : ∀ k, 2 ^ k - 1 < 2 ^ k := fun k => Nat.sub_lt (by positivity) one_pos
  rw [← BitVec.toNat_inj, BitVec.toNat_and, BitVec.toNat_ofNat, BitVec.toNat_ofNat,
    Nat.mod_eq_of_lt (bound _ (sub_lt p) _ (sub_lt q)), Nat.mod_eq_of_lt (bound _ hx _ hy), land_two_fields _ _ _ _ _ h]
  constructor
  · intro he
    have low : ∀ v < 2 ^ q, v * 2 ^ b < 2 ^ a := fun v hv => by
      calc v * 2 ^ b < 2 ^ q * 2 ^ b := Nat.mul_lt_mul_of_pos_right hv (by positivity)
        _ = 2 ^ (b + q) := by rw [pow_add, mul_comm]
        _ ≤ 2 ^ a := hle
    have hm := low _ (Nat.mod_lt (w.toNat / 2 ^ b) (show 0 < 2 ^ q by positivity))
    have hm' := low _ hy
    have e1 := congrArg (· / 2 ^ a) he
    have e2 := congrArg (· % 2 ^ a) he
    simp only [Nat.add_comm (_ * 2 ^ a), Nat.add_mul_div_right _ _ (show 0 < 2 ^ a by positivity),
      Nat.div_eq_of_lt hm, Nat.div_eq_of_lt hm', Nat.add_mul_mod_self_right, Nat.mod_eq_of_lt hm, Nat.mod_eq_of_lt hm',
      zero_add] at e1 e2
    exact ⟨e1, Nat.eq_of_mul_eq_mul_right (by positivity) e2⟩
  · rintro ⟨rfl, rfl⟩; rfl

theorem val_regField (w : Word) (lo : Nat) : (regField w lo).val = w.toNat / 2 ^ lo % 16 := rfl

theorem regField_eq_iff (w : Word) (lo : Nat) (r : RegIdx) : regField w lo = r ↔ w.toNat / 2 ^ lo % 16 = r.val := Fin.ext_iff

theorem toNat_encodeR (op : Nat) (rd ra rb rc : RegIdx) (S : Nat) (h : op < 64) (hS : S < 2) :
    (encodeR op rd ra rb rc S).toNat =
      op * 2 ^ 26 + rd.val * 2 ^ 22 + ra.val * 2 ^ 18 + rb.val * 2 ^ 14 + rc.val * 2 ^ 10 + S * 2 ^ 9 := by
  have := rd.isLt; have := ra.isLt; have := rb.isLt; have := rc.isLt
  rw [encodeR, BitVec.toNat_ofNat]
  omega

theorem toNat_encodeI (op : Nat) (rd ra : RegIdx) (imm : Int) (h : op < 64) :
    (encodeI op rd ra imm).toNat = op * 2 ^ 26 + rd.val * 2 ^ 22 + ra.val * 2 ^ 18 + immField imm := by
  have := rd.isLt; have := ra.isLt; have := immField_lt imm
  rw [encodeI, BitVec.toNat_ofNat]
  omega

theorem toNat_encodeB (c : Nat) (off : Int) (h : c < 16) :
    (encodeB c off).toNat = 0x20 * 2 ^ 26 + c * 2 ^ 22 + immField off := by
  have := immField_lt off
  rw [encodeB, BitVec.toNat_ofNat]
  omega

/-- The fields of a format-R word (R111). -/
theorem fields_encodeR (op : Nat) (rd ra rb rc : RegIdx) (S : Nat) (h : op < 64) (hS : S < 2) :
    field (encodeR op rd ra rb rc S) 31 26 = op ∧ regField (encodeR op rd ra rb rc S) 22 = rd ∧
    regField (encodeR op rd ra rb rc S) 18 = ra ∧ regField (encodeR op rd ra rb rc S) 14 = rb ∧
    regField (encodeR op rd ra rb rc S) 10 = rc ∧ field (encodeR op rd ra rb rc S) 9 9 = S ∧
    field (encodeR op rd ra rb rc S) 8 0 = 0 ∧ field (encodeR op rd ra rb rc S) 9 0 = S * 2 ^ 9 ∧
    field (encodeR op rd ra rb rc S) 13 10 = rc.val ∧
    field (encodeR op rd ra rb rc S) 13 0 = rc.val * 2 ^ 10 + S * 2 ^ 9 ∧
    field (encodeR op rd ra rb rc S) 17 0 = rb.val * 2 ^ 14 + rc.val * 2 ^ 10 + S * 2 ^ 9 ∧
    field (encodeR op rd ra rb rc S) 25 22 = rd.val := by
  have h1 := rd.isLt; have h2 := ra.isLt; have h3 := rb.isLt; have h4 := rc.isLt
  have e := toNat_encodeR op rd ra rb rc S h hS
  simp only [field, regField_eq_iff, e]
  refine ⟨?_, ?_, ?_, ?_, ?_, ?_, ?_, ?_, ?_, ?_, ?_, ?_⟩ <;> omega

/-- The fields of a format-I word (R112). -/
theorem fields_encodeI (op : Nat) (rd ra : RegIdx) (imm : Int) (h : op < 64) :
    field (encodeI op rd ra imm) 31 26 = op ∧ regField (encodeI op rd ra imm) 22 = rd ∧
    regField (encodeI op rd ra imm) 18 = ra ∧ field (encodeI op rd ra imm) 21 16 = ra.val * 4 ∧
    field (encodeI op rd ra imm) 17 16 = 0 ∧ field (encodeI op rd ra imm) 15 0 = immField imm := by
  have h1 := rd.isLt; have h2 := ra.isLt; have h3 := immField_lt imm
  have e := toNat_encodeI op rd ra imm h
  simp only [field, regField_eq_iff, e]
  refine ⟨?_, ?_, ?_, ?_, ?_, ?_⟩ <;> omega

/-- The fields of a format-B word (R114). -/
theorem fields_encodeB (c : Nat) (off : Int) (h : c < 16) :
    field (encodeB c off) 31 26 = 0x20 ∧ field (encodeB c off) 25 22 = c ∧ field (encodeB c off) 21 16 = 0 ∧
    field (encodeB c off) 15 0 = immField off := by
  have h3 := immField_lt off
  have e := toNat_encodeB c off h
  simp only [field, e]
  refine ⟨?_, ?_, ?_, ?_⟩ <;> omega

/-- A word with format R's reserved bits 0 is the format-R word of its fields (R111). -/
theorem encodeR_fields (w : Word) (h : field w 8 0 = 0) :
    encodeR (field w 31 26) (regField w 22) (regField w 18) (regField w 14) (regField w 10) (field w 9 9) = w := by
  have hw := w.isLt
  apply BitVec.eq_of_toNat_eq
  simp only [encodeR, BitVec.toNat_ofNat, val_regField]
  simp only [field, Nat.reduceAdd, Nat.reduceSub, Nat.reducePow, Nat.div_one] at *
  omega

/-- The same for format I (R112). -/
theorem encodeI_fields (w : Word) (h : field w 17 16 = 0) :
    encodeI (field w 31 26) (regField w 22) (regField w 18) (sext16 (field w 15 0)) = w := by
  have hw := w.isLt
  apply BitVec.eq_of_toNat_eq
  simp only [encodeI, BitVec.toNat_ofNat, val_regField, immField_sext16 _ (field_lt w 15 0)]
  simp only [field, Nat.reduceAdd, Nat.reduceSub, Nat.reducePow, Nat.div_one] at *
  omega

/-- The same for format B (R114). -/
theorem encodeB_fields (w : Word) (h : field w 21 16 = 0) (ho : field w 31 26 = 0x20) :
    encodeB (field w 25 22) (sext16 (field w 15 0)) = w := by
  have hw := w.isLt
  apply BitVec.eq_of_toNat_eq
  simp only [encodeB, BitVec.toNat_ofNat, immField_sext16 _ (field_lt w 15 0)]
  simp only [field, Nat.reduceAdd, Nat.reduceSub, Nat.reducePow, Nat.div_one] at *
  omega

/-- The same for format N (R114). -/
theorem encodeN_fields (w : Word) (h : field w 25 0 = 0) : encodeN (field w 31 26) = w := by
  have hw := w.isLt
  apply BitVec.eq_of_toNat_eq
  simp only [encodeN, BitVec.toNat_ofNat]
  simp only [field, Nat.reduceAdd, Nat.reduceSub, Nat.reducePow, Nat.div_one] at *
  omega

/-- A 4-bit field that is 0 names register 0. -/
theorem regField_eq_zero (w : Word) (hi lo : Nat) (hh : hi + 1 = lo + 4) (h : field w hi lo = 0) : regField w lo = 0 := by
  apply Fin.ext
  rw [val_regField]; unfold field at h
  rw [hh, Nat.add_sub_cancel_left] at h; simpa using h

end Sys2Proof
end

