-- ==== Sys2Proof/Laws/HostPort.lean ====
section
/-! SUPPORT. Which port an offset of the host window selects (spec R42, R72, R76), what an access that is not refused does
(R290), and that a write of a BUF or IMEM word stores it and keeps memory on BUF and IMEM. -/

namespace Sys2Proof.Machine

/-- Which words of the window are BUF (R72, R75). -/
theorem portOf_eq_buf_iff (c : Config) (hc : c.valid = true) (off : Offset) (j : Nat) :
    portOf c off = .buf j ↔ j < c.lMax ∧ off.toNat / 4 = 0x400 + j := by
  have hv := (Config.valid_iff c).1 hc
  unfold portOf
  generalize off.toNat / 4 = k
  split <;> try (constructor <;> intro h <;> first | (exfalso; omega) | (simp at h))
  split
  · simp only [Port.buf.injEq]; omega
  · split <;> (constructor <;> intro h <;> first | (exfalso; omega) | (simp at h))

/-- Which words of the window are IMEM (R72, R73). -/
theorem portOf_eq_imem_iff (c : Config) (hc : c.valid = true) (off : Offset) (i : Nat) :
    portOf c off = .imem i ↔ i < c.imemWords ∧ off.toNat / 4 = 0x1000 + i := by
  have hv := (Config.valid_iff c).1 hc
  unfold portOf
  generalize off.toNat / 4 = k
  split <;> try (constructor <;> intro h <;> first | (exfalso; omega) | (simp at h))
  split
  · constructor <;> intro h <;> first | (exfalso; omega) | (simp at h)
  · split
    · simp only [Port.imem.injEq]; omega
    · constructor <;> intro h <;> first | (exfalso; omega) | (simp at h)

/-- The ports open while BUSY = 1 are ID, CTRL, STATUS and PARAM (R42, R290). -/
theorem portOf_always_iff (c : Config) (off : Offset) :
    (portOf c off).always = true ↔ off.toNat / 4 = 0 ∨ off.toNat / 4 = 1 ∨ off.toNat / 4 = 2 ∨ off.toNat / 4 = 10 := by
  unfold portOf
  generalize off.toNat / 4 = k
  split <;> try (simp [Port.always]; done)
  simp only [imp_false] at *
  have hr : ¬ (k = 0 ∨ k = 1 ∨ k = 2 ∨ k = 10) := by omega
  split <;> [skip; split] <;> simp only [Port.always, Bool.false_eq_true, hr]

/-- Which words of the window are unmapped (R72, R76). -/
theorem portOf_eq_unmapped_iff (c : Config) (off : Offset) :
    portOf c off = .unmapped ↔ 11 ≤ off.toNat / 4 ∧ ¬ (0x400 ≤ off.toNat / 4 ∧ off.toNat / 4 < 0x400 + c.lMax) ∧
      ¬ (0x1000 ≤ off.toNat / 4 ∧ off.toNat / 4 < 0x1000 + c.imemWords) := by
  unfold portOf
  generalize off.toNat / 4 = k
  split <;> try (constructor <;> intro h <;> first | (exfalso; omega) | (simp at h))
  split
  · constructor <;> intro h <;> first | (exfalso; omega) | (simp at h)
  · split
    · constructor <;> intro h <;> first | (exfalso; omega) | (simp at h)
    · simp only [imp_false] at *; simp only [true_iff]; omega

/-- An access that is not refused reads its port (R290). -/
theorem hostRead_eq_readPort (off : Offset) (s : State) (h : s.busy = false ∨ (portOf s.cfg off).always = true) :
    hostRead off s = { s with rdata := s.readPort (portOf s.cfg off) } := by
  unfold hostRead
  rcases h with h | h <;> simp [h]

/-- An access that is not refused writes its port (R290). -/
theorem hostWrite_eq_writePort (off : Offset) (w : Word) (s : State)
    (h : s.busy = false ∨ (portOf s.cfg off).always = true) :
    hostWrite off w s = writePort (portOf s.cfg off) w s := by
  unfold hostWrite
  rcases h with h | h <;> simp [h]

/-- No host access produces an error code: it leaves ERRCODE or clears it (R280, R285, R308, R342). -/
theorem hostAccess_errcode (a : HostAccess) (s : State) :
    (hostAccess a s).errcode = s.errcode ∨ (hostAccess a s).errcode = .none := by
  cases a with
  | read off => left; simp only [hostAccess, hostRead]; split <;> rfl
  | write off w =>
    simp only [hostAccess, hostWrite]
    split
    · exact .inl rfl
    · cases portOf s.cfg off with
      | ctrl =>
        simp only [writePort, ctrlWrite]
        split
        · exact .inr rfl
        · split
          · exact .inl rfl
          · split
            · exact .inr rfl
            · exact .inl rfl
      | status =>
        simp only [writePort, statusWrite]
        split
        · exact .inr rfl
        · exact .inl rfl
      | xfer =>
        left
        simp only [writePort, xferWrite, importReg, exportReg]
        split
        · split <;> rfl
        · split
          · split <;> rfl
          · rfl
      | id | pc | sel | count | xsign | rlen | rsign | param | buf _ | imem _ | unmapped => exact .inl rfl

/-- The word at the offset of BUF[j] or IMEM[i] is stored and every other byte stays (R75, R73, R79). -/
theorem storesWord_writeWord (s : State) (a : Nat) (w : Word) :
    StoresWord s { s with mem := s.mem.writeWord a w } a w :=
  ⟨_, rfl, Memory.readWord_writeWord_self _ _ _ _, fun b hb => by
    rw [Memory.readByte_writeWord, if_neg (by omega)]; rfl⟩

/-- A write of a BUF or IMEM word lists only bytes of BUF and IMEM (R72). -/
theorem Memory.mapped_writeWord (c : Config) (m : Memory) (a : Nat) (w : Word) (h : m.mapped c)
    (ha : (∃ j < c.lMax, a = bufAddr j) ∨ (∃ i < c.imemWords, a = imemAddr i)) : (m.writeWord a w).mapped c := by
  intro cell hc
  rcases Memory.mem_writeWord _ _ _ _ hc with hc | hc
  · rcases ha with ⟨j, hj, rfl⟩ | ⟨j, hj, rfl⟩
    · exact .inl ⟨j, hj, hc⟩
    · exact .inr ⟨j, hj, hc⟩
  · exact h _ hc

/-- EXPORT of a register that fits lists only bytes of BUF and IMEM (R288). -/
theorem Memory.mapped_storeLimbs (c : Config) (v : Int) (k : Nat) (m : Memory) (h : m.mapped c) (hk : k ≤ c.lMax) :
    Memory.mapped c (storeLimbs v k m) := by
  intro cell hc
  rcases mem_storeLimbs _ _ _ _ hc with ⟨j, hj, hc⟩ | hc
  · exact .inl ⟨j, by omega, hc⟩
  · exact h _ hc

end Sys2Proof.Machine
end

