-- ==== Sys2Proof/Laws/PerInstr.lean ====
section
/-! SUPPORT. A statement made for each command as syntax: the word of the command has the match and mask of the row of
R119 that carries its mnemonic, whatever the operands. -/

namespace Sys2Proof.Laws.EncodeMatchesRow

/-- The command's word has the match and mask of its row of R119. -/
def Statement (i : Instr) : Prop :=
  ∃ r ∈ opTable, r.mnemonic = i.mnemonic ∧ encode i &&& r.mask = r.pattern

/-- A row whose mask is the field [31:a] and the field [b+q−1:b], and whose pattern those fields' values, matches. -/
theorem of_fields (i : Instr) (name : String) (pattern mask : Word) (fields : List (String × Nat × Nat)) (a p b q x y : Nat)
    (hrow : (⟨name, pattern, mask, fields⟩ : OpRow) ∈ opTable) (hname : name = i.mnemonic)
    (hmask : mask = BitVec.ofNat 32 ((2 ^ p - 1) * 2 ^ a + (2 ^ q - 1) * 2 ^ b))
    (hpat : pattern = BitVec.ofNat 32 (x * 2 ^ a + y * 2 ^ b)) (h : b + q ≤ a) (ha : a + p = 32) (hx : x < 2 ^ p)
    (hy : y < 2 ^ q) (hi : (encode i).toNat / 2 ^ a % 2 ^ p = x ∧ (encode i).toNat / 2 ^ b % 2 ^ q = y) :
    Statement i :=
  ⟨_, hrow, hname, by
    show encode i &&& mask = pattern
    rw [hmask, hpat]; exact (masked_eq_iff _ a p b q x y h ha hx hy).2 hi⟩

theorem nop : Statement (.nop) :=
  of_fields _ "NOP" 0x04000000 0xFFFFFFFF []
    16 16 0 16 1024 0 (by decide) rfl (by decide) (by decide)
    (by decide) (by decide) (by decide) (by decide)
    (by decide)

theorem halt : Statement (.halt) :=
  of_fields _ "HALT" 0x08000000 0xFFFFFFFF []
    16 16 0 16 2048 0 (by decide) rfl (by decide) (by decide)
    (by decide) (by decide) (by decide) (by decide)
    (by decide)

theorem ldi (rd : RegIdx) (imm : Int) : Statement (.ldi rd imm) :=
  of_fields _ "LDI" 0x0C000000 0xFC3F0000 [("rd", 25, 22), ("imm16", 15, 0)]
    26 6 16 6 3 0 (by decide) rfl (by decide) (by decide)
    (by decide) (by decide) (by decide) (by decide)
    (by have := rd.isLt; have := immField_lt imm; simp only [encode, encodeI, BitVec.toNat_ofNat]; simp; omega)

theorem mov (rd : RegIdx) (ra : RegIdx) : Statement (.mov rd ra) :=
  of_fields _ "MOV" 0x10000000 0xFC03FFFF [("rd", 25, 22), ("ra", 21, 18)]
    26 6 0 18 4 0 (by decide) rfl (by decide) (by decide)
    (by decide) (by decide) (by decide) (by decide)
    (by have := rd.isLt; have := ra.isLt; simp only [encode, encodeR, BitVec.toNat_ofNat]; simp; omega)

theorem add (rd : RegIdx) (ra : RegIdx) (rb : RegIdx) : Statement (.add rd ra rb) :=
  of_fields _ "ADD" 0x14000200 0xFC003FFF [("rd", 25, 22), ("ra", 21, 18), ("rb", 17, 14)]
    26 6 0 14 5 512 (by decide) rfl (by decide) (by decide)
    (by decide) (by decide) (by decide) (by decide)
    (by have := rd.isLt; have := ra.isLt; have := rb.isLt; simp only [encode, encodeR, BitVec.toNat_ofNat]; simp; omega)

theorem addM (rd : RegIdx) (ra : RegIdx) (rb : RegIdx) : Statement (.addM rd ra rb) :=
  of_fields _ "ADD.M" 0x14000000 0xFC003FFF [("rd", 25, 22), ("ra", 21, 18), ("rb", 17, 14)]
    26 6 0 14 5 0 (by decide) rfl (by decide) (by decide)
    (by decide) (by decide) (by decide) (by decide)
    (by have := rd.isLt; have := ra.isLt; have := rb.isLt; simp only [encode, encodeR, BitVec.toNat_ofNat]; simp; omega)

theorem sub (rd : RegIdx) (ra : RegIdx) (rb : RegIdx) : Statement (.sub rd ra rb) :=
  of_fields _ "SUB" 0x18000200 0xFC003FFF [("rd", 25, 22), ("ra", 21, 18), ("rb", 17, 14)]
    26 6 0 14 6 512 (by decide) rfl (by decide) (by decide)
    (by decide) (by decide) (by decide) (by decide)
    (by have := rd.isLt; have := ra.isLt; have := rb.isLt; simp only [encode, encodeR, BitVec.toNat_ofNat]; simp; omega)

theorem subM (rd : RegIdx) (ra : RegIdx) (rb : RegIdx) : Statement (.subM rd ra rb) :=
  of_fields _ "SUB.M" 0x18000000 0xFC003FFF [("rd", 25, 22), ("ra", 21, 18), ("rb", 17, 14)]
    26 6 0 14 6 0 (by decide) rfl (by decide) (by decide)
    (by decide) (by decide) (by decide) (by decide)
    (by have := rd.isLt; have := ra.isLt; have := rb.isLt; simp only [encode, encodeR, BitVec.toNat_ofNat]; simp; omega)

theorem mul (rd : RegIdx) (ra : RegIdx) (rb : RegIdx) : Statement (.mul rd ra rb) :=
  of_fields _ "MUL" 0x1C000200 0xFC003FFF [("rd", 25, 22), ("ra", 21, 18), ("rb", 17, 14)]
    26 6 0 14 7 512 (by decide) rfl (by decide) (by decide)
    (by decide) (by decide) (by decide) (by decide)
    (by have := rd.isLt; have := ra.isLt; have := rb.isLt; simp only [encode, encodeR, BitVec.toNat_ofNat]; simp; omega)

theorem mulM (rd : RegIdx) (ra : RegIdx) (rb : RegIdx) : Statement (.mulM rd ra rb) :=
  of_fields _ "MUL.M" 0x1C000000 0xFC003FFF [("rd", 25, 22), ("ra", 21, 18), ("rb", 17, 14)]
    26 6 0 14 7 0 (by decide) rfl (by decide) (by decide)
    (by decide) (by decide) (by decide) (by decide)
    (by have := rd.isLt; have := ra.isLt; have := rb.isLt; simp only [encode, encodeR, BitVec.toNat_ofNat]; simp; omega)

theorem div (rd : RegIdx) (ra : RegIdx) (rb : RegIdx) (rc : RegIdx) : Statement (.div rd ra rb rc) :=
  of_fields _ "DIV" 0x20000200 0xFC0003FF [("rd", 25, 22), ("ra", 21, 18), ("rb", 17, 14), ("rc", 13, 10)]
    26 6 0 10 8 512 (by decide) rfl (by decide) (by decide)
    (by decide) (by decide) (by decide) (by decide)
    (by have := rd.isLt; have := ra.isLt; have := rb.isLt; have := rc.isLt; simp only [encode, encodeR, BitVec.toNat_ofNat]; simp; omega)

theorem divM (rd : RegIdx) (ra : RegIdx) (rb : RegIdx) (rc : RegIdx) : Statement (.divM rd ra rb rc) :=
  of_fields _ "DIV.M" 0x20000000 0xFC0003FF [("rd", 25, 22), ("ra", 21, 18), ("rb", 17, 14), ("rc", 13, 10)]
    26 6 0 10 8 0 (by decide) rfl (by decide) (by decide)
    (by decide) (by decide) (by decide) (by decide)
    (by have := rd.isLt; have := ra.isLt; have := rb.isLt; have := rc.isLt; simp only [encode, encodeR, BitVec.toNat_ofNat]; simp; omega)

theorem cmp (ra : RegIdx) (rb : RegIdx) : Statement (.cmp ra rb) :=
  of_fields _ "CMP" 0x24000200 0xFFC03FFF [("ra", 21, 18), ("rb", 17, 14)]
    22 10 0 14 144 512 (by decide) rfl (by decide) (by decide)
    (by decide) (by decide) (by decide) (by decide)
    (by have := ra.isLt; have := rb.isLt; simp only [encode, encodeR, BitVec.toNat_ofNat]; simp; omega)

theorem cmpM (ra : RegIdx) (rb : RegIdx) : Statement (.cmpM ra rb) :=
  of_fields _ "CMP.M" 0x24000000 0xFFC03FFF [("ra", 21, 18), ("rb", 17, 14)]
    22 10 0 14 144 0 (by decide) rfl (by decide) (by decide)
    (by decide) (by decide) (by decide) (by decide)
    (by have := ra.isLt; have := rb.isLt; simp only [encode, encodeR, BitVec.toNat_ofNat]; simp; omega)

theorem shft (rd : RegIdx) (ra : RegIdx) (rb : RegIdx) : Statement (.shft rd ra rb) :=
  of_fields _ "SHFT" 0x28000000 0xFC003FFF [("rd", 25, 22), ("ra", 21, 18), ("rb", 17, 14)]
    26 6 0 14 10 0 (by decide) rfl (by decide) (by decide)
    (by decide) (by decide) (by decide) (by decide)
    (by have := rd.isLt; have := ra.isLt; have := rb.isLt; simp only [encode, encodeR, BitVec.toNat_ofNat]; simp; omega)

theorem shfti (rd : RegIdx) (ra : RegIdx) (imm : Int) : Statement (.shfti rd ra imm) :=
  of_fields _ "SHFTI" 0x2C000000 0xFC030000 [("rd", 25, 22), ("ra", 21, 18), ("imm16", 15, 0)]
    26 6 16 2 11 0 (by decide) rfl (by decide) (by decide)
    (by decide) (by decide) (by decide) (by decide)
    (by have := rd.isLt; have := ra.isLt; have := immField_lt imm; simp only [encode, encodeI, BitVec.toNat_ofNat]; simp; omega)

theorem and (rd : RegIdx) (ra : RegIdx) (rb : RegIdx) : Statement (.and rd ra rb) :=
  of_fields _ "AND" 0x30000000 0xFC003FFF [("rd", 25, 22), ("ra", 21, 18), ("rb", 17, 14)]
    26 6 0 14 12 0 (by decide) rfl (by decide) (by decide)
    (by decide) (by decide) (by decide) (by decide)
    (by have := rd.isLt; have := ra.isLt; have := rb.isLt; simp only [encode, encodeR, BitVec.toNat_ofNat]; simp; omega)

theorem or (rd : RegIdx) (ra : RegIdx) (rb : RegIdx) : Statement (.or rd ra rb) :=
  of_fields _ "OR" 0x34000000 0xFC003FFF [("rd", 25, 22), ("ra", 21, 18), ("rb", 17, 14)]
    26 6 0 14 13 0 (by decide) rfl (by decide) (by decide)
    (by decide) (by decide) (by decide) (by decide)
    (by have := rd.isLt; have := ra.isLt; have := rb.isLt; simp only [encode, encodeR, BitVec.toNat_ofNat]; simp; omega)

theorem xor (rd : RegIdx) (ra : RegIdx) (rb : RegIdx) : Statement (.xor rd ra rb) :=
  of_fields _ "XOR" 0x38000000 0xFC003FFF [("rd", 25, 22), ("ra", 21, 18), ("rb", 17, 14)]
    26 6 0 14 14 0 (by decide) rfl (by decide) (by decide)
    (by decide) (by decide) (by decide) (by decide)
    (by have := rd.isLt; have := ra.isLt; have := rb.isLt; simp only [encode, encodeR, BitVec.toNat_ofNat]; simp; omega)

theorem gcd (rd : RegIdx) (ra : RegIdx) (rb : RegIdx) : Statement (.gcd rd ra rb) :=
  of_fields _ "GCD" 0x40000000 0xFC003FFF [("rd", 25, 22), ("ra", 21, 18), ("rb", 17, 14)]
    26 6 0 14 16 0 (by decide) rfl (by decide) (by decide)
    (by decide) (by decide) (by decide) (by decide)
    (by have := rd.isLt; have := ra.isLt; have := rb.isLt; simp only [encode, encodeR, BitVec.toNat_ofNat]; simp; omega)

theorem modexp (rd : RegIdx) (ra : RegIdx) (rb : RegIdx) (rc : RegIdx) : Statement (.modexp rd ra rb rc) :=
  of_fields _ "MODEXP" 0x44000000 0xFC0003FF [("rd", 25, 22), ("ra", 21, 18), ("rb", 17, 14), ("rc", 13, 10)]
    26 6 0 10 17 0 (by decide) rfl (by decide) (by decide)
    (by decide) (by decide) (by decide) (by decide)
    (by have := rd.isLt; have := ra.isLt; have := rb.isLt; have := rc.isLt; simp only [encode, encodeR, BitVec.toNat_ofNat]; simp; omega)

theorem modinv (rd : RegIdx) (ra : RegIdx) (rb : RegIdx) : Statement (.modinv rd ra rb) :=
  of_fields _ "MODINV" 0x48000000 0xFC003FFF [("rd", 25, 22), ("ra", 21, 18), ("rb", 17, 14)]
    26 6 0 14 18 0 (by decide) rfl (by decide) (by decide)
    (by decide) (by decide) (by decide) (by decide)
    (by have := rd.isLt; have := ra.isLt; have := rb.isLt; simp only [encode, encodeR, BitVec.toNat_ofNat]; simp; omega)

theorem bAL (off : Int) : Statement (.bAL off) :=
  of_fields _ "B.AL" 0x80000000 0xFFFF0000 [("off16", 15, 0)]
    26 6 16 10 32 0 (by decide) rfl (by decide) (by decide)
    (by decide) (by decide) (by decide) (by decide)
    (by have := immField_lt off; simp only [encode, encodeB, BitVec.toNat_ofNat]; simp; omega)

theorem bEQ (off : Int) : Statement (.bEQ off) :=
  of_fields _ "B.EQ" 0x80400000 0xFFFF0000 [("off16", 15, 0)]
    26 6 16 10 32 64 (by decide) rfl (by decide) (by decide)
    (by decide) (by decide) (by decide) (by decide)
    (by have := immField_lt off; simp only [encode, encodeB, BitVec.toNat_ofNat]; simp; omega)

theorem bNE (off : Int) : Statement (.bNE off) :=
  of_fields _ "B.NE" 0x80800000 0xFFFF0000 [("off16", 15, 0)]
    26 6 16 10 32 128 (by decide) rfl (by decide) (by decide)
    (by decide) (by decide) (by decide) (by decide)
    (by have := immField_lt off; simp only [encode, encodeB, BitVec.toNat_ofNat]; simp; omega)

theorem bLT (off : Int) : Statement (.bLT off) :=
  of_fields _ "B.LT" 0x80C00000 0xFFFF0000 [("off16", 15, 0)]
    26 6 16 10 32 192 (by decide) rfl (by decide) (by decide)
    (by decide) (by decide) (by decide) (by decide)
    (by have := immField_lt off; simp only [encode, encodeB, BitVec.toNat_ofNat]; simp; omega)

theorem bGE (off : Int) : Statement (.bGE off) :=
  of_fields _ "B.GE" 0x81000000 0xFFFF0000 [("off16", 15, 0)]
    26 6 16 10 32 256 (by decide) rfl (by decide) (by decide)
    (by decide) (by decide) (by decide) (by decide)
    (by have := immField_lt off; simp only [encode, encodeB, BitVec.toNat_ofNat]; simp; omega)

theorem bGT (off : Int) : Statement (.bGT off) :=
  of_fields _ "B.GT" 0x81400000 0xFFFF0000 [("off16", 15, 0)]
    26 6 16 10 32 320 (by decide) rfl (by decide) (by decide)
    (by decide) (by decide) (by decide) (by decide)
    (by have := immField_lt off; simp only [encode, encodeB, BitVec.toNat_ofNat]; simp; omega)

theorem bLE (off : Int) : Statement (.bLE off) :=
  of_fields _ "B.LE" 0x81800000 0xFFFF0000 [("off16", 15, 0)]
    26 6 16 10 32 384 (by decide) rfl (by decide) (by decide)
    (by decide) (by decide) (by decide) (by decide)
    (by have := immField_lt off; simp only [encode, encodeB, BitVec.toNat_ofNat]; simp; omega)

theorem bNI (off : Int) : Statement (.bNI off) :=
  of_fields _ "B.NI" 0x81C00000 0xFFFF0000 [("off16", 15, 0)]
    26 6 16 10 32 448 (by decide) rfl (by decide) (by decide)
    (by decide) (by decide) (by decide) (by decide)
    (by have := immField_lt off; simp only [encode, encodeB, BitVec.toNat_ofNat]; simp; omega)

theorem bIV (off : Int) : Statement (.bIV off) :=
  of_fields _ "B.IV" 0x82000000 0xFFFF0000 [("off16", 15, 0)]
    26 6 16 10 32 512 (by decide) rfl (by decide) (by decide)
    (by decide) (by decide) (by decide) (by decide)
    (by have := immField_lt off; simp only [encode, encodeB, BitVec.toNat_ofNat]; simp; omega)

end Sys2Proof.Laws.EncodeMatchesRow
end

