-- ==== Sys2Proof/Tests/Slice0.lean ====
section
/-! SUPPORT. Tests with expected results from spec/95_test_vectors.md and the examples of the rules, the WellFormed smoke,
and for every statement with hypotheses a witness that meets them together. -/

namespace Sys2Proof.Machine

set_option Elab.async false

/-! ## Helpers -/

/-- The reset state with some registers set. -/
def withRegs (rs : List (RegIdx × Int)) : State := rs.foldl (fun s p => s.setReg p.1 p.2) State.reset

/-- A run about to execute the word `w` at pc 0. -/
def running (w : Nat) (rs : List (RegIdx × Int)) : State := (withRegs rs).withFetchWord 32 w

/-- Does the outcome answer a next state? -/
def isNext (o : Host.Outcome State Fault Refusal) : Bool :=
  match o with
  | .next _ => true
  | .fault _ => false
  | .refused _ => false

/-- The next state of an outcome. -/
def nextOf (o : Host.Outcome State Fault Refusal) : State :=
  match o with
  | .next t => t
  | .fault _ => State.reset
  | .refused _ => State.reset

theorem eq_next_of_isNext (o : Host.Outcome State Fault Refusal) (h : isNext o = true) : o = .next (nextOf o) := by
  cases o <;> first | rfl | simp [isNext] at h

/-- One step. -/
def after (s : State) : State := nextOf (step s)

/-- The word, run with these registers, writes these registers and no other, with these flags, and goes on. -/
def writes (w : Nat) (rs ws : List (RegIdx × Int)) (z n ni : Bool) : Bool :=
  let t := after (running w rs)
  decide (t.regs = (ws.foldl (fun s p => s.setReg p.1 p.2) (withRegs rs)).regs ∧ t.z = z ∧ t.n = n ∧ t.ni = ni ∧ t.pc = 1
    ∧ t.err = false ∧ t.busy = true)

/-- The word, run with these registers, faults with this code and writes nothing. -/
def faultsAs (w : Nat) (rs : List (RegIdx × Int)) (code : ErrCode) : Bool :=
  let t := after (running w rs)
  decide (t.regs = (withRegs rs).regs ∧ t.z = false ∧ t.n = false ∧ t.ni = false ∧ t.pc = 0 ∧ t.err = true
    ∧ t.errcode = code ∧ t.busy = false ∧ t.done = false)

/-- The host's accesses in order, from a state. -/
def accesses (l : List HostAccess) (s : State) : State := l.foldl (fun s a => hostAccess a s) s

/-! ## WellFormed: an ill-formed term for each check -/

theorem smoke_wellFormed :
    [Instr.ldi 0 32768, .ldi 0 (-32769), .shfti 1 2 32768, .shfti 1 2 (-32769), .bAL 32768, .bEQ 32768, .bNE (-32769),
      .bLT 32768, .bGE 32768, .bGT (-32769), .bLE 32768, .bNI 40000, .bIV (-40000)].all
      (fun i => !i.wellFormed) = true := by decide

/-! ## Decode: words written out from the encodings of R111 to R119 -/

theorem test_decode_move_arith :
    decode 0x04000000 = .ok .nop ∧ decode 0x08000000 = .ok .halt ∧ decode 0x0CC0FFFB = .ok (.ldi 3 (-5)) ∧
    decode 0x10480000 = .ok (.mov 1 2) ∧ decode 0x1448C200 = .ok (.add 1 2 3) ∧ decode 0x1448C000 = .ok (.addM 1 2 3) ∧
    decode 0x1848C200 = .ok (.sub 1 2 3) ∧ decode 0x1848C000 = .ok (.subM 1 2 3) ∧
    decode 0x1C48C200 = .ok (.mul 1 2 3) ∧ decode 0x1C48C000 = .ok (.mulM 1 2 3) ∧
    decode 0x2108D600 = .ok (.div 4 2 3 5) ∧ decode 0x2108D400 = .ok (.divM 4 2 3 5) ∧
    decode 0x2408C200 = .ok (.cmp 2 3) ∧ decode 0x2408C000 = .ok (.cmpM 2 3) := by decide

theorem test_decode_shift_logic_number :
    decode 0x2848C000 = .ok (.shft 1 2 3) ∧ decode 0x2C48FFFC = .ok (.shfti 1 2 (-4)) ∧
    decode 0x3048C000 = .ok (.and 1 2 3) ∧ decode 0x3448C000 = .ok (.or 1 2 3) ∧ decode 0x3848C000 = .ok (.xor 1 2 3) ∧
    decode 0x4048C000 = .ok (.gcd 1 2 3) ∧ decode 0x45048C00 = .ok (.modexp 4 1 2 3) ∧
    decode 0x4848C000 = .ok (.modinv 1 2 3) := by decide

theorem test_decode_branches :
    decode 0x8000FFFC = .ok (.bAL (-4)) ∧ decode 0x80400002 = .ok (.bEQ 2) ∧ decode 0x80800002 = .ok (.bNE 2) ∧
    decode 0x80C00002 = .ok (.bLT 2) ∧ decode 0x81000002 = .ok (.bGE 2) ∧ decode 0x81400002 = .ok (.bGT 2) ∧
    decode 0x81800002 = .ok (.bLE 2) ∧ decode 0x81C0000B = .ok (.bNI 11) ∧ decode 0x82000002 = .ok (.bIV 2) := by decide

/-- The operand bounds of every format, as bit patterns: all register fields 15 and the immediate 0xFFFF or 0x8000. -/
theorem test_decode_bounds :
    decode 0x0FC08000 = .ok (.ldi 15 (-32768)) ∧ decode 0x2FFCFFFF = .ok (.shfti 15 15 (-1)) ∧
    decode 0x17FFC200 = .ok (.add 15 15 15) ∧ decode 0x23FFFE00 = .ok (.div 15 15 15 15) ∧
    decode 0x47FFFC00 = .ok (.modexp 15 15 15 15) ∧ decode 0x82007FFF = .ok (.bIV 32767) := by decide

/-- The decode faults of 95_test_vectors.md. -/
def illegalWords : List Word :=
  [0x00000000, 0x3C000000, 0x4C000000, 0xFC000000, 0x04000001, 0x0C440000, 0x0C410000, 0x1448C201, 0x1448C600,
   0x2448C200, 0x2848C200, 0x82400000, 0x80010000, 0x45048E00]

theorem test_decode_faults : illegalWords.all (fun w => faultsAs w.toNat [] .illegal) = true := by decide +kernel

/-- The table's words reach the decoder as the host lays them out. -/
theorem test_decodeTableWord :
    decodeTableWord 32 0x1448C200 = some (.add 1 2 3) ∧ decodeTableWord 32 0x3C000000 = none := by decide

/-! ## Commands, one step each (95_test_vectors.md §2) -/

theorem test_ldi : writes 0x0CC0FFFB [] [(3, -5)] false true false = true ∧
    writes 0x0C400000 [(1, 0x63)] [(1, 0)] true false false = true := by decide

theorem test_mov : writes 0x10480000 [(2, -0x100000000)] [(1, -0x100000000)] false true false = true := by decide

theorem test_add : writes 0x1448C200 [(2, -7), (3, 5)] [(1, -2)] false true false = true ∧
    writes 0x14888200 [(2, -0x15)] [(2, -0x2A)] false true false = true := by decide

theorem test_add_overflow : faultsAs 0x1448C200 [(2, 2 ^ 4096 - 1), (3, 1)] .overflow = true := by decide +kernel

theorem test_addM : writes 0x1448C000 [(2, -7), (3, 5)] [(1, 12)] false false false = true := by decide

theorem test_sub : writes 0x1848C200 [(2, -7), (3, 5)] [(1, -12)] false true false = true ∧
    writes 0x1848C200 [(2, 7), (3, 7)] [(1, 0)] true false false = true := by decide

theorem test_subM : writes 0x1848C000 [(2, -10), (3, 7)] [(1, 3)] false false false = true ∧
    faultsAs 0x1848C000 [(2, 7), (3, -10)] .precond = true := by decide

theorem test_mul : writes 0x1C48C200 [(2, -6), (3, 7)] [(1, -42)] false true false = true ∧
    writes 0x1C488200 [(2, 0xFFFFFFFFFFFFFFFF)] [(1, 0xFFFFFFFFFFFFFFFE0000000000000001)] false false false = true := by
  decide +kernel

theorem test_mul_capacity : writes 0x1C48C200 [(2, 2 ^ 2047), (3, 2 ^ 2048)] [(1, 2 ^ 4095)] false false false = true ∧
    faultsAs 0x1C48C200 [(2, 2 ^ 2048), (3, 2 ^ 2048)] .overflow = true := by decide +kernel

theorem test_mulM : writes 0x1C48C000 [(2, -6), (3, 7)] [(1, 42)] false false false = true := by decide +kernel

theorem test_div_signs : writes 0x2108D600 [(2, -7), (3, 2)] [(4, -3), (5, -1)] false true false = true ∧
    writes 0x2108D600 [(2, 7), (3, -2)] [(4, -3), (5, 1)] false false false = true ∧
    writes 0x2108D600 [(2, -7), (3, 7)] [(4, -1), (5, 0)] true false false = true ∧
    faultsAs 0x2108D600 [(2, 7), (3, 0)] .divzero = true := by decide +kernel

theorem test_div_shared_registers : writes 0x2108D200 [(2, -7), (3, 2)] [(4, -1)] false true false = true ∧
    writes 0x2088CE00 [(2, 100), (3, 7)] [(2, 14), (3, 2)] false false false = true := by decide +kernel

theorem test_divM : writes 0x2108D400 [(2, -7), (3, 2)] [(4, 3), (5, 1)] false false false = true ∧
    writes 0x2108D400 [(2, -7), (3, -7)] [(4, 1), (5, 0)] true false false = true := by decide +kernel

theorem test_cmp : writes 0x2408C200 [(2, -7), (3, -3)] [] false true false = true ∧
    writes 0x2408C200 [(2, 0), (3, -1)] [] false false false = true := by decide

theorem test_cmpM : writes 0x2408C000 [(2, -7), (3, 7)] [] true false false = true ∧
    writes 0x2408C000 [(2, 3), (3, -7)] [] false true false = true := by decide

theorem test_shft : writes 0x2848C000 [(2, -5), (3, 0x21)] [(1, 0xA00000000)] false false false = true ∧
    writes 0x2848C000 [(2, 0x3039), (3, -0x10000000000)] [(1, 0)] true false false = true ∧
    writes 0x2848C000 [(2, 0), (3, 0x10000000000)] [(1, 0)] true false false = true := by decide +kernel

theorem test_shft_capacity : writes 0x2848C000 [(2, 1), (3, 0xFFF)] [(1, 2 ^ 4095)] false false false = true ∧
    faultsAs 0x2848C000 [(2, 1), (3, 0x1000)] .overflow = true := by decide +kernel

theorem test_shfti : writes 0x2C48FFFC [(2, 0x100000000)] [(1, 0x10000000)] false false false = true ∧
    writes 0x2C480000 [(2, -9)] [(1, 9)] false false false = true := by decide +kernel

theorem test_and : writes 0x3048C000 [(2, 0xFFFFFFFF0000000F), (3, -0x3C)] [(1, 0xC)] false false false = true := by
  decide +kernel

theorem test_or : writes 0x3448C000 [(2, -5), (3, 0)] [(1, 5)] false false false = true := by decide +kernel

theorem test_xor : writes 0x3848C000 [(2, 0xFFFFFFFF00000000), (3, 0xFFFFFFFF00000001)] [(1, 1)] false false false = true := by
  decide +kernel

theorem test_gcd : writes 0x4048C000 [(2, 1071), (3, -462)] [(1, 21)] false false false = true ∧
    writes 0x4048C000 [(2, 0), (3, 18)] [(1, 18)] false false false = true := by decide +kernel

theorem test_modexp : writes 0x45048C00 [(1, 4), (2, 13), (3, 497)] [(4, 445)] false false false = true ∧
    writes 0x45048C00 [(1, -3), (2, 3), (3, 7)] [(4, -6)] false true false = true ∧
    writes 0x45048C00 [(1, 5), (2, 0), (3, 5)] [(4, 0)] true false false = true := by decide +kernel

theorem test_modexp_faults : faultsAs 0x45048C00 [(1, 4), (2, -1), (3, 0)] .divzero = true ∧
    faultsAs 0x45048C00 [(1, 4), (2, -1), (3, 497)] .range = true := by decide +kernel

theorem test_modinv : writes 0x4848C000 [(2, 17), (3, 3120)] [(1, 2753)] false false false = true ∧
    writes 0x4848C000 [(2, 6), (3, 9)] [(1, 8)] false false true = true ∧
    writes 0x4848C000 [(2, 5), (3, 1)] [(1, 0)] true false false = true := by decide +kernel

theorem test_modinv_faults : faultsAs 0x4848C000 [(2, 17), (3, 0)] .divzero = true ∧
    faultsAs 0x4848C000 [(2, -17), (3, 3120)] .range = true := by decide +kernel

theorem test_nop : writes 0x04000000 [(2, 7)] [] false false false = true := by decide

theorem test_halt : let t := after (running 0x08000000 [])
    t.done = true ∧ t.busy = false ∧ t.err = false ∧ t.pc = 1 := by decide

/-- The branch table of 95_test_vectors.md: the pc after each branch by 2 at pc 0, for Z N NI = 000, 100, 010 and 001; not
taken, pc is 1 (the table counts the HALT after it). -/
def branchPcs (w : Nat) : List Nat :=
  [(false, false, false), (true, false, false), (false, true, false), (false, false, true)].map fun f =>
    (after { running w [] with z := f.1, n := f.2.1, ni := f.2.2 }).pc

theorem test_branch_table :
    branchPcs 0x80000002 = [2, 2, 2, 2] ∧ branchPcs 0x80400002 = [1, 2, 1, 1] ∧ branchPcs 0x80800002 = [2, 1, 2, 2] ∧
    branchPcs 0x80C00002 = [1, 1, 2, 1] ∧ branchPcs 0x81000002 = [2, 2, 1, 2] ∧ branchPcs 0x81400002 = [2, 1, 1, 2] ∧
    branchPcs 0x81800002 = [1, 2, 2, 1] ∧ branchPcs 0x81C00002 = [1, 1, 1, 2] ∧ branchPcs 0x82000002 = [2, 2, 2, 1] := by
  decide +kernel

/-- A branch back from pc 1 by 4 wraps to the top of command memory (R262, R37). -/
theorem test_branch_wraps : (after ({ State.reset with pc := 1 }.withFetchWord 32 0x8000FFFC)).pc = 1021 ∧
    (after ({ State.reset with pc := 1023 }.withFetchWord 32 0x04000000)).pc = 0 := by decide +kernel

/-! ## Host port (95_test_vectors.md, H1 to H18) -/

theorem test_H1_import :
    let s := accesses [.write 0x1000 0xFFFFFFFF, .write 0x1004 0xFFFFFFFF, .write 0x1008 0,
      .write 0x014 3, .write 0x018 0, .write 0x010 4, .write 0x01C 1] State.reset
    s.reg 4 = 0xFFFFFFFFFFFFFFFF ∧ (hostRead 0x020 s).rdata = 2 ∧ (hostRead 0x024 s).rdata = 0 ∧ s.xerr = false := by
  decide +kernel

theorem test_H2_zero_has_no_sign :
    let s := accesses [.write 0x1000 0, .write 0x014 1, .write 0x018 1, .write 0x010 2,
      .write 0x01C 1] State.reset
    s.reg 2 = 0 ∧ (hostRead 0x020 s).rdata = 1 ∧ (hostRead 0x024 s).rdata = 0 := by decide +kernel

theorem test_H3_H4_H7_xerr :
    (accesses [.write 0x014 0, .write 0x01C 1] State.reset).xerr = true ∧
    (accesses [.write 0x014 129, .write 0x01C 1] State.reset).xerr = true ∧
    (accesses [.write 0x01C 3] State.reset).xerr = true ∧
    (accesses [.write 0x014 129, .write 0x01C 1] State.reset).regs = State.reset.regs := by decide

theorem test_H5_export :
    let s := accesses [.write 0x010 3, .write 0x014 2, .write 0x01C 2] (withRegs [(3, -(2 ^ 64 - 1))])
    s.buf 0 = 0xFFFFFFFF ∧ s.buf 1 = 0xFFFFFFFF ∧ s.xsign = true ∧ s.mem.length = 8 ∧ s.xerr = false := by decide +kernel

theorem test_H6_export_mismatch :
    let s := accesses [.write 0x010 3, .write 0x014 3, .write 0x01C 2] (withRegs [(3, -(2 ^ 64 - 1))])
    s.xerr = true ∧ s.mem = [] ∧ s.xsign = false := by decide +kernel

theorem test_H8_busy_refused :
    let s := accesses [.write 0x010 5, .read 0x020] (running 0x04000000 [])
    s.herr = true ∧ s.sel = 0 := by decide

theorem test_H9_start :
    let s := accesses [.write 0x004 3] State.reset
    s.busy = true ∧ s.done = false ∧ s.err = false ∧ s.abortp = false := by decide

theorem test_H10_abort_while_busy :
    let s := accesses [.write 0x004 3] (running 0x04000000 [])
    s.abortp = true ∧ s.herr = true ∧ s.busy = true ∧ (after s).errcode = .abort ∧ (after s).pc = 0 := by decide

theorem test_H11_soft_reset :
    let s := accesses [.write 0x004 5] { running 0x04000000 [(3, 9)] with pc := 7, z := true }
    s.regs = State.reset.regs ∧ s.pc = 0 ∧ s.z = false ∧ s.busy = false ∧ s.imem 0 = 0x04000000 := by decide +kernel

theorem test_H12_irq :
    let s := after (accesses [.write 0x4000 0x08000000, .write 0x004 8, .write 0x004 9] State.reset)
    s.done = true ∧ s.irq = true ∧ (hostRead 0x004 s).rdata = 8 ∧ (hostWrite 0x008 2 s).done = false ∧
      (hostWrite 0x008 2 s).irq = false := by decide +kernel

theorem test_H13_clear_err :
    let s := hostWrite 0x008 4 (after (running 0x20C49200 [(1, 5)]))
    s.err = false ∧ s.errcode = .none ∧ s.pc = 0 := by decide +kernel

theorem test_H14_H15_H16_reads : (hostWrite 0x00C 0x12345 State.reset).pc = 0x345 ∧
    (hostRead 0x00D (hostWrite 0x00C 0x12345 State.reset)).rdata = 0x345 ∧ (hostRead 0x02C State.reset).rdata = 0 ∧
    (hostRead 0x000 State.reset).rdata = 0x4D504131 ∧ (hostRead 0x028 State.reset).rdata = 0x000A0080 := by decide +kernel

theorem test_H17_byte_lanes :
    let s := hostWrite 0x1000 0x11223344 State.reset
    s.windowByte 0x1000 = 0x44 ∧ s.windowByte 0x1003 = 0x11 ∧ s.readByte 0x1003 = 0x11 := by decide +kernel

/-- The loop of P7 goes on; an abort that lands while a command is in progress waits for it and stops the next one. -/
theorem test_H18_abort :
    let s := accesses [.write 0x4014 0x80000000, .write 0x00C 5, .write 0x004 9] State.reset
    (after s).pc = 5 ∧ (after s).busy = true ∧
    (let a := hostWrite 0x004 10 (engineBoundary s);
     (after a).busy = true ∧ (after (after a)).errcode = .abort ∧ (after (after a)).pc = 5 ∧
       (after (after a)).irq = true ∧ (after (after a)).abortp = false) := by decide +kernel

theorem test_window : windowOffset { Config.reference with hostBase := 0x80000000 } 0x80001004 = some 0x1004 ∧
    windowOffset { Config.reference with hostBase := 0x80000000 } 0x80008000 = none := by decide +kernel

/-! ## Assembler (programs P3 and P5) -/

theorem test_assembler : (assemble ["LDI   r1, 1071".toList, "loop: CMP r4,r0 ; hi".toList, "  b.eq done".toList,
      "MOD r6, r3, r4".toList, " J loop".toList, "done: SHR r5, r5, 3".toList, "HALT".toList]).map
      (fun l => l.map encode) =
    some [0x0C40042F, 0x24100200, 0x80400003, 0x218D1A00, 0x8000FFFD, 0x2D54FFFD, 0x08000000] := by decide +kernel

theorem test_assembler_range : assemble ["LDI r1, 0xFFFF".toList] = none ∧
    assemble ["LDI r1, -0x8000".toList] = some [.ldi 1 (-32768)] ∧ assemble ["B.AL nowhere".toList] = none := by
  decide +kernel

/-! ## States with the invariant -/

/-- The registers fit the reference capacity. -/
abbrev fitAll (rs : List (RegIdx × Int)) : Prop :=
  ∀ i : RegIdx, ((withRegs rs).reg i).natAbs < 2 ^ (32 * Config.reference.lMax)

/-- A run about to execute `w`, with the run-control bits and inputs a witness needs. -/
def midRun (w : Nat) (rs : List (RegIdx × Int)) (abortp inFlight ie : Bool) (inputs : List Event) : State :=
  { State.reset with
    regs := (withRegs rs).regs, mem := Memory.writeWord [] (imemAddr 0) (BitVec.ofNat 32 w), busy := true,
    abortp := abortp, inFlight := inFlight, ie := ie, inputs := inputs }

theorem midRun_inv (w : Nat) (rs : List (RegIdx × Int)) (abortp inFlight ie : Bool) (inputs : List Event)
    (h : fitAll rs) : (midRun w rs abortp inFlight ie inputs).Inv where
  cfg_valid := show Config.reference.valid = true by decide
  regs_fit := h
  pc_lt := show 0 < Config.reference.imemWords by decide +kernel
  mem_wf := Memory.wf_writeWord [] _ _ rfl
  mem_mapped := Memory.mapped_writeWord _ [] _ _ (by simp [Memory.mapped]) (.inr ⟨0, show 0 < Config.reference.imemWords by decide +kernel, rfl⟩)
  done_err := by simp [midRun, State.reset, State.atPowerOn]
  errcode_err := by simp [midRun, State.reset, State.atPowerOn]
  busy_clear := by simp [midRun, State.reset, State.atPowerOn]
  abortp_busy := by simp [midRun]
  inFlight_busy := by simp [midRun]

/-- An idle machine with registers, SEL, COUNT and XSIGN. -/
def idle (rs : List (RegIdx × Int)) (sel : RegIdx) (count : Word) (xsign : Bool) : State :=
  { State.reset with regs := (withRegs rs).regs, sel := sel, count := count, xsign := xsign }

theorem idle_inv (rs : List (RegIdx × Int)) (sel : RegIdx) (count : Word) (xsign : Bool)
    (h : fitAll rs) : (idle rs sel count xsign).Inv where
  cfg_valid := show Config.reference.valid = true by decide
  regs_fit := h
  pc_lt := show 0 < Config.reference.imemWords by decide +kernel
  mem_wf := rfl
  mem_mapped := by simp [Memory.mapped, idle, State.reset, State.atPowerOn]
  done_err := by simp [idle, State.reset, State.atPowerOn]
  errcode_err := by simp [idle, State.reset, State.atPowerOn]
  busy_clear := by simp [idle, State.reset, State.atPowerOn]
  abortp_busy := by simp [idle, State.reset, State.atPowerOn]
  inFlight_busy := by simp [idle, State.reset, State.atPowerOn]

/-! ## Witnesses: encoding -/

/-- DecodeEncodeRoundTrip, at the bounds of every operand kind. -/
theorem witness_wellFormed : [Instr.ldi 0 (-32768), .ldi 15 32767, .shfti 15 0 (-32768), .bAL 32767, .bIV (-32768),
    .div 15 0 15 0, .modexp 0 15 0 15, .nop, .cmpM 15 15].all Instr.wellFormed = true := by decide

/-- EncodeDecodeRoundTrip and the first clause of DecodeFollowsTheRowTable. -/
theorem witness_decodes : decode 0x82008000 = .ok (.bIV (-32768)) ∧ decode 0x1FFFC000 = .ok (.mulM 15 15 15) := by decide

/-- The second clause of DecodeFollowsTheRowTable; and words that match no row (UnmatchedWordRaisesIllegal). -/
theorem witness_rows : (∃ r ∈ opTable, (0x82008000 : Word) &&& r.mask = r.pattern) ∧
    illegalWords.all (fun w => opTable.all fun r => decide (w &&& r.mask ≠ r.pattern)) = true := by decide +kernel

/-- For every row, the pattern and mask that the statements use, and a word with operand fields set that matches it. -/
def rowWords : List (Word × Word × Word) :=
  [(0x04000000, 0xFFFFFFFF, 0x04000000), (0x08000000, 0xFFFFFFFF, 0x08000000), (0x0C000000, 0xFC3F0000, 0x0FC08001),
   (0x10000000, 0xFC03FFFF, 0x13FC0000), (0x14000200, 0xFC003FFF, 0x17FFC200), (0x14000000, 0xFC003FFF, 0x17FFC000),
   (0x18000200, 0xFC003FFF, 0x1BFFC200), (0x18000000, 0xFC003FFF, 0x1BFFC000), (0x1C000200, 0xFC003FFF, 0x1FFFC200),
   (0x1C000000, 0xFC003FFF, 0x1FFFC000), (0x20000200, 0xFC0003FF, 0x23FFFE00), (0x20000000, 0xFC0003FF, 0x23FFFC00)] ++
  [(0x24000200, 0xFFC03FFF, 0x243FC200), (0x24000000, 0xFFC03FFF, 0x243FC000), (0x28000000, 0xFC003FFF, 0x2BFFC000),
   (0x2C000000, 0xFC030000, 0x2FFC8001), (0x30000000, 0xFC003FFF, 0x33FFC000), (0x34000000, 0xFC003FFF, 0x37FFC000),
   (0x38000000, 0xFC003FFF, 0x3BFFC000), (0x40000000, 0xFC003FFF, 0x43FFC000), (0x44000000, 0xFC0003FF, 0x47FFFC00),
   (0x48000000, 0xFC003FFF, 0x4BFFC000)] ++
  [(0x80000000, 0xFFFF0000, 0x80008001), (0x80400000, 0xFFFF0000, 0x80407FFF), (0x80800000, 0xFFFF0000, 0x80808000),
   (0x80C00000, 0xFFFF0000, 0x80C0FFFF), (0x81000000, 0xFFFF0000, 0x81000000), (0x81400000, 0xFFFF0000, 0x81408001),
   (0x81800000, 0xFFFF0000, 0x81808001), (0x81C00000, 0xFFFF0000, 0x81C08001), (0x82000000, 0xFFFF0000, 0x82008001)]

/-- EncodedAs, for every row. -/
theorem witness_encodedAs : rowWords.all (fun r => decide (r.2.2 &&& r.2.1 = r.1)) = true := by decide +kernel

/-- IllegalUnless and the illegal clause of BranchResults: for every opcode, a word of it that matches none of its rows. -/
theorem witness_illegalUnless :
    [(0x04000001 : Word), 0x08000001, 0x0C010000, 0x10000001, 0x14000001, 0x18000400, 0x1C000001, 0x20000001, 0x24400200,
      0x28000200, 0x2C010000, 0x30000200, 0x34000001, 0x38000400, 0x40000200, 0x44000200, 0x48000400, 0x82400000,
      0x83C00000, 0x80010000, 0x823F0000].all (fun w =>
      opTable.all fun r => decide (w &&& r.mask ≠ r.pattern)) = true ∧
    field 0x82400000 25 22 = 9 ∧ field 0x80010000 21 16 = 1 ∧ field 0x823F0000 21 16 = 63 := by decide +kernel

/-! ## Witnesses: the engine step -/

theorem midRun_turn (w : Nat) (rs : List (RegIdx × Int)) (ab fl ie : Bool) :
    EngineTurn (midRun w rs ab fl ie []) (midRun w rs ab fl ie []) ∧
    EngineTurn (midRun w rs ab fl ie [.engine, .powerOn]) (midRun w rs ab fl ie [.powerOn]) :=
  ⟨.inl ⟨rfl, rfl⟩, .inr ⟨_, rfl, rfl⟩⟩

/-- StepRunsTheDecodedCommand: at a boundary with no abort, and in flight with one. -/
theorem witness_step_runs :
    (∃ s s' : State, EngineTurn s s' ∧ s.busy = true ∧ s.abortp = false ∧ s.inFlight = false ∧
      decode (s.imem s.pc) = .ok (.add 1 2 3)) ∧
    (∃ s s' : State, EngineTurn s s' ∧ s.busy = true ∧ s.abortp = true ∧ s.inFlight = true ∧
      decode (s.imem s.pc) = .ok (.add 1 2 3)) :=
  ⟨⟨_, _, (midRun_turn 0x1448C200 [] false false false).2, by decide, by decide, by decide, by decide⟩,
   ⟨_, _, (midRun_turn 0x1448C200 [] true true false).1, by decide, by decide, by decide, by decide⟩⟩

/-- EngineStepOrder: idle, the abort stop, a command and an illegal word; the last is RaisesIllegal's and
UnmatchedWordRaisesIllegal's too. -/
theorem witness_engine_order :
    (∃ s s' : State, EngineTurn s s' ∧ s.busy = false) ∧
    (∃ s s' : State, EngineTurn s s' ∧ s.busy = true ∧ s.abortp = true ∧ s.inFlight = false) ∧
    (∃ s s' : State, EngineTurn s s' ∧ s.busy = true ∧ s.abortp = false ∧ decode (s.imem s.pc) = .ok .halt) ∧
    (∃ s s' : State, EngineTurn s s' ∧ s.busy = true ∧ s.abortp = false ∧ s.imem s.pc = 0x3C000000 ∧
      ∃ e, decode (s.imem s.pc) = .error e) :=
  ⟨⟨State.reset, _, .inl ⟨rfl, rfl⟩, rfl⟩,
   ⟨_, _, (midRun_turn 0 [] true false false).2, by decide, by decide, by decide⟩,
   ⟨_, _, (midRun_turn 0x08000000 [] false true false).2, by decide, by decide, by decide⟩,
   ⟨_, _, (midRun_turn 0x3C000000 [] false false false).1, by decide, by decide, by decide,
     ⟨_, show decode 0x3C000000 = .error _ from rfl⟩⟩⟩

/-- EngineStepOrder, the other moves: a host read and write, a power-on, and the boundary in each of its cases. -/
theorem witness_other_moves :
    (∃ s s' : State, HostTurn s s' (.read 0x4000)) ∧ (∃ s s' : State, HostTurn s s' (.write 0x004 2)) ∧
    (∃ s s' : State, EventTurn s s' .powerOn ∧ s.busy = true) ∧
    (∃ s s' : State, EventTurn s s' .boundary ∧ s.busy = false) ∧
    (∃ s s' : State, EventTurn s s' .boundary ∧ s.busy = true ∧ s.inFlight = true) ∧
    (∃ s s' : State, EventTurn s s' .boundary ∧ s.busy = true ∧ s.inFlight = false ∧ s.abortp = true) ∧
    (∃ s s' : State, EventTurn s s' .boundary ∧ s.busy = true ∧ s.inFlight = false ∧ s.abortp = false) :=
  ⟨⟨midRun 0 [] false false false [.host (.read 0x4000), .engine], _, _, rfl, rfl⟩,
   ⟨midRun 0 [] false false false [.host (.write 0x004 2)], _, _, rfl, rfl⟩,
   ⟨midRun 0 [] false true false [.powerOn], _, ⟨_, rfl, rfl⟩, rfl⟩,
   ⟨{ State.reset with inputs := [.boundary] }, _, ⟨_, rfl, rfl⟩, rfl⟩,
   ⟨midRun 0 [] false true false [.boundary], _, ⟨_, rfl, rfl⟩, rfl, rfl⟩,
   ⟨midRun 0 [] true false false [.boundary], _, ⟨_, rfl, rfl⟩, rfl, rfl, rfl⟩,
   ⟨midRun 0 [] false false false [.boundary], _, ⟨_, rfl, rfl⟩, rfl, rfl, rfl⟩⟩

/-! ## Witnesses: results -/

/-- AddAndAddM, SubAndSubM and MulAndMulM: the largest value that fits and the smallest that does not. -/
theorem witness_capacity (s t : State) (hs : s = withRegs [(2, 2 ^ 4096 - 2), (3, 1), (4, -2)])
    (ht : t = withRegs [(2, 2 ^ 4096 - 1), (3, -1), (4, 1), (5, 2 ^ 4095), (6, -2)]) :
    s.cfg.valid = true ∧ t.cfg.valid = true ∧
    (s.reg 2 + s.reg 3).natAbs < 2 ^ (32 * s.cfg.lMax) ∧ |s.reg 2| + |s.reg 3| < 2 ^ (32 * s.cfg.lMax) ∧
    2 ^ (32 * s.cfg.lMax) ≤ (t.reg 2 + t.reg 4).natAbs ∧ 2 ^ (32 * s.cfg.lMax) ≤ |t.reg 2| + |t.reg 3| ∧
    (s.reg 2 - s.reg 3).natAbs < 2 ^ (32 * s.cfg.lMax) ∧ 2 ^ (32 * s.cfg.lMax) ≤ (t.reg 2 - t.reg 3).natAbs ∧
    |s.reg 4| ≤ |s.reg 2| ∧ |s.reg 3| < |s.reg 4| ∧ |s.reg 3| ≤ |s.reg 3| ∧
    (t.reg 2 * t.reg 3).natAbs < 2 ^ (32 * s.cfg.lMax) ∧ 2 ^ (32 * s.cfg.lMax) ≤ (t.reg 5 * t.reg 6).natAbs := by
  subst hs ht; decide +kernel

/-- DivTruncates and DivMOnMagnitudes. -/
theorem witness_divisors : (withRegs [(2, -1)]).reg 2 ≠ 0 ∧ (withRegs [(2, -1)]).reg 3 = 0 := by decide

/-- ShiftResults: amounts at the edge of the capacity, at zero and below it; and a zero operand at a huge amount. -/
theorem witness_shifts (s : State) (hs : s = withRegs [(2, -1), (3, 4095), (4, 4096), (5, -1), (6, 2 ^ 70)]) :
    s.cfg.valid = true ∧
    (0 ≤ s.reg 3 ∧ (bitlen (s.reg 2) : Int) + s.reg 3 ≤ 32 * s.cfg.lMax) ∧
    (0 ≤ s.reg 4 ∧ s.reg 2 ≠ 0 ∧ (bitlen (s.reg 2) : Int) + s.reg 4 > 32 * s.cfg.lMax) ∧
    (0 ≤ s.reg 6 ∧ s.reg 7 = 0) ∧ s.reg 5 < 0 := by
  subst hs; decide +kernel

/-- ModexpResult, ModinvExactResult, ModinvWeakResult and ModinvDomainFaults: every case of the domain checks at the
values where the cases meet. -/
theorem witness_domains (s : State) (hs : s = withRegs [(2, -1), (3, 1), (4, 2)]) :
    s.reg 5 = 0 ∧ s.reg 2 < 0 ∧ (0 < s.reg 3 ∧ s.reg 2 < 0) ∧ (0 < s.reg 3 ∧ 0 ≤ s.reg 5) ∧
    (0 ≤ s.reg 3 ∧ 0 < s.reg 4 ∧ ¬ s.reg 4 ∣ s.reg 3) ∧ (Int.gcd (s.reg 3) (s.reg 4) = 1 ∧ 1 < s.reg 4) ∧
    s.cfg.modinvMode = .exactMode ∧ ({ s with cfg := { s.cfg with modinvMode := .weakMode } } : State).cfg.modinvMode = .weakMode := by
  subst hs; decide

/-! ## Witnesses: the whole machine -/

/-- EveryStepKeepsTheInvariant: a register command, a host write to IMEM, a boundary and a power-on. -/
theorem witness_invariant_steps : ∀ e ∈ [[], [Event.host (.write 0x4FFC 5)], [.boundary], [.powerOn]],
    ∃ s t : State, s.inputs = e ∧ s.Inv ∧ step s = .next t := by
  intro e he
  refine ⟨midRun 0x1448C200 [(2, -7)] false false false e, _, rfl, midRun_inv _ _ _ _ _ _ (by decide +kernel),
    eq_next_of_isNext _ ?_⟩
  revert e; decide +kernel

/-- ResetMeetsTheInvariant, at both ends of the configurations of R8 and R9. -/
theorem witness_configurations : ({ lMax := 1, pcw := 1, modinvMode := .weakMode, hostBase := 0 } : Config).valid = true ∧
    ({ lMax := 1024, pcw := 12, modinvMode := .exactMode, hostBase := 0x80000000 } : Config).valid = true := by decide

/-- The statements about exec from a state with ERR = 0 (CommandsRaiseOnlyTheirCodes, CommandsChangeOnlyDestinations,
CommandsLeaveMemoryAndHostSide, FlagsFollowTheTable, OnlyBranchesReadTheFlags, PcAdvancesSequentially,
CommandsIgnoreHostRegisters): a command that completes, one that faults, HALT, a branch. -/
theorem witness_exec : ∀ c ∈ [(Instr.modinv 1 2 3, false), (.div 1 2 4 3, true), (.halt, false), (.bEQ 3, false), (.cmp 2 3, false),
      (.cmpM 2 3, false), (.divM 1 2 3 4, false)],
    ∃ s t : State, s.err = false ∧ exec c.1 s = .next t ∧ t.err = c.2 := by
  intro c hc
  refine ⟨withRegs [(2, 3), (3, 7)], _, rfl, eq_next_of_isNext _ ?_, ?_⟩ <;> revert c <;> decide +kernel

/-- CommandsRaiseOnlyTheirCodes, the clause on steps: the abort stop by either move, an illegal word, a command's fault. -/
theorem witness_raisers : ∀ c ∈ [(0x04000000, true, [], ErrCode.abort), (0x04000000, true, [Event.boundary], .abort),
      (0x3C000000, false, [], .illegal), (0x2108D600, false, [.engine], .divzero)],
    ∃ s t : State, step s = .next t ∧ t.errcode ≠ s.errcode ∧ t.errcode ≠ .none ∧ t.errcode = c.2.2.2 := by
  intro c hc
  refine ⟨midRun c.1 [] c.2.1 false false c.2.2.1, _, eq_next_of_isNext _ ?_, ?_, ?_, ?_⟩ <;> revert c <;> decide +kernel

/-- CommandsChangeOnlyDestinations: a register that is no destination; and host writes that are no soft reset. -/
theorem witness_frames : (5 : RegIdx) ∉ destinations (.div 1 2 3 4) ∧ (3 : RegIdx) ≠ (idle [] 4 1 false).sel ∧
    (0x01C : Offset).toNat / 4 ≠ 1 ∧ (9 : Word).getLsbD 2 = false := by decide

/-- FaultsArePrecise: an engine step that faults, of a command and of an illegal word. -/
theorem witness_faults : ∀ w ∈ [0x2108D600, 0x00000000],
    ∃ s s' t : State, EngineTurn s s' ∧ s.busy = true ∧ s.abortp = false ∧ s.err = false ∧ step s = .next t ∧
      t.err = true := by
  intro w hw
  refine ⟨midRun w [] false false false [.engine, .powerOn], _, _, (midRun_turn w [] false false false).2, rfl, rfl, rfl,
    eq_next_of_isNext _ ?_, ?_⟩ <;> revert w <;> decide +kernel

/-- RunsEndInFourWays: HALT, a fault, the abort stop, a soft reset and a power-on. -/
theorem witness_run_ends : ∀ c ∈ [(0x08000000, false, []), (0x2108D600, false, []), (0x04000000, true, []),
      (0x04000000, false, [Event.host (.write 0x004 4)]), (0x04000000, false, [.powerOn]), (0x04000000, true, [.boundary])],
    ∃ s t : State, s.Inv ∧ s.busy = true ∧ step s = .next t ∧ t.busy = false := by
  intro c hc
  refine ⟨midRun c.1 [] c.2.1 false false c.2.2, _, midRun_inv _ _ _ _ _ _ (by decide +kernel), rfl,
    eq_next_of_isNext _ ?_, ?_⟩ <;> revert c <;> decide +kernel

/-- AbortWaitsForTheCommand: a command that ends the run and one that does not. -/
theorem witness_abort_in_flight : ∀ c ∈ [(0x08000000, false), (0x2108D600, false), (0x04000000, true)],
    ∃ s t : State, s.Inv ∧ s.busy = true ∧ s.abortp = true ∧ s.inFlight = true ∧ s.inputs = [] ∧ step s = .next t ∧
      t.busy = c.2 := by
  intro c hc
  refine ⟨midRun c.1 [] true true false [], _, midRun_inv _ _ _ _ _ _ (by decide +kernel), rfl, rfl, rfl, rfl,
    eq_next_of_isNext _ ?_, ?_⟩ <;> revert c <;> decide +kernel

/-- RestartFaultsAgain: a division by zero and an illegal word, with IE at 1. -/
theorem witness_restart : ∀ w ∈ [0x2108D600, 0x00000000],
    ∃ s t : State, s.Inv ∧ s.busy = true ∧ s.abortp = false ∧ s.inputs = [] ∧ step s = .next t ∧ t.err = true := by
  intro w hw
  refine ⟨midRun w [] false false true [], _, midRun_inv _ _ _ _ _ _ (by decide +kernel), rfl, rfl, rfl,
    eq_next_of_isNext _ ?_, ?_⟩ <;> revert w <;> decide +kernel

/-- IrqMarksTheEndOfARun: a run that ends by HALT, a fault or an abort, with IE at 0 and 1. -/
theorem witness_irq : ∀ c ∈ [(0x08000000, false, true), (0x2108D600, false, false), (0x04000000, true, true)],
    ∃ s t : State, s.Inv ∧ s.busy = true ∧ EngineTurn s { s with inputs := s.inputs.tail } ∧ step s = .next t ∧
      t.busy = false ∧ s.ie = c.2.2 := by
  intro c hc
  refine ⟨midRun c.1 [] c.2.1 false c.2.2 [], _, midRun_inv _ _ _ _ _ _ (by decide +kernel), rfl, .inl ⟨rfl, rfl⟩,
    eq_next_of_isNext _ ?_, ?_, rfl⟩ <;> revert c <;> decide +kernel

/-! ## Witnesses: the host port -/

/-- CtrlWritePrecedence: a word and a state for each line of R284. -/
theorem witness_ctrl : (5 : Word).getLsbD 2 = true ∧ (0xB : Word).getLsbD 2 = false ∧ (0xB : Word).getLsbD 0 = true ∧
    (8 : Word).getLsbD 0 = false ∧ (8 : Word).getLsbD 2 = false ∧ State.reset.busy = false ∧ (running 0 []).busy = true := by decide

/-- BusyAccessIsRefused: each of the four always-accessible offsets, the ones beside them, CTRL words with and without
SRST, and the state. -/
theorem witness_busy : (running 0x04000000 []).busy = true ∧ (5 : Word).getLsbD 2 = true ∧ (0xB : Word).getLsbD 2 = false ∧
    ([0x000, 0x004, 0x008, 0x028].map fun x : Offset => x.toNat / 4) = [0, 1, 2, 10] ∧
    [0x00C, 0x024, 0x02C, 0x1000, 0x4000, 0x7FFC].all (fun x : Offset =>
      decide (x.toNat / 4 ≠ 0 ∧ x.toNat / 4 ≠ 1 ∧ x.toNat / 4 ≠ 2 ∧ x.toNat / 4 ≠ 10)) = true := by decide

/-- HostCannotDisturbARun: a refused write and a soft reset. -/
theorem witness_host_turn : ∀ a ∈ [HostAccess.write 0x4000 5, .write 0x004 4],
    ∃ s s' t : State, HostTurn s s' a ∧ s.busy = true ∧ step s = .next t := by
  intro a ha
  refine ⟨midRun 0x04000000 [] false false false [.host a], _, _, ⟨_, rfl, rfl⟩, rfl, eq_next_of_isNext _ ?_⟩
  revert a; decide +kernel

/-- ImportLoadsTheRegister: COUNT at both edges of its range, inside and outside, and XFER words 0 and 3. -/
theorem witness_import : (idle [] 3 0 true).busy = false ∧ (idle [] 3 0 true).count.toNat < 1 ∧
    (idle [] 3 129 true).cfg.lMax < (idle [] 3 129 true).count.toNat ∧ 1 ≤ (idle [] 3 1 true).count.toNat ∧
    (idle [] 3 128 true).count.toNat ≤ (idle [] 3 128 true).cfg.lMax ∧ (0 : Word) ≠ 1 ∧ (0 : Word) ≠ 2 ∧ (3 : Word) ≠ 2 := by
  decide

/-- ExportStoresTheLimbs and ImportUndoesExport: COUNT at the limb count and beside it. -/
theorem witness_export :
    (∃ s : State, s.Inv ∧ s.busy = false ∧ s.count.toNat = nlimbs (s.reg s.sel) ∧ s.reg s.sel = -(2 ^ 64 - 1)) ∧
    (∃ s : State, s.Inv ∧ s.busy = false ∧ s.count.toNat ≠ nlimbs (s.reg s.sel)) :=
  ⟨⟨idle [(3, -(2 ^ 64 - 1))] 3 2 false, idle_inv _ _ _ _ (by decide +kernel), rfl, by decide +kernel, by decide⟩,
   ⟨idle [(3, -(2 ^ 64 - 1))] 3 3 false, idle_inv _ _ _ _ (by decide +kernel), rfl, by decide +kernel⟩⟩

/-- HostStorageReadsBack, ReadOnlyRegisters and FetchSeesIdleImemWrites: an idle and a busy state with the invariant, and
the edges of BUF and IMEM. -/
theorem witness_storage : (∃ s : State, s.Inv ∧ s.busy = false) ∧ (∃ s : State, s.Inv ∧ s.busy = true) ∧
    0 < Config.reference.lMax ∧ 127 < Config.reference.lMax ∧ 1023 < Config.reference.imemWords ∧
    (0x4000 : Offset).toNat = 0x4000 + 4 * 0 ∧ (0x4FFC : Offset).toNat = 0x4000 + 4 * 1023 ∧
    (0x11FC : Offset).toNat = 0x1000 + 4 * 127 :=
  ⟨⟨_, idle_inv [(3, 9)] 3 1 true (by decide +kernel), rfl⟩, ⟨_, midRun_inv 0 [] false false false [] (by decide +kernel), rfl⟩,
    by decide +kernel⟩

/-- ByteLanesAreLittleEndian: the last lane of the last buffer word. -/
theorem witness_lanes : (0x11FC : Offset).toNat = 0x1000 + 4 * 127 ∧ (0x11FF : Offset).toNat = (0x11FC : Offset).toNat + 3 ∧
    State.reset.cfg.valid = true ∧ 127 < State.reset.cfg.lMax := by decide

/-- UnmappedOffsetsReadZero: both ends of each hole. -/
theorem witness_unmapped : [0x02C, 0xFFF, 0x1200, 0x3FFF, 0x5000, 0x7FFF].all (fun off : Offset => decide
    (0x2C ≤ off.toNat ∧ off.toNat < 0x1000 ∨ 0x1000 + 4 * Config.reference.lMax ≤ off.toNat ∧ off.toNat < 0x4000 ∨
      0x4000 + 4 * Config.reference.imemWords ≤ off.toNat)) = true := by decide +kernel

/-- ResetsSetEveryElement: both resets of a machine in the middle of a run. -/
theorem witness_resets : ∃ s t u : State, s.busy = true ∧ s.reg 2 = 7 ∧ t = s.powerOn ∧ u = s.softReset :=
  ⟨midRun 0 [(2, 7)] true true true [], _, _, rfl, rfl, rfl, rfl⟩

/-! ## Witnesses: representation and procedures -/

/-- EncodingIsABijection: a value at the capacity of one limb; and an encoding of two limbs with a sign. -/
theorem witness_encodings : (-(2 ^ 32 - 1) : Int).natAbs < 2 ^ (32 * 1) ∧
    ∃ word : Nat → Word, word (2 - 1) ≠ 0 ∧ (∀ j, 2 ≤ j → word j = 0) ∧ ((∀ j, word j = 0) → true = false) :=
  ⟨by decide, fun j => if j < 2 then 5 else 0, by decide, fun j hj => if_neg (by omega), fun h => absurd (h 0) (by decide)⟩

/-- LongDivisionIsExact: an estimator that saturates at 32 bits. -/
theorem witness_estimator : ∃ estimate : Nat → Nat → Nat, (-7 : Int) ≠ 0 ∧ (∀ rem B, estimate rem B < 2 ^ 32) ∧
    ∀ rem, rem < (-7 : Int).natAbs * 2 ^ 32 → rem / (-7 : Int).natAbs ≤ estimate rem (-7 : Int).natAbs :=
  ⟨fun rem B => min (2 ^ 32 - 1) (rem / B), by decide, fun _ _ => by dsimp only; omega, fun rem h => by
    have h7 : (-7 : Int).natAbs = 7 := rfl
    simp only [h7] at h ⊢
    omega⟩

/-- LimbArithmeticIsExact: a subtraction that needs a borrow. -/
theorem witness_limbs : ([1] : List Word).length ≤ ([0, 1] : List Word).length ∧ limbsValue [1] ≤ limbsValue [0, 1] := by decide

/-- PseudoInstructionsHaveTheirEffect: the bounds of each amount, a divisor that is not zero, and a shift that fits. -/
theorem witness_pseudo (s : State) (hs : s = withRegs [(2, 3), (3, -1)]) : s.cfg.valid = true ∧ s.reg 3 ≠ 0 ∧
    ((-32768 : Int) ≤ -32768 ∧ (32767 : Int) ≤ 32767) ∧ (0 : Int) ≤ 32767 ∧ (1 : Int) ≤ 32768 ∧
    (s.reg 2).natAbs * 2 ^ (0 : Int).toNat < 2 ^ (32 * s.cfg.lMax) := by
  subst hs; decide +kernel

end Sys2Proof.Machine
end

/-! PROOFS. The configuration (R8 to R11) under each agent's move: no move writes it, and every move answers a next state. -/

namespace Sys2Proof.Machine

/-! ## The host's accesses keep the configuration -/

@[simp] theorem hostRead_cfg (off : Offset) (s : State) : (hostRead off s).cfg = s.cfg := by
  unfold hostRead; split <;> rfl

@[simp] theorem ctrlWrite_cfg (w : Word) (s : State) : (ctrlWrite w s).cfg = s.cfg := by
  unfold ctrlWrite; split_ifs <;> simp

@[simp] theorem statusWrite_cfg (w : Word) (s : State) : (statusWrite w s).cfg = s.cfg := rfl

@[simp] theorem importReg_cfg (s : State) : (importReg s).cfg = s.cfg := by
  unfold importReg; split_ifs <;> simp

@[simp] theorem exportReg_cfg (s : State) : (exportReg s).cfg = s.cfg := by
  unfold exportReg; split_ifs <;> rfl

@[simp] theorem xferWrite_cfg (w : Word) (s : State) : (xferWrite w s).cfg = s.cfg := by
  unfold xferWrite; split_ifs <;> simp

/-- CTRL, STATUS, PC, XFER and the storage words go through an operation of their own; any other port sets a field or
ignores the write (R43, R76). -/
@[simp] theorem writePort_cfg (p : Port) (w : Word) (s : State) : (writePort p w s).cfg = s.cfg := by
  cases p with
  | ctrl => exact ctrlWrite_cfg w s
  | status => exact statusWrite_cfg w s
  | pc => exact State.setPc_cfg s _
  | xfer => exact xferWrite_cfg w s
  | buf j => exact State.setBuf_cfg s j w
  | imem i => exact State.setImem_cfg s i w
  | id | sel | count | xsign | rlen | rsign | param | unmapped => rfl

@[simp] theorem hostWrite_cfg (off : Offset) (w : Word) (s : State) : (hostWrite off w s).cfg = s.cfg := by
  unfold hostWrite; split
  · rfl
  · exact writePort_cfg _ w s

@[simp] theorem hostAccess_cfg (a : HostAccess) (s : State) : (hostAccess a s).cfg = s.cfg := by
  cases a with
  | read off => exact hostRead_cfg off s
  | write off w => exact hostWrite_cfg off w s

/-! ## The engine's moves answer a next state with the same configuration -/

/-- A fault of MPALU is a next state (R304), and completing is within the command's frame. -/
theorem exec_next_cfg (i : Instr) (s : State) : ∃ t, exec i s = .next t ∧ t.cfg = s.cfg := by
  rcases exec_cases i s with ⟨code, -, he⟩ | ⟨t, he, hc⟩
  · exact ⟨_, he, rfl⟩
  · exact ⟨t, he, hc.host.cfg⟩

/-- A word that encodes no command raises FAULT(ILLEGAL), which is a next state (R120). -/
theorem runCommand_next_cfg (s : State) : ∃ t, runCommand s = .next t ∧ t.cfg = s.cfg := by
  unfold runCommand
  cases decode s.fetch with
  | ok i => exact exec_next_cfg i { s with inFlight := false }
  | error e => exact ⟨_, raise_eq _ _, rfl⟩

theorem engineStep_next_cfg (s : State) : ∃ t, engineStep s = .next t ∧ t.cfg = s.cfg := by
  unfold engineStep
  split_ifs
  · exact ⟨s, rfl, rfl⟩
  · exact ⟨_, rfl, State.faultEntry_cfg s .abort⟩
  · exact runCommand_next_cfg s

@[simp] theorem engineBoundary_cfg (s : State) : (engineBoundary s).cfg = s.cfg := by
  unfold engineBoundary; split_ifs <;> simp

/-! ## Any agent's move -/

theorem eventStep_next_cfg (e : Event) (s : State) : ∃ t, eventStep e s = .next t ∧ t.cfg = s.cfg := by
  cases e with
  | engine => exact engineStep_next_cfg s
  | boundary => exact ⟨_, rfl, engineBoundary_cfg s⟩
  | host a => exact ⟨_, rfl, hostAccess_cfg a s⟩
  | powerOn => exact ⟨_, rfl, State.powerOn_cfg s⟩

/-- Settles O27: by the kind of the next move, and for the engine's by what a command can do (`exec_cases`). -/
theorem everyStepAnswersNext : Obligations.EveryStepAnswersNext := by
  unfold Obligations.EveryStepAnswersNext
  intro s
  unfold step
  cases s.inputs with
  | nil => exact engineStep_next_cfg s
  | cons e rest => exact eventStep_next_cfg e { s with inputs := rest }

end Sys2Proof.Machine

/-! PROOFS. Every agent's move keeps the invariant (R34, R37, R47, R58, R72, R82, R301). A move that
touches few of its fields keeps the other clauses as they are, written `{ h with … }`. -/

namespace Sys2Proof.Machine

/-! ## The decoder gives well-formed commands -/

theorem wellFormed_of_whenZero {reserved : Nat} {i j : Instr} (h : whenZero reserved i = .ok j)
    (hi : i.wellFormed = true) : j.wellFormed = true := by
  unfold whenZero at h
  split at h <;> cases h
  exact hi

theorem wellFormed_of_bySign {w : Word} {reserved : Nat} {i k j : Instr} (h : bySign w reserved i k = .ok j)
    (hi : i.wellFormed = true) (hk : k.wellFormed = true) : j.wellFormed = true := by
  refine wellFormed_of_whenZero h ?_
  split
  · exact hi
  · exact hk

theorem wellFormed_of_decodeBranch {cond : Nat} {off : Int} {j : Instr} (h : decodeBranch cond off = .ok j)
    (ho : immInRange off = true) : j.wellFormed = true := by
  unfold decodeBranch at h
  split at h <;> cases h <;> exact ho

/-- A word's command is one that some word encodes: an immediate comes from a 16-bit field (R116). -/
theorem wellFormed_of_decode {w : Word} {i : Instr} (h : decode w = .ok i) : i.wellFormed = true := by
  have himm : immInRange (sext16 (field w 15 0)) = true := immInRange_sext16 _ (field_lt w 15 0)
  simp only [decode] at h
  split at h
  -- LDI and SHFTI; the commands with two forms; B.cond; a reserved opcode; the rest, without an immediate
  case h_3 | h_11 => exact wellFormed_of_whenZero h himm
  case h_5 | h_6 | h_7 | h_8 | h_9 => exact wellFormed_of_bySign h rfl rfl
  case h_18 =>
    split at h
    · exact wellFormed_of_decodeBranch h himm
    · cases h
  case h_19 => cases h
  all_goals exact wellFormed_of_whenZero h rfl

/-! ## Resets -/

theorem State.atPowerOn_regsFit (c : Config) (epoch draws : Nat) (rdata : Word) (inputs : List Event) :
    (State.atPowerOn c epoch draws rdata inputs).RegsFit := by
  intro k
  simp [State.reg, State.atPowerOn]

theorem State.Inv.softReset {s : State} (h : s.Inv) : s.softReset.Inv where
  cfg_valid := h.cfg_valid
  regs_fit := State.atPowerOn_regsFit s.cfg s.epoch s.draws s.rdata s.inputs
  pc_lt := imemWords_pos s.cfg
  mem_wf := h.mem_wf
  mem_mapped := h.mem_mapped
  done_err := by simp
  errcode_err := by simp
  busy_clear := by simp
  abortp_busy := by simp
  inFlight_busy := by simp

theorem State.Inv.powerOn {s : State} (h : s.Inv) : s.powerOn.Inv where
  cfg_valid := h.cfg_valid
  regs_fit := State.atPowerOn_regsFit s.cfg (s.epoch + 1) s.draws s.rdata s.inputs
  pc_lt := imemWords_pos s.cfg
  mem_wf := rfl
  mem_mapped := by simp [Memory.mapped]
  done_err := by simp
  errcode_err := by simp
  busy_clear := by simp
  abortp_busy := by simp
  inFlight_busy := by simp

/-! ## The engine's moves -/

/-- A fault with a code ends a run: DONE was 0 in it, and no command is left in progress (R304). -/
theorem State.Inv.faulted {s : State} (h : s.Inv) (hb : s.busy = true) (hf : s.inFlight = false) {code : ErrCode}
    (hc : code ≠ .none) : (s.faulted code).Inv where
  cfg_valid := h.cfg_valid
  regs_fit := h.regs_fit
  pc_lt := h.pc_lt
  mem_wf := h.mem_wf
  mem_mapped := h.mem_mapped
  done_err := by simp [State.faulted, (h.busy_clear hb).1]
  errcode_err := by simp [State.faulted, hc]
  busy_clear := by simp [State.faulted]
  abortp_busy := by simp [State.faulted]
  inFlight_busy := by simp [State.faulted, hf]

theorem ne_none_of_mayRaise {i : Instr} {code : ErrCode} (h : mayRaise i code = true) : code ≠ .none := by
  rintro rfl
  cases i <;> cases h

/-- How the run stands after a command that completes: HALT ends it, and any other leaves it in progress (R261). -/
theorem Completed.runStatus {i : Instr} {s t : State} (hc : Completed i s t) (h : s.Inv) (hb : s.busy = true)
    (hf : s.inFlight = false) :
    t.err = false ∧ t.errcode = .none ∧ t.inFlight = false ∧ (t.busy = true → t.done = false) ∧
      (t.abortp = true → t.busy = true) := by
  obtain ⟨hdone, herr⟩ := h.busy_clear hb
  have hnone := h.errcode_err.1 herr
  by_cases hi : i = .halt
  · obtain ⟨hbusy, -, habort, herr', hcode, hflight⟩ := hc.halt hi
    simp [*]
  · obtain ⟨hbusy, hdone', herr', hcode, -, hflight⟩ := hc.run hi
    simp [*]

/-- A command of a run in progress keeps the invariant: the registers fit (`exec_regsFit`), the rest is its frame. -/
theorem exec_inv {i : Instr} {s t : State} (hi : i.wellFormed = true) (h : s.Inv) (hb : s.busy = true)
    (hf : s.inFlight = false) (he : exec i s = .next t) : t.Inv := by
  rcases exec_cases i s with ⟨code, hcode, hfault⟩ | ⟨u, hu, hc⟩
  · cases hfault.symm.trans he
    exact h.faulted hb hf (ne_none_of_mayRaise hcode)
  · cases hu.symm.trans he
    have hcfg := hc.host.cfg
    obtain ⟨herr, hcode, hflight, hdone, habort⟩ := hc.runStatus h hb hf
    exact {
      cfg_valid := hcfg ▸ h.cfg_valid
      regs_fit := exec_regsFit i s t h.cfg_valid hi h.regs_fit he
      pc_lt := hcfg ▸ hc.pc_lt
      mem_wf := hc.mem ▸ h.mem_wf
      mem_mapped := by rw [hc.mem, hcfg]; exact h.mem_mapped
      done_err := by simp [herr]
      errcode_err := by simp [herr, hcode]
      busy_clear := fun hb' => ⟨hdone hb', herr⟩
      abortp_busy := habort
      inFlight_busy := by simp [hflight] }

/-- The state a command in progress completes from. -/
theorem State.Inv.clearInFlight {s : State} (h : s.Inv) : ({ s with inFlight := false } : State).Inv :=
  { h with inFlight_busy := by simp }

theorem runCommand_inv {s t : State} (h : s.Inv) (hb : s.busy = true) (he : runCommand s = .next t) : t.Inv := by
  unfold runCommand at he
  split at he
  next i hd => exact exec_inv (wellFormed_of_decode hd) h.clearInFlight hb rfl he
  next =>
    cases he
    exact h.clearInFlight.faulted hb rfl (by simp)

theorem engineStep_inv {s t : State} (h : s.Inv) (he : engineStep s = .next t) : t.Inv := by
  unfold engineStep at he
  split_ifs at he with hb ha
  · cases he; exact h
  · cases he
    simp only [Bool.and_eq_true, Bool.not_eq_true'] at ha
    exact h.faulted (by simpa using hb) ha.2 (by simp)
  · exact runCommand_inv h (by simpa using hb) he

theorem engineBoundary_inv {s : State} (h : s.Inv) : (engineBoundary s).Inv := by
  unfold engineBoundary
  split_ifs with hb hf ha
  · exact h
  · exact h
  · exact h.faulted (by simpa using hb) (by simpa using hf) (by simp)
  · exact { h with inFlight_busy := fun _ => by simpa using hb }

/-! ## The host's accesses -/

theorem hostRead_inv (off : Offset) {s : State} (h : s.Inv) : (hostRead off s).Inv := by
  unfold hostRead
  split <;> exact { h with }

/-- START finds no command in progress, since the machine is idle; ABORT is latched only during a run (R58, R284). -/
theorem ctrlWrite_inv (w : Word) {s : State} (h : s.Inv) : (ctrlWrite w s).Inv := by
  unfold ctrlWrite
  split_ifs with hreset hb hstart
  · exact h.softReset
  · exact { h with abortp_busy := fun _ => hb }
  · exact { h with
      done_err := by simp
      errcode_err := by simp
      busy_clear := by simp
      abortp_busy := by simp
      inFlight_busy := by simp }
  · exact { h with }

/-- A STATUS write clears ERR and ERRCODE together (R285). -/
theorem statusWrite_inv (w : Word) {s : State} (h : s.Inv) : (statusWrite w s).Inv :=
  { h with
    done_err := by
      have := h.done_err
      simp only [statusWrite, Bool.and_eq_true]; tauto
    errcode_err := by
      simp only [statusWrite]
      cases w.getLsbD 2 <;> simp [h.errcode_err]
    busy_clear := fun hb => by
      obtain ⟨hd, he⟩ := h.busy_clear hb
      simp [statusWrite, hd, he] }

theorem signed_limbSum_lt (b : Bool) (word : Nat → Word) {count L : Nat} (h : count ≤ L) :
    (signed b (limbSum word count)).natAbs < 2 ^ (32 * L) := by
  rw [natAbs_signed]
  exact (limbSum_lt word count).trans_le (Nat.pow_le_pow_right (by decide) (by omega))

/-- IMPORT loads at most L_MAX limbs (R287). -/
theorem importReg_inv {s : State} (h : s.Inv) : (importReg s).Inv := by
  unfold importReg
  split_ifs with hc
  · exact { h with }
  · exact { h with regs_fit := s.written_regsFit _ _ h.regs_fit (signed_limbSum_lt _ _ (by omega)) }

theorem State.Inv.nlimbs_le {s : State} (h : s.Inv) (k : RegIdx) : nlimbs (s.reg k) ≤ s.cfg.lMax :=
  (nlimbs_le_iff _ _ ((Config.valid_iff _).1 h.cfg_valid).1).2 (h.regs_fit k)

/-- EXPORT stores within BUF, because the register fits (R288). -/
theorem exportReg_inv {s : State} (h : s.Inv) : (exportReg s).Inv := by
  unfold exportReg
  split_ifs
  · exact { h with
      mem_wf := wf_storeLimbs _ _ _ h.mem_wf
      mem_mapped := Memory.mapped_storeLimbs _ _ _ _ h.mem_mapped (h.nlimbs_le _) }
  · exact { h with }

theorem xferWrite_inv (w : Word) {s : State} (h : s.Inv) : (xferWrite w s).Inv := by
  unfold xferWrite
  split_ifs
  · exact importReg_inv h
  · exact exportReg_inv h
  · exact { h with }

/-- A word of BUF or IMEM is stored where the layout of R72 puts it. -/
theorem State.Inv.writeWord {s : State} (h : s.Inv) {a : Nat} (w : Word)
    (ha : (∃ j < s.cfg.lMax, a = bufAddr j) ∨ (∃ i < s.cfg.imemWords, a = imemAddr i)) :
    ({ s with mem := s.mem.writeWord a w } : State).Inv :=
  { h with
    mem_wf := Memory.wf_writeWord _ _ _ h.mem_wf
    mem_mapped := Memory.mapped_writeWord _ _ _ _ h.mem_mapped ha }

theorem writePort_inv (off : Offset) (w : Word) {s : State} (h : s.Inv) : (writePort (portOf s.cfg off) w s).Inv := by
  cases hp : portOf s.cfg off with
  | ctrl => exact ctrlWrite_inv w h
  | status => exact statusWrite_inv w h
  | xfer => exact xferWrite_inv w h
  | pc => exact { h with pc_lt := s.setPc_lt _ }
  | buf j => exact h.writeWord w (.inl ⟨j, ((portOf_eq_buf_iff _ h.cfg_valid _ _).1 hp).1, rfl⟩)
  | imem i => exact h.writeWord w (.inr ⟨i, ((portOf_eq_imem_iff _ h.cfg_valid _ _).1 hp).1, rfl⟩)
  | id | sel | count | xsign | rlen | rsign | param | unmapped =>
    exact { h with }

theorem hostWrite_inv (off : Offset) (w : Word) {s : State} (h : s.Inv) : (hostWrite off w s).Inv := by
  unfold hostWrite
  split
  · exact { h with }
  · exact writePort_inv off w h

theorem hostAccess_inv (a : HostAccess) {s : State} (h : s.Inv) : (hostAccess a s).Inv := by
  cases a with
  | read off => exact hostRead_inv off h
  | write off w => exact hostWrite_inv off w h

/-! ## Any agent's move -/

theorem eventStep_inv (e : Event) {s t : State} (h : s.Inv) (he : eventStep e s = .next t) : t.Inv := by
  cases e with
  | engine => exact engineStep_inv h he
  | boundary => cases he; exact engineBoundary_inv h
  | host a => cases he; exact hostAccess_inv a h
  | powerOn => cases he; exact h.powerOn

/-- Settles O25: by the kind of the next move, each of which keeps the invariant. -/
theorem everyStepKeepsTheInvariant : Obligations.EveryStepKeepsTheInvariant := by
  unfold Obligations.EveryStepKeepsTheInvariant
  intro s t h hstep
  unfold step at hstep
  split at hstep
  · exact engineStep_inv h hstep
  next e rest _ =>
    have h' : ({ s with inputs := rest } : State).Inv := { h with }
    exact eventStep_inv e h' hstep

end Sys2Proof.Machine

/-! PROOFS. What a command changes (R36) and what it does to the flags (R40, R41). -/

namespace Sys2Proof.Machine

/-! ## Registers -/

theorem State.reg_setReg_of_ne (s : State) {i k : RegIdx} (v : Int) (h : k ≠ i) : (s.setReg i v).reg k = s.reg k := by
  rw [State.reg_setReg, if_neg h]

/-- A CTRL write without SRST leaves the registers (R284). -/
theorem ctrlWrite_regs_of_not_reset (w : Word) (s : State) (h : w.getLsbD 2 = false) :
    (ctrlWrite w s).regs = s.regs := by
  simp only [ctrlWrite, h, Bool.false_eq_true, if_false]
  split_ifs <;> rfl

/-- IMPORT writes R[SEL] alone, and no other XFER word writes a register (R287 to R289). -/
theorem xferWrite_reg_of_ne (w : Word) (s : State) {k : RegIdx} (hk : k ≠ s.sel) :
    (xferWrite w s).reg k = s.reg k := by
  unfold xferWrite importReg exportReg
  split_ifs
  · rfl
  · exact s.reg_setReg_of_ne _ hk
  all_goals rfl

theorem portOf_eq_ctrl {c : Config} {off : Offset} (h : portOf c off = .ctrl) : off.toNat / 4 = 1 := by
  unfold portOf at h
  generalize off.toNat / 4 = k at *
  split at h
  case h_2 => rfl
  case h_12 => split_ifs at h
  all_goals cases h

/-- A host write that is no soft reset writes at most R[SEL] (R36). -/
theorem hostWrite_reg_of_ne (s : State) (off : Offset) (w : Word) {k : RegIdx} (hk : k ≠ s.sel)
    (hreset : off.toNat / 4 ≠ 1 ∨ w.getLsbD 2 = false) : (hostWrite off w s).reg k = s.reg k := by
  unfold hostWrite
  split
  · rfl
  cases hp : portOf s.cfg off with
  | ctrl =>
    have hw : w.getLsbD 2 = false := hreset.resolve_left (not_not_intro (portOf_eq_ctrl hp))
    simp only [writePort, State.reg, ctrlWrite_regs_of_not_reset w s hw]
  | xfer => exact xferWrite_reg_of_ne w s hk
  | id | status | pc | sel | count | xsign | rlen | rsign | param | buf _ | imem _ | unmapped => rfl

/-- Settles O30: a command by `exec_cases`, a host write by its port. -/
theorem commandsChangeOnlyDestinations : Obligations.CommandsChangeOnlyDestinations := by
  unfold Obligations.CommandsChangeOnlyDestinations
  refine ⟨fun i s t k he hk => ?_, fun s off w k hk hreset => hostWrite_reg_of_ne s off w hk hreset⟩
  rcases exec_cases i s with ⟨code, -, hfault⟩ | ⟨u, hu, hc⟩
  · cases hfault.symm.trans he
    rfl
  · cases hu.symm.trans he
    exact hc.regs k hk

/-! ## The effect of a command -/

/-- What a command does to the state once its operands are read. -/
inductive Effect where
  | fault (code : ErrCode)
  | write (rd : RegIdx) (v : Int)
  | divide (rd rc : RegIdx) (q r : Int)
  | compare (a b : Int)
  | invert (rd : RegIdx) (v : Int) (ni : Bool)
  | branch (c : Cond) (off : Int)
  | advance
  | halt

/-- The state an effect leaves. -/
def Effect.apply (e : Effect) (s : State) : State :=
  match e with
  | .fault code => s.faulted code
  | .write rd v => s.written rd v
  | .divide rd rc q r => s.divided rd rc q r
  | .compare a b => (s.setCompare a b).advance
  | .invert rd v ni => (s.drawInverse.setNI ni).written rd v
  | .branch c off => s.branch c off
  | .advance => s.advance
  | .halt => s.endRun.advance

/-- The effects a command may have from `s`, as far as R40's table speaks of them. -/
inductive Effect.Of (s : State) : Instr → Effect → Prop where
  | fault {i code} : mayRaise i code = true → Of s i (.fault code)
  | write {i rd v} : flagSource i = some rd → writesNI i = false → Of s i (.write rd v)
  | divide {i rd rc q r} : flagSource i = some rc → writesNI i = false → Of s i (.divide rd rc q r)
  | cmp {a b} : Of s (.cmp a b) (.compare (s.reg a) (s.reg b))
  | cmpM {a b} : Of s (.cmpM a b) (.compare |s.reg a| |s.reg b|)
  | modinv {rd ra rb v} : 0 ≤ v →
    Of s (.modinv rd ra rb) (.invert rd v (decide (Int.gcd (s.reg ra) (s.reg rb) ≠ 1)))
  | branch {i c off} : branchParts i = some (c, off) → Of s i (.branch c off)
  | nop : Of s .nop .advance
  | halt : Of s .halt .halt

/-- The two states give a command the same operands. -/
structure SameOperands (s t : State) : Prop where
  cfg : t.cfg = s.cfg
  regs : t.regs = s.regs
  draws : t.draws = s.draws

theorem SameOperands.reg {s t : State} (h : SameOperands s t) (k : RegIdx) : t.reg k = s.reg k := by
  unfold State.reg; rw [h.regs]

theorem SameOperands.mag {s t : State} (h : SameOperands s t) (k : RegIdx) : t.mag k = s.mag k := by
  unfold State.mag; rw [h.reg]

theorem SameOperands.modinvValue {s t : State} (h : SameOperands s t) (a b : Int) :
    modinvValue t a b = modinvValue s a b := by
  unfold Machine.modinvValue; rw [h.cfg, h.draws]

/-- Both modes' d is a remainder modulo a positive modulus (R241, R243). -/
theorem modinvValue_nonneg (s : State) (a : Int) {b : Int} (hb : 0 < b) : 0 ≤ modinvValue s a b := by
  unfold modinvValue
  split
  · rw [normalizeCoefficient_eq _ _ hb]
    exact Int.emod_nonneg _ hb.ne'
  · exact Int.emod_nonneg _ hb.ne'

/-- The command has the effect `e` from every state that gives it the operands of `s`. -/
def HasEffect (i : Instr) (s : State) (e : Effect) : Prop :=
  Effect.Of s i e ∧ ∀ t, SameOperands s t → exec i t = .next (e.apply t)

/-! One lemma for each way a meaning ends. -/

section
variable {i : Instr} {s : State}

theorem hasEffect_of_raise (code : ErrCode) (hr : mayRaise i code = true)
    (he : ∀ t, SameOperands s t → exec i t = raise code t) : ∃ e, HasEffect i s e :=
  ⟨.fault code, .fault hr, he⟩

theorem hasEffect_of_commit (rd : RegIdx) (v : Int) (hd : flagSource i = some rd) (hn : writesNI i = false)
    (he : ∀ t, SameOperands s t → exec i t = commit rd v t) : ∃ e, HasEffect i s e :=
  ⟨.write rd v, .write hd hn, fun t ht => (he t ht).trans (commit_eq rd v t)⟩

theorem hasEffect_of_commitDivision (rd rc : RegIdx) (q r : Int) (hd : flagSource i = some rc) (hn : writesNI i = false)
    (he : ∀ t, SameOperands s t → exec i t = commitDivision rd rc q r t) : ∃ e, HasEffect i s e :=
  ⟨.divide rd rc q r, .divide hd hn, fun t ht => (he t ht).trans (commitDivision_eq rd rc q r t)⟩

theorem hasEffect_of_commitFitting (rd : RegIdx) (v : Int) (hd : flagSource i = some rd) (hn : writesNI i = false)
    (hr : mayRaise i .overflow = true) (he : ∀ t, SameOperands s t → exec i t = commitFitting rd v t) :
    ∃ e, HasEffect i s e := by
  by_cases hf : fits s.cfg.lMax v = true
  · exact hasEffect_of_commit rd v hd hn fun t ht => by rw [he t ht, commitFitting, ht.cfg, if_pos hf]
  · exact hasEffect_of_raise .overflow hr fun t ht => by rw [he t ht, commitFitting, ht.cfg, if_neg hf]

theorem hasEffect_of_shiftInto (rd : RegIdx) (a k : Int) (hd : flagSource i = some rd) (hn : writesNI i = false)
    (hr : mayRaise i .overflow = true) (he : ∀ t, SameOperands s t → exec i t = shiftInto rd a k t) :
    ∃ e, HasEffect i s e := by
  by_cases ho : shiftOverflows s.cfg.lMax a k = true
  · exact hasEffect_of_raise .overflow hr fun t ht => by rw [he t ht, shiftInto, ht.cfg, if_pos ho]
  · exact hasEffect_of_commit rd _ hd hn fun t ht => by rw [he t ht, shiftInto, ht.cfg, if_neg ho]

theorem hasEffect_of_branch (c : Cond) (off : Int) (hb : branchParts i = some (c, off))
    (he : ∀ t, exec i t = .next (t.branch c off)) : ∃ e, HasEffect i s e :=
  ⟨.branch c off, .branch hb, fun t _ => he t⟩

end

/-- Every command has an effect that R40's table allows, the same one wherever its operands are the same. -/
theorem exec_hasEffect (i : Instr) (s : State) : ∃ e, HasEffect i s e := by
  cases i with
  | nop => exact ⟨.advance, .nop, fun _ _ => rfl⟩
  | halt => exact ⟨.halt, .halt, fun _ _ => rfl⟩
  | ldi rd imm => exact hasEffect_of_commit rd imm rfl rfl fun _ _ => rfl
  | mov rd ra => exact hasEffect_of_commit rd _ rfl rfl fun t ht => by rw [exec, execMov, ht.reg]
  | add rd ra rb =>
    exact hasEffect_of_commitFitting rd _ rfl rfl rfl fun t ht => by rw [exec, execAdd, ht.reg, ht.reg]
  | addM rd ra rb =>
    exact hasEffect_of_commitFitting rd _ rfl rfl rfl fun t ht => by rw [exec, execAddM, ht.mag, ht.mag]
  | sub rd ra rb =>
    exact hasEffect_of_commitFitting rd _ rfl rfl rfl fun t ht => by rw [exec, execSub, ht.reg, ht.reg]
  | subM rd ra rb =>
    by_cases h : s.mag ra < s.mag rb
    · exact hasEffect_of_raise .precond rfl fun t ht => by rw [exec, execSubM, ht.mag, ht.mag, if_pos h]
    · exact hasEffect_of_commit rd _ rfl rfl fun t ht => by rw [exec, execSubM, ht.mag, ht.mag, if_neg h]
  | mul rd ra rb =>
    exact hasEffect_of_commitFitting rd _ rfl rfl rfl fun t ht => by rw [exec, execMul, ht.reg, ht.reg]
  | mulM rd ra rb =>
    exact hasEffect_of_commitFitting rd _ rfl rfl rfl fun t ht => by rw [exec, execMulM, ht.mag, ht.mag]
  | div rd ra rb rc =>
    by_cases h : s.reg rb = 0
    · exact hasEffect_of_raise .divzero rfl fun t ht => by rw [exec, execDiv, ht.reg, ht.reg, if_pos h]
    · exact hasEffect_of_commitDivision rd rc _ _ rfl rfl fun t ht => by rw [exec, execDiv, ht.reg, ht.reg, if_neg h]
  | divM rd ra rb rc =>
    by_cases h : s.reg rb = 0
    · exact hasEffect_of_raise .divzero rfl fun t ht => by rw [exec, execDivM, ht.reg, if_pos h]
    · exact hasEffect_of_commitDivision rd rc _ _ rfl rfl fun t ht => by
        rw [exec, execDivM, ht.reg, ht.mag, ht.mag, if_neg h]
  | cmp ra rb => exact ⟨_, .cmp, fun t ht => by rw [exec, execCmp, ht.reg, ht.reg]; rfl⟩
  | cmpM ra rb =>
    refine ⟨_, .cmpM, fun t ht => ?_⟩
    rw [exec, execCmpM, ht.mag, ht.mag, State.mag, State.mag, Int.natCast_natAbs, Int.natCast_natAbs]
    rfl
  | shft rd ra rb =>
    exact hasEffect_of_shiftInto rd _ _ rfl rfl rfl fun t ht => by rw [exec, execShft, ht.reg, ht.reg]
  | shfti rd ra imm => exact hasEffect_of_shiftInto rd _ _ rfl rfl rfl fun t ht => by rw [exec, execShfti, ht.reg]
  | and rd ra rb => exact hasEffect_of_commit rd _ rfl rfl fun t ht => by rw [exec, execAnd, ht.mag, ht.mag]
  | or rd ra rb => exact hasEffect_of_commit rd _ rfl rfl fun t ht => by rw [exec, execOr, ht.mag, ht.mag]
  | xor rd ra rb => exact hasEffect_of_commit rd _ rfl rfl fun t ht => by rw [exec, execXor, ht.mag, ht.mag]
  | gcd rd ra rb => exact hasEffect_of_commit rd _ rfl rfl fun t ht => by rw [exec, execGcd, ht.mag, ht.mag]
  | modexp rd ra rb rc =>
    by_cases hz : s.reg rc = 0
    · exact hasEffect_of_raise .divzero rfl fun t ht => by rw [exec, execModexp, ht.reg, if_pos hz]
    by_cases hc : s.reg rc < 0
    · exact hasEffect_of_raise .range rfl fun t ht => by rw [exec, execModexp, ht.reg, if_neg hz, if_pos hc]
    by_cases hb : s.reg rb < 0
    · exact hasEffect_of_raise .range rfl fun t ht => by
        rw [exec, execModexp, ht.reg, ht.reg, if_neg hz, if_neg hc, if_pos hb]
    · exact hasEffect_of_commit rd _ rfl rfl fun t ht => by
        rw [exec, execModexp, ht.reg, ht.reg, ht.reg, if_neg hz, if_neg hc, if_neg hb]
  | modinv rd ra rb =>
    by_cases hz : s.reg rb = 0
    · exact hasEffect_of_raise .divzero rfl fun t ht => by rw [exec, execModinv, ht.reg, if_pos hz]
    by_cases hb : s.reg rb < 0
    · exact hasEffect_of_raise .range rfl fun t ht => by rw [exec, execModinv, ht.reg, if_neg hz, if_pos hb]
    by_cases ha : s.reg ra < 0
    · exact hasEffect_of_raise .range rfl fun t ht => by
        rw [exec, execModinv, ht.reg, ht.reg, if_neg hz, if_neg hb, if_pos ha]
    · have hpos : 0 < s.reg rb := by omega
      refine ⟨_, .modinv (modinvValue_nonneg s (s.reg ra) hpos), fun t ht => ?_⟩
      rw [exec, execModinv, ht.reg, ht.reg, if_neg hz, if_neg hb, if_neg ha, commit_eq, ht.modinvValue,
        (bezout_spec _ _ (not_lt.1 ha) hpos).1]
      simp [Effect.apply]
  | bAL off => exact hasEffect_of_branch .al off rfl fun _ => rfl
  | bEQ off => exact hasEffect_of_branch .eq off rfl fun _ => rfl
  | bNE off => exact hasEffect_of_branch .ne off rfl fun _ => rfl
  | bLT off => exact hasEffect_of_branch .lt off rfl fun _ => rfl
  | bGE off => exact hasEffect_of_branch .ge off rfl fun _ => rfl
  | bGT off => exact hasEffect_of_branch .gt off rfl fun _ => rfl
  | bLE off => exact hasEffect_of_branch .le off rfl fun _ => rfl
  | bNI off => exact hasEffect_of_branch .ni off rfl fun _ => rfl
  | bIV off => exact hasEffect_of_branch .iv off rfl fun _ => rfl

/-! ## The flags -/

/-- What a command that answers `t` does: an effect that leaves `t`, and the same effect from other flags. -/
theorem exec_effect {i : Instr} {s t : State} (he : exec i s = .next t) :
    ∃ e, Effect.Of s i e ∧ t = e.apply s ∧
      ∀ z n ni, exec i { s with z := z, n := n, ni := ni } = .next (e.apply { s with z := z, n := n, ni := ni }) := by
  obtain ⟨e, hof, hexec⟩ := exec_hasEffect i s
  refine ⟨e, hof, ?_, fun z n ni => hexec _ ⟨rfl, rfl, rfl⟩⟩
  injection he.symm.trans (hexec s ⟨rfl, rfl, rfl⟩)

theorem writesZN_of_flagSource {i : Instr} {k : RegIdx} (h : flagSource i = some k) : writesZN i = true := by
  cases i <;> simp [flagSource] at h <;> rfl

theorem isBranch_of_branchParts {i : Instr} {c : Cond} {off : Int} (h : branchParts i = some (c, off)) :
    isBranch i = true := by
  cases i <;> simp [branchParts] at h <;> rfl

/-- Settles O33: the effect is the same with other flags (`exec_effect`), and what it leaves in them is what R40's table
lists or what was there before. -/
theorem onlyBranchesReadTheFlags : Obligations.OnlyBranchesReadTheFlags := by
  unfold Obligations.OnlyBranchesReadTheFlags
  intro i s t z n ni herr hb he
  obtain ⟨e, hof, rfl, hexec⟩ := exec_effect he
  rw [hexec z n ni]
  congr 1
  cases hof with
  | fault hr => simp [Effect.apply, State.faulted]
  | write hd hn => simp [Effect.apply, State.written, State.nextPc, writesZN_of_flagSource hd, hn, herr]
  | divide hd hn => simp [Effect.apply, State.divided, State.nextPc, writesZN_of_flagSource hd, hn, herr]
  | cmp => simp [Effect.apply, State.advance_eq, State.setCompare, State.nextPc, writesZN, isBranch, writesNI, herr]
  | cmpM => simp [Effect.apply, State.advance_eq, State.setCompare, State.nextPc, writesZN, isBranch, writesNI, herr]
  | modinv hv =>
    cases hm : s.cfg.modinvMode <;>
      simp [Effect.apply, State.drawInverse, hm, State.setNI, State.written, State.nextPc, writesZN, isBranch, writesNI,
        herr]
  | branch hp => cases (isBranch_of_branchParts hp).symm.trans hb
  | nop => simp [Effect.apply, State.advance_eq, State.nextPc, writesZN, isBranch, writesNI]
  | halt => simp [Effect.apply, State.advance_eq, State.endRun, State.nextPc, writesZN, isBranch, writesNI]

@[simp] theorem State.written_z (s : State) (rd : RegIdx) (v : Int) : (s.written rd v).z = decide (v = 0) := rfl
@[simp] theorem State.written_n (s : State) (rd : RegIdx) (v : Int) : (s.written rd v).n = decide (v < 0) := rfl
@[simp] theorem State.divided_z (s : State) (rd rc : RegIdx) (q r : Int) :
    (s.divided rd rc q r).z = decide (r = 0) := rfl
@[simp] theorem State.divided_n (s : State) (rd rc : RegIdx) (q r : Int) :
    (s.divided rd rc q r).n = decide (r < 0) := rfl

section
variable {i : Instr} {s : State} {e : Effect}

/-- Z and N after a command that writes them from a register (R40). -/
theorem zn_of_flagSource {k : RegIdx} (hof : Effect.Of s i e) (herr : (e.apply s).err = false)
    (hk : flagSource i = some k) :
    (e.apply s).z = decide ((e.apply s).reg k = 0) ∧ (e.apply s).n = decide ((e.apply s).reg k < 0) := by
  cases hof with
  | fault hr => cases herr
  | write hd hn =>
    cases hd.symm.trans hk
    simp [Effect.apply, State.reg_written]
  | divide hd hn =>
    cases hd.symm.trans hk
    simp [Effect.apply, State.reg_divided]
  | modinv hv =>
    cases hk
    simp [Effect.apply, State.reg_written]
  | branch hp =>
    have hz := writesZN_of_flagSource hk
    simp [writesZN, isBranch_of_branchParts hp] at hz
  | cmp | cmpM | nop | halt => cases hk

theorem zn_of_cmp {a b : RegIdx} (hof : Effect.Of s (.cmp a b) e) (herr : (e.apply s).err = false) :
    (e.apply s).z = decide (s.reg a = s.reg b) ∧ (e.apply s).n = decide (s.reg a < s.reg b) := by
  cases hof with
  | fault hr => cases herr
  | write hd hn | divide hd hn => cases hd
  | branch hp => cases hp
  | cmp => exact ⟨rfl, rfl⟩

theorem zn_of_cmpM {a b : RegIdx} (hof : Effect.Of s (.cmpM a b) e) (herr : (e.apply s).err = false) :
    (e.apply s).z = decide (|s.reg a| = |s.reg b|) ∧ (e.apply s).n = decide (|s.reg a| < |s.reg b|) := by
  cases hof with
  | fault hr => cases herr
  | write hd hn | divide hd hn => cases hd
  | branch hp => cases hp
  | cmpM => exact ⟨rfl, rfl⟩

/-- MODINV's d is not negative, so N is 0; NI tells whether the gcd is 1 (R40, R244). -/
theorem n_ni_of_modinv {d a b : RegIdx} (hof : Effect.Of s (.modinv d a b) e) (herr : (e.apply s).err = false) :
    (e.apply s).n = false ∧ (e.apply s).ni = decide (Int.gcd (s.reg a) (s.reg b) ≠ 1) := by
  cases hof with
  | fault hr => cases herr
  | write hd hn | divide hd hn => cases hn
  | branch hp => cases hp
  | modinv hv => exact ⟨decide_eq_false (not_lt.2 hv), rfl⟩

end

/-- Completing never sets or clears ERR. -/
theorem Completed.err {i : Instr} {s t : State} (hc : Completed i s t) : t.err = s.err := by
  by_cases hi : i = .halt
  · obtain ⟨-, -, -, herr, -⟩ := hc.halt hi
    exact herr
  · exact (hc.run hi).err

/-- Settles O32: a fault leaves the flags, completing leaves those outside the command's frame, and its effect says what
the others are set from. -/
theorem flagsFollowTheTable : Obligations.FlagsFollowTheTable := by
  unfold Obligations.FlagsFollowTheTable
  intro i s t herr he
  rcases exec_cases i s with ⟨code, -, hfault⟩ | ⟨u, hu, hc⟩
  · cases hfault.symm.trans he
    exact ⟨fun _ => ⟨rfl, rfl, rfl⟩, fun h => by cases h⟩
  cases hu.symm.trans he
  obtain ⟨e, hof, rfl, -⟩ := exec_effect he
  have herr' : (e.apply s).err = false := hc.err.trans herr
  refine ⟨fun h => absurd (herr'.symm.trans h) (by simp),
    fun _ => ⟨fun k => zn_of_flagSource hof herr', ?_, ?_, ?_, hc.ni, hc.zn⟩⟩
  · rintro a b rfl
    exact zn_of_cmp hof herr'
  · rintro a b rfl
    exact zn_of_cmpM hof herr'
  · rintro d a b rfl
    exact n_ni_of_modinv hof herr'

end Sys2Proof.Machine

/-! PROOFS. The registers of the host port as read (R43, R45, R47, R54, R55) and the encoding of integers as limbs
(R32 to R35). -/

namespace Sys2Proof.Machine

/-! ## Bits and fields of a word given as a sum -/

theorem bit_le (b : Bool) : bit b ≤ 1 := by cases b <;> decide

/-- A bit of a word given by its number (R12). -/
theorem getLsbD_ofNat_eq {x k : Nat} {b : Bool} (hk : k < 32) (h : x / 2 ^ k % 2 = bit b) :
    (BitVec.ofNat 32 x).getLsbD k = b := by
  rw [BitVec.getLsbD_ofNat, Nat.testBit_eq_decide_div_mod_eq, h]
  cases b <;> simp [bit, hk]

/-- A field of a word given by its number (R12). -/
theorem field_ofNat {x hi lo : Nat} (hx : x < 2 ^ 32) :
    field (BitVec.ofNat 32 x) hi lo = x / 2 ^ lo % 2 ^ (hi + 1 - lo) := by
  rw [field, BitVec.toNat_ofNat, Nat.mod_eq_of_lt hx]

theorem ErrCode.toNat_le (e : ErrCode) : e.toNat ≤ 6 := by cases e <;> decide

/-- Settles O42: the terms of the sum of `statusWord` lie at their own bits. -/
theorem statusBitsAsRead : Obligations.StatusBitsAsRead := by
  unfold Obligations.StatusBitsAsRead
  intro s
  refine ⟨s.statusWord, hostRead_eq_readPort 0x008 s (.inr rfl), ?_⟩
  have hcode := s.errcode.toNat_le
  have hbusy := bit_le s.busy; have hdone := bit_le s.done; have herr := bit_le s.err
  have habort := bit_le s.abortp; have hz := bit_le s.z; have hn := bit_le s.n
  have hni := bit_le s.ni; have hxerr := bit_le s.xerr; have hherr := bit_le s.herr
  unfold State.statusWord
  refine ⟨getLsbD_ofNat_eq (by decide) ?_, getLsbD_ofNat_eq (by decide) ?_, getLsbD_ofNat_eq (by decide) ?_,
    getLsbD_ofNat_eq (by decide) ?_, ?_, getLsbD_ofNat_eq (by decide) ?_, getLsbD_ofNat_eq (by decide) ?_,
    getLsbD_ofNat_eq (by decide) ?_, getLsbD_ofNat_eq (by decide) ?_, getLsbD_ofNat_eq (by decide) ?_, ?_⟩
  case refine_5 | refine_11 => rw [field_ofNat (by omega)]; omega
  all_goals omega

/-! ## Read-only registers -/

theorem paramWord_fields {c : Config} (hc : c.valid = true) :
    field (paramWord c) 15 0 = c.lMax ∧ field (paramWord c) 19 16 = c.pcw ∧
      ((paramWord c).getLsbD 24 = true ↔ c.modinvMode = .weakMode) ∧ field (paramWord c) 23 20 = 0 ∧
      field (paramWord c) 31 25 = 0 := by
  obtain ⟨-, hL, -, hpcw⟩ := (Config.valid_iff c).1 hc
  have hmode := bit_le (decide (c.modinvMode = .weakMode))
  unfold paramWord
  have hbit : (BitVec.ofNat 32 (c.lMax % 2 ^ 16 + 2 ^ 16 * (c.pcw % 16) +
      2 ^ 24 * bit (decide (c.modinvMode = .weakMode)))).getLsbD 24 = decide (c.modinvMode = .weakMode) :=
    getLsbD_ofNat_eq (by decide) (by omega)
  refine ⟨?_, ?_, ?_, ?_, ?_⟩
  case refine_3 => rw [hbit, decide_eq_true_eq]
  all_goals rw [field_ofNat (by omega)]; omega

/-- Settles O52: each register by its port (`hostRead_eq_readPort`, `hostWrite_eq_writePort`). -/
theorem readOnlyRegisters : Obligations.ReadOnlyRegisters := by
  unfold Obligations.ReadOnlyRegisters
  intro s w h
  have hL := ((Config.valid_iff _).1 h.cfg_valid).2.1
  have hlimbs := h.nlimbs_le s.sel
  refine ⟨hostRead_eq_readPort 0x000 s (.inr rfl), hostWrite_eq_writePort 0x000 w s (.inr rfl),
    ⟨_, hostRead_eq_readPort 0x028 s (.inr rfl), paramWord_fields h.cfg_valid⟩,
    hostWrite_eq_writePort 0x028 w s (.inr rfl), fun hb => ⟨⟨_, hostRead_eq_readPort 0x020 s (.inl hb), ?_⟩,
      ⟨_, hostRead_eq_readPort 0x024 s (.inl hb), ?_⟩, hostWrite_eq_writePort 0x020 w s (.inl hb),
      hostWrite_eq_writePort 0x024 w s (.inl hb)⟩⟩
  · exact Nat.mod_eq_of_lt (by omega)
  · show (BitVec.ofNat 32 (bit (signBit (s.reg s.sel)))).toNat = _
    by_cases hneg : s.reg s.sel < 0 <;> simp [signBit, bit, hneg]

/-! ## The encoding of an integer -/

theorem limb_eq_zero_of_nlimbs_le {v : Int} {j : Nat} (hj : nlimbs v ≤ j) : limb v j = 0 := by
  have hlt : v.natAbs < 2 ^ (32 * j) :=
    (natAbs_lt_nlimbs v).trans_le (Nat.pow_le_pow_right (by decide) (by omega))
  rw [limb, Nat.div_eq_of_lt hlt]
  rfl

/-- The magnitude is the sum of its limbs (R34). -/
theorem limbSum_limb_nlimbs (v : Int) : limbSum (limb v) (nlimbs v) = v.natAbs := by
  rw [limbSum_limb, Nat.mod_eq_of_lt (natAbs_lt_nlimbs v)]

/-- With a top limb of 0 the magnitude would need fewer limbs (R32). -/
theorem limb_top_ne_zero {v : Int} {k : Nat} (hk : 1 ≤ k) (hn : nlimbs v = k + 1) : limb v k ≠ 0 := by
  intro h0
  have hsum : v.natAbs = limbSum (limb v) k := by
    rw [← limbSum_limb_nlimbs v, hn, limbSum, h0]
    simp
  have hle : nlimbs v ≤ k := (nlimbs_le_iff v k hk).2 (hsum ▸ limbSum_lt (limb v) k)
  omega

theorem limbSum_eq_zero {word : Nat → Word} (h : ∀ j, word j = 0) (k : Nat) : limbSum word k = 0 := by
  induction k with
  | zero => rfl
  | succ k ih => simp [limbSum, ih, h k]

theorem signBit_of_limbs_eq_zero {v : Int} (h : ∀ j, limb v j = 0) : signBit v = false := by
  have hv : v.natAbs = 0 := (limbSum_limb_nlimbs v).symm.trans (limbSum_eq_zero h _)
  simp [signBit, Int.natAbs_eq_zero.1 hv]

/-- A number has one list of `k` limbs: the sum's last limb is its quotient by 2^(32k), the others its remainder. -/
theorem eq_of_limbSum_eq {f g : Nat → Word} {k : Nat} (h : limbSum f k = limbSum g k) : ∀ j < k, f j = g j := by
  induction k with
  | zero => intro j hj; omega
  | succ k ih =>
    have hpos : 0 < 2 ^ (32 * k) := by positivity
    have hf := limbSum_lt f k
    have hg := limbSum_lt g k
    simp only [limbSum] at h
    have hmod := congrArg (· % 2 ^ (32 * k)) h
    have hdiv := congrArg (· / 2 ^ (32 * k)) h
    simp only [Nat.add_mul_mod_self_right, Nat.mod_eq_of_lt hf, Nat.mod_eq_of_lt hg] at hmod
    simp only [Nat.add_mul_div_right _ _ hpos, Nat.div_eq_of_lt hf, Nat.div_eq_of_lt hg, zero_add] at hdiv
    intro j hj
    rcases Nat.lt_succ_iff_lt_or_eq.1 hj with hj | rfl
    · exact ih hmod j hj
    · exact BitVec.eq_of_toNat_eq hdiv

/-! An encoding of the minimal form (R32) and the value it stands for (R34). -/

section
variable {negative : Bool} {len : Nat} {word : Nat → Word}

theorem nlimbs_signed_limbSum_le (hlen : 1 ≤ len) : nlimbs (signed negative (limbSum word len)) ≤ len :=
  (nlimbs_le_iff _ _ hlen).2 (signed_limbSum_lt negative word le_rfl)

theorem limb_signed_limbSum (hlen : 1 ≤ len) (hzero : ∀ j, len ≤ j → word j = 0) (j : Nat) :
    limb (signed negative (limbSum word len)) j = word j := by
  by_cases hj : j < len
  · refine eq_of_limbSum_eq ?_ j hj
    rw [limbSum_limb, natAbs_signed, Nat.mod_eq_of_lt (limbSum_lt word len)]
  · rw [hzero j (by omega), limb_eq_zero_of_nlimbs_le]
    exact (nlimbs_signed_limbSum_le hlen).trans (by omega)

theorem nlimbs_signed_limbSum (hlen : 1 ≤ len) (htop : len = 1 ∨ word (len - 1) ≠ 0)
    (hzero : ∀ j, len ≤ j → word j = 0) : nlimbs (signed negative (limbSum word len)) = len := by
  refine le_antisymm (nlimbs_signed_limbSum_le hlen) ?_
  rcases htop with rfl | htop
  · exact nlimbs_pos _
  · by_contra hlt
    refine htop ?_
    rw [← limb_signed_limbSum (negative := negative) hlen hzero, limb_eq_zero_of_nlimbs_le (by omega)]

/-- A negative encoding has a limb that is not 0, so its value is below 0. -/
theorem signBit_signed_limbSum (hlen : 1 ≤ len) (hzero : ∀ j, len ≤ j → word j = 0)
    (hsign : (∀ j, word j = 0) → negative = false) : signBit (signed negative (limbSum word len)) = negative := by
  cases negative with
  | false => simp [signed, signBit]
  | true =>
    have hne : limbSum word len ≠ 0 := fun h0 => by
      refine absurd (hsign fun j => ?_) (by simp)
      rw [← limb_signed_limbSum (negative := true) hlen hzero j, h0]
      simp [limb, signed]
    rw [signed, if_pos ⟨rfl, hne⟩, signBit, decide_eq_true_eq]
    omega

end

/-- Settles O54: the limbs of a value sum to its magnitude (`decode_limbs`), and a number has one list of limbs
(`eq_of_limbSum_eq`). -/
theorem encodingIsABijection : Obligations.EncodingIsABijection := by
  unfold Obligations.EncodingIsABijection
  intro L hL
  refine ⟨fun v hv => ⟨nlimbs_pos v, (nlimbs_le_iff v L hL).2 hv, ?_, fun j => limb_eq_zero_of_nlimbs_le,
    signBit_of_limbs_eq_zero, decode_limbs v⟩,
    fun negative len word hlen hle htop hzero hsign => ⟨?_, ?_, ?_, ?_⟩⟩
  · have hpos := nlimbs_pos v
    by_cases h1 : nlimbs v = 1
    · exact .inl h1
    · exact .inr (limb_top_ne_zero (by omega) (by omega))
  · exact signed_limbSum_lt negative word hle
  · exact signBit_signed_limbSum hlen hzero hsign
  · exact nlimbs_signed_limbSum hlen htop hzero
  · exact limb_signed_limbSum hlen hzero

end Sys2Proof.Machine

/-! PROOFS. What each agent's move leaves of memory and of the other agent's side (R70 to R79, R88, R90, R290, R321). -/

namespace Sys2Proof.Machine

/-! ## The engine leaves memory and the host's side -/

/-- A fault changes run control alone and completing is within the command's frame, so neither reaches memory or the
host's side (R304, R321). -/
theorem exec_frame {i : Instr} {s t : State} (he : exec i s = .next t) :
    t.mem = s.mem ∧ SameHostSide s t ∧ (t.err = false → i ≠ .halt → SameRunControl s t) := by
  rcases exec_cases i s with ⟨code, -, hfault⟩ | ⟨u, hu, hc⟩
  · cases hfault.symm.trans he
    exact ⟨rfl, ⟨rfl, rfl, rfl, rfl, rfl, rfl, rfl, rfl, rfl, rfl⟩, fun h => by cases h⟩
  · cases hu.symm.trans he
    exact ⟨hc.mem, hc.host, fun _ => hc.run⟩

theorem sameMemory_of_mem_eq {s t : State} (hmem : t.mem = s.mem) (hepoch : t.epoch = s.epoch) : sameMemory s t := by
  intro a
  rw [State.readByte, State.readByte, hmem, hepoch]

theorem State.imem_eq_wordOfBytes (s : State) (k : Nat) :
    s.imem k = wordOfBytes (s.readByte (imemAddr k)) (s.readByte (imemAddr k + 1)) (s.readByte (imemAddr k + 2))
      (s.readByte (imemAddr k + 3)) := rfl

theorem sameMemory.imem_eq {s t : State} (h : sameMemory s t) (k : Nat) : t.imem k = s.imem k := by
  rw [t.imem_eq_wordOfBytes, s.imem_eq_wordOfBytes, h, h, h, h]

theorem exec_sameMemory {i : Instr} {s t : State} (he : exec i s = .next t) : sameMemory s t := by
  obtain ⟨hmem, hhost, -⟩ := exec_frame he
  exact sameMemory_of_mem_eq hmem hhost.epoch

/-- Settles O31: the frame of every command (`exec_frame`). -/
theorem commandsLeaveMemoryAndHostSide : Obligations.CommandsLeaveMemoryAndHostSide := by
  unfold Obligations.CommandsLeaveMemoryAndHostSide
  intro i s t he
  obtain ⟨-, hhost, hrun⟩ := exec_frame he
  exact ⟨exec_sameMemory he, hhost, fun _ => hrun⟩

/-! ## The host leaves a run -/

/-- A write of a port that is not open while BUSY = 1 sets HERR and nothing else (R290). -/
theorem hostWrite_of_refused {off : Offset} (w : Word) {s : State} (hb : s.busy = true)
    (hp : (portOf s.cfg off).always = false) : hostWrite off w s = { s with herr := true } := by
  simp [hostWrite, hb, hp]

/-- A read of such a port sets HERR and returns a free word (R290; log 9). -/
theorem hostRead_of_refused {off : Offset} {s : State} (hb : s.busy = true) (hp : (portOf s.cfg off).always = false) :
    hostRead off s =
      { s with herr := true, rdata := Config.busyReadWord s.draws, draws := s.draws + 1 } := by
  simp [hostRead, hb, hp]

/-- All that a run computes with, and what IMPORT and EXPORT take from the host, are as before (R88). -/
structure SameRun (s t : State) : Prop where
  regs : t.regs = s.regs
  z : t.z = s.z
  n : t.n = s.n
  ni : t.ni = s.ni
  pc : t.pc = s.pc
  mem : t.mem = s.mem
  epoch : t.epoch = s.epoch
  sel : t.sel = s.sel
  count : t.count = s.count
  xsign : t.xsign = s.xsign
  busy : t.busy = s.busy
  inFlight : t.inFlight = s.inFlight

/-- All that a host access other than a soft reset can change during a run (R284, R285, R290; log 8, log 9). -/
theorem sameRun_withStatus (s : State) {ie done err abortp xerr herr : Bool} {errcode : ErrCode} {draws : Nat}
    {rdata : Word} :
    SameRun s { s with
      ie := ie, done := done, err := err, errcode := errcode, abortp := abortp, xerr := xerr, herr := herr,
      draws := draws, rdata := rdata } :=
  ⟨rfl, rfl, rfl, rfl, rfl, rfl, rfl, rfl, rfl, rfl, rfl, rfl⟩

theorem sameRun_hostRead (off : Offset) (s : State) : SameRun s (hostRead off s) := by
  unfold hostRead
  split <;> exact sameRun_withStatus s

/-- While BUSY = 1 a CTRL write without SRST only latches IE, ABORT and HERR (R284). -/
theorem softReset_or_sameRun_ctrlWrite (w : Word) {s : State} (hb : s.busy = true) :
    ctrlWrite w s = s.softReset ∨ SameRun s (ctrlWrite w s) := by
  unfold ctrlWrite
  split_ifs
  · exact .inl rfl
  · exact .inr (sameRun_withStatus s)

/-- A write that is not refused while BUSY = 1 goes to ID, CTRL, STATUS or PARAM (R290). -/
theorem softReset_or_sameRun_hostWrite (off : Offset) (w : Word) {s : State} (hb : s.busy = true) :
    hostWrite off w s = s.softReset ∨ SameRun s (hostWrite off w s) := by
  by_cases hp : (portOf s.cfg off).always = true
  · rw [hostWrite_eq_writePort off w s (.inr hp)]
    cases hport : portOf s.cfg off with
    | ctrl => exact softReset_or_sameRun_ctrlWrite w hb
    | id | status | param => exact .inr (sameRun_withStatus s)
    | pc | sel | count | xsign | xfer | rlen | rsign | buf _ | imem _ | unmapped => rw [hport] at hp; cases hp
  · rw [hostWrite_of_refused w hb (Bool.not_eq_true _ ▸ hp)]
    exact .inr (sameRun_withStatus s)

theorem softReset_or_sameRun_hostAccess (a : HostAccess) {s : State} (hb : s.busy = true) :
    hostAccess a s = s.softReset ∨ SameRun s (hostAccess a s) := by
  cases a with
  | read off => exact .inr (sameRun_hostRead off s)
  | write off w => exact softReset_or_sameRun_hostWrite off w hb

/-- Settles O44: the step is the host's access (`step_of_eventTurn`), and the access keeps the run
(`softReset_or_sameRun_hostAccess`). -/
theorem hostCannotDisturbARun : Obligations.HostCannotDisturbARun := by
  unfold Obligations.HostCannotDisturbARun
  intro s s' t a hturn hb hstep
  cases (step_of_eventTurn s s' _ hturn).symm.trans hstep
  obtain ⟨rest, -, rfl⟩ := hturn
  refine (softReset_or_sameRun_hostAccess a (s := { s with inputs := rest }) hb).imp_right fun h => ?_
  exact ⟨h.regs, h.z, h.n, h.ni, h.pc, h.mem, h.epoch, h.sel, h.count, h.xsign, h.busy.trans hb, h.inFlight⟩

/-! ## Host accesses of IMEM, BUF and the unmapped offsets -/

/-- BUF lies below IMEM in the window (R72). -/
theorem State.buf_setImem (s : State) (i j : Nat) (w : Word) (hc : s.cfg.valid = true) (hj : j < s.cfg.lMax) :
    (s.setImem i w).buf j = s.buf j := by
  obtain ⟨-, hL, -⟩ := (Config.valid_iff _).1 hc
  exact Memory.readWord_writeWord_of_disjoint _ _ _ _ _ (by unfold bufAddr imemAddr; omega)

/-- Settles O49: the engine's half by `exec_sameMemory`, the host's by the port the offset selects. -/
theorem fetchSeesIdleImemWrites : Obligations.FetchSeesIdleImemWrites := by
  unfold Obligations.FetchSeesIdleImemWrites
  refine ⟨fun i s t he k => (exec_sameMemory he).imem_eq k, fun s off w i hc hi hoff => ?_⟩
  have hport : portOf s.cfg off = .imem i := (portOf_eq_imem_iff _ hc _ _).2 ⟨hi, by omega⟩
  refine ⟨fun hb => ?_, fun hb k => ?_⟩
  · have hw : hostWrite off w s = s.setImem i w := by rw [hostWrite_eq_writePort off w s (.inl hb), hport]; rfl
    rw [hw]
    exact ⟨s.imem_setImem_self i w, fun k hk => s.imem_setImem_of_ne i k w hk, fun j hj => s.buf_setImem i j w hc hj⟩
  · rw [hostWrite_of_refused w hb (by rw [hport]; rfl)]
    rfl

/-- Settles O50: both views read a lane of the word stored at BUF[j] (`State.buf_setBuf_self`,
`Memory.readByte_writeWord`). -/
theorem byteLanesAreLittleEndian : Obligations.ByteLanesAreLittleEndian := by
  unfold Obligations.ByteLanesAreLittleEndian
  intro s j k w off byteOff hc hb hj hk hoff hbyte
  have hport : portOf s.cfg off = .buf j := (portOf_eq_buf_iff _ hc _ _).2 ⟨hj, by omega⟩
  have hportByte : portOf s.cfg byteOff = .buf j := (portOf_eq_buf_iff _ hc _ _).2 ⟨hj, by omega⟩
  have hw : hostWrite off w s = s.setBuf j w := by rw [hostWrite_eq_writePort off w s (.inl hb), hport]; rfl
  rw [hw]
  constructor
  · have hlane : byteOff.toNat % 4 = k := by omega
    rw [State.windowByte, State.setBuf_cfg, hportByte, hlane]
    exact congrArg (wordByte · k) (s.buf_setBuf_self j w)
  · have hlane : byteOff.toNat - bufAddr j = k := by unfold bufAddr; omega
    refine (Memory.readByte_writeWord s.mem s.epoch (bufAddr j) byteOff.toNat w).trans ?_
    rw [if_pos (by unfold bufAddr; omega), hlane]
    rfl

/-- Settles O51: each of the three holes of R72 is unmapped (`portOf_eq_unmapped_iff`). -/
theorem unmappedOffsetsReadZero : Obligations.UnmappedOffsetsReadZero := by
  unfold Obligations.UnmappedOffsetsReadZero
  intro s off w hc hoff
  have hport : portOf s.cfg off = .unmapped := by
    obtain ⟨-, hL, -⟩ := (Config.valid_iff _).1 hc
    exact (portOf_eq_unmapped_iff _ _).2 (by omega)
  have hclosed : (portOf s.cfg off).always = false := by rw [hport]; rfl
  refine ⟨fun hb => ⟨?_, ?_⟩, fun hb => ⟨hostWrite_of_refused w hb hclosed, _, _, hostRead_of_refused hb hclosed⟩⟩
  · rw [hostRead_eq_readPort off s (.inl hb), hport]
    rfl
  · rw [hostWrite_eq_writePort off w s (.inl hb), hport]
    rfl

end Sys2Proof.Machine

/-! PROOFS. The decoder against the encoder (R111 to R116) and the bit patterns of R119: decoding and encoding are
inverse, a word decodes exactly when it matches a row, and every other word raises FAULT(ILLEGAL) (R120). Last, what the
pseudo-instructions do (R133). -/

namespace Sys2Proof.Machine

/-! ## Every well-formed command is read back from its word -/

/-- In each format the fields of the word are the command's operands, those that must be 0 are 0, and an immediate in
range survives its field. -/
theorem decode_encode {i : Instr} (h : i.wellFormed = true) : decode (encode i) = .ok i := by
  cases i with
  | nop | halt => rfl
  | ldi _ imm | shfti _ _ imm =>
    simp [encode, decode, fields_encodeI, whenZero, sext16_immField imm h]
  | bAL off | bEQ off | bNE off | bLT off | bGE off | bGT off | bLE off | bNI off | bIV off =>
    simp [encode, decode, fields_encodeB, decodeBranch, sext16_immField off h]
  | mov | shft | and | or | xor | gcd | modexp | modinv =>
    simp [encode, decode, fields_encodeR, whenZero]
  | add | addM | sub | subM | mul | mulM | div | divM | cmp | cmpM =>
    simp [encode, decode, fields_encodeR, bySign, whenZero]

/-- Settles O1: the round trip is `decode_encode`, a case for each format. -/
theorem decodeEncodeRoundTrip : Obligations.DecodeEncodeRoundTrip := by
  unfold Obligations.DecodeEncodeRoundTrip
  exact fun i h => decode_encode h

/-! ## Fields that are 0, and the word of given fields -/

theorem field_eq_zero_iff {w : Word} {hi lo : Nat} :
    field w hi lo = 0 ↔ ∀ j, lo ≤ j → j ≤ hi → w.toNat.testBit j = false := by
  constructor
  · intro h j hlo hhi
    have hbit : (field w hi lo).testBit (j - lo) = false := by rw [h, Nat.zero_testBit]
    rw [field, Nat.testBit_mod_two_pow, Nat.testBit_div_two_pow, Nat.sub_add_cancel hlo] at hbit
    simpa [show j - lo < hi + 1 - lo by omega] using hbit
  · intro h
    refine Nat.zero_of_testBit_eq_false fun j => ?_
    rw [field, Nat.testBit_mod_two_pow, Nat.testBit_div_two_pow]
    by_cases hj : j < hi + 1 - lo
    · rw [h (j + lo) (by omega) (by omega), Bool.and_false]
    · simp [hj]

section
variable {w : Word} {hi lo hi' lo' : Nat}

/-- A field inside a field that is 0 is 0. -/
theorem field_eq_zero_of_le (h : field w hi lo = 0) (hlo : lo ≤ lo' := by omega) (hhi : hi' ≤ hi := by omega) :
    field w hi' lo' = 0 :=
  field_eq_zero_iff.2 fun j hj hj' => field_eq_zero_iff.1 h j (hlo.trans hj) (hj'.trans hhi)

/-- A register field inside a field that is 0 names register 0. -/
theorem regField_eq_zero_of_le (h : field w hi lo = 0) (hlo : lo ≤ lo' := by omega) (hhi : lo' + 3 ≤ hi := by omega) :
    regField w lo' = 0 :=
  regField_eq_zero w (lo' + 3) lo' rfl (field_eq_zero_of_le h hlo hhi)

end

section
variable {w : Word} {op S : Nat} {rd ra rb rc : RegIdx}

/-- `encodeR_fields`, each field by its value. -/
theorem encodeR_eq (hop : field w 31 26 = op) (hrd : regField w 22 = rd) (hra : regField w 18 = ra)
    (hrb : regField w 14 = rb) (hrc : regField w 10 = rc) (hS : field w 9 9 = S) (h0 : field w 8 0 = 0) :
    encodeR op rd ra rb rc S = w := by
  subst hop hrd hra hrb hrc hS
  exact encodeR_fields w h0

/-- `encodeI_fields`, each field but the immediate by its value. -/
theorem encodeI_eq (hop : field w 31 26 = op) (hrd : regField w 22 = rd) (hra : regField w 18 = ra)
    (h0 : field w 17 16 = 0) : encodeI op rd ra (sext16 (field w 15 0)) = w := by
  subst hop hrd hra
  exact encodeI_fields w h0

theorem encodeN_eq (hop : field w 31 26 = op) (h0 : field w 25 0 = 0) : encodeN op = w := by
  subst hop
  exact encodeN_fields w h0

/-- The word of a format-R command whose last operand field lies above a field that is 0. -/
theorem encodeR_eq_of_low_zero {hi : Nat} (hop : field w 31 26 = op) (h0 : field w hi 0 = 0) (hhi : 9 ≤ hi)
    (hrb : regField w 14 = rb) (hrc : regField w 10 = rc) :
    encodeR op (regField w 22) (regField w 18) rb rc 0 = w :=
  encodeR_eq hop rfl rfl hrb hrc (field_eq_zero_of_le h0) (field_eq_zero_of_le h0)

end

/-! ## A word that decodes is the command's word -/

theorem whenZero_eq_ok_iff {reserved : Nat} {i j : Instr} : whenZero reserved i = .ok j ↔ reserved = 0 ∧ i = j := by
  unfold whenZero
  split <;> simp [*]

section
variable {w : Word} {reserved : Nat} {signed magnitude i : Instr}

theorem bySign_eq_ok_iff :
    bySign w reserved signed magnitude = .ok i ↔
      reserved = 0 ∧ (field w 9 9 = 1 ∧ signed = i ∨ field w 9 9 = 0 ∧ magnitude = i) := by
  have hS := field_lt w 9 9
  rw [bySign, whenZero_eq_ok_iff]
  split_ifs with h
  · simp [h]
  · simp [show field w 9 9 = 0 by omega]

/-- A command with two forms is encoded with the S bit that picks its form (R113). -/
theorem encode_of_bySign {op : Nat} {rd ra rb rc : RegIdx} (h : bySign w reserved signed magnitude = .ok i)
    (hsigned : encode signed = encodeR op rd ra rb rc 1) (hmagnitude : encode magnitude = encodeR op rd ra rb rc 0)
    (hword : reserved = 0 → encodeR op rd ra rb rc (field w 9 9) = w) : encode i = w := by
  obtain ⟨h0, ⟨hS, rfl⟩ | ⟨hS, rfl⟩⟩ := bySign_eq_ok_iff.1 h
  · rw [hsigned, ← hS, hword h0]
  · rw [hmagnitude, ← hS, hword h0]

theorem encode_of_decodeBranch {cond : Nat} {off : Int} (h : decodeBranch cond off = .ok i) :
    encode i = encodeB cond off := by
  unfold decodeBranch at h
  split at h <;> cases h <;> rfl

end

/-- The decoder's arms, by the opcode: the bits that an arm requires to be 0 are those that `encode` leaves 0. -/
theorem encode_of_decode {w : Word} {i : Instr} (h : decode w = .ok i) : encode i = w := by
  simp only [decode] at h
  split at h
  -- the commands with two forms: ADD, SUB and MUL; DIV; CMP
  case h_5 hop | h_6 hop | h_7 hop =>
    exact encode_of_bySign h rfl rfl fun h0 =>
      encodeR_eq hop rfl rfl rfl (regField_eq_zero w 13 10 rfl (by omega)) rfl (by omega)
  case h_8 hop => exact encode_of_bySign h rfl rfl fun h0 => encodeR_eq hop rfl rfl rfl rfl rfl h0
  case h_9 hop =>
    exact encode_of_bySign h rfl rfl fun h0 =>
      encodeR_eq hop (regField_eq_zero w 25 22 rfl (by omega)) rfl rfl (regField_eq_zero w 13 10 rfl (by omega)) rfl
        (by omega)
  -- B.cond
  case h_18 hop =>
    split at h
    next h0 => rw [encode_of_decodeBranch h, encodeB_fields w h0 hop]
    next => cases h
  -- a reserved opcode
  case h_19 => cases h
  -- the commands with one form: NOP and HALT; LDI; MOV; SHFTI; MODEXP; those with three registers
  all_goals
    rename field w 31 26 = _ => hop
    obtain ⟨h0, rfl⟩ := whenZero_eq_ok_iff.1 h
  case h_1 | h_2 => exact encodeN_eq hop h0
  case h_3 => exact encodeI_eq hop rfl (regField_eq_zero_of_le h0) (field_eq_zero_of_le h0)
  case h_4 => exact encodeR_eq_of_low_zero hop h0 (by decide) (regField_eq_zero_of_le h0) (regField_eq_zero_of_le h0)
  case h_11 => exact encodeI_eq hop rfl rfl h0
  case h_16 => exact encodeR_eq_of_low_zero hop h0 (by decide) rfl rfl
  all_goals exact encodeR_eq_of_low_zero hop h0 (by decide) rfl (regField_eq_zero_of_le h0)

/-- Settles O2: the command's immediate comes from a 16-bit field (`wellFormed_of_decode`), and the word has no other
bits than the command's (`encode_of_decode`). -/
theorem encodeDecodeRoundTrip : Obligations.EncodeDecodeRoundTrip := by
  unfold Obligations.EncodeDecodeRoundTrip
  exact fun w i h => ⟨wellFormed_of_decode h, encode_of_decode h⟩

/-! ## The word of a row of R119 decodes to the row's command -/

section
variable {w p m : Word}

/-- Where the mask covers a field, a word that matches the row has the pattern's field. -/
theorem field_of_matches (h : w &&& m = p) {hi lo : Nat} (hm : field m hi lo = 2 ^ (hi + 1 - lo) - 1) :
    field w hi lo = field p hi lo := by
  have hand : field (w &&& m) hi lo = field w hi lo &&& field m hi lo := by
    simp only [field, BitVec.toNat_and, Nat.and_div_two_pow, Nat.and_mod_two_pow]
  rw [← h, hand, hm, Nat.and_two_pow_sub_one_eq_mod, Nat.mod_eq_of_lt (field_lt w hi lo)]

theorem regField_of_matches (h : w &&& m = p) {lo : Nat} (hm : field m (lo + 3) lo = 15) :
    regField w lo = regField p lo := by
  have hlen : lo + 3 + 1 - lo = 4 := by omega
  have hfield := field_of_matches h (hi := lo + 3) (lo := lo) (by rw [hm, hlen]; rfl)
  rw [field, field, hlen] at hfield
  exact Fin.ext hfield

end

theorem encodedAs_of_encode {p m : Word} {f : Word → Instr} (hwf : ∀ w, (f w).wellFormed = true)
    (henc : ∀ w, w &&& m = p → encode (f w) = w) : EncodedAs p m f := fun w h =>
  calc decode w = decode (encode (f w)) := by rw [henc w h]
    _ = .ok (f w) := decode_encode (hwf w)

theorem immInRange_imm16 (w : Word) : immInRange (sext16 (field w 15 0)) = true :=
  immInRange_sext16 _ (field_lt w 15 0)

theorem immField_imm16 (w : Word) : immField (sext16 (field w 15 0)) = field w 15 0 :=
  immField_sext16 _ (field_lt w 15 0)

/-! One lemma for each kind of row: the fields that the mask covers are read off the pattern. -/

section
variable {p : Word}

theorem encodedAs_noOperand {i : Instr} (hwf : i.wellFormed = true) (henc : encode i = p) :
    EncodedAs p 0xFFFFFFFF (fun _ => i) :=
  encodedAs_of_encode (fun _ => hwf) fun w h => by
    have hall : w &&& 0xFFFFFFFF = w := BitVec.and_allOnes
    rw [henc, ← h, hall]

theorem encodedAs_threeRegs (f : RegIdx → RegIdx → RegIdx → Instr)
    (hwf : ∀ rd ra rb, (f rd ra rb).wellFormed = true)
    (henc : ∀ rd ra rb, encode (f rd ra rb) = encodeR (field p 31 26) rd ra rb (regField p 10) (field p 9 9))
    (h0 : field p 8 0 = 0) : EncodedAs p 0xFC003FFF (fun w => f (regField w 22) (regField w 18) (regField w 14)) :=
  encodedAs_of_encode (fun _ => hwf _ _ _) fun _ h => (henc _ _ _).trans <|
    encodeR_eq (field_of_matches h rfl) rfl rfl rfl (regField_of_matches h rfl) (field_of_matches h rfl)
      ((field_of_matches h rfl).trans h0)

theorem encodedAs_fourRegs (f : RegIdx → RegIdx → RegIdx → RegIdx → Instr)
    (hwf : ∀ rd ra rb rc, (f rd ra rb rc).wellFormed = true)
    (henc : ∀ rd ra rb rc, encode (f rd ra rb rc) = encodeR (field p 31 26) rd ra rb rc (field p 9 9))
    (h0 : field p 8 0 = 0) :
    EncodedAs p 0xFC0003FF (fun w => f (regField w 22) (regField w 18) (regField w 14) (regField w 10)) :=
  encodedAs_of_encode (fun _ => hwf _ _ _ _) fun _ h => (henc _ _ _ _).trans <|
    encodeR_eq (field_of_matches h rfl) rfl rfl rfl rfl (field_of_matches h rfl) ((field_of_matches h rfl).trans h0)

theorem encodedAs_twoSources (f : RegIdx → RegIdx → Instr) (hwf : ∀ ra rb, (f ra rb).wellFormed = true)
    (henc : ∀ ra rb,
      encode (f ra rb) = encodeR (field p 31 26) (regField p 22) ra rb (regField p 10) (field p 9 9))
    (h0 : field p 8 0 = 0) : EncodedAs p 0xFFC03FFF (fun w => f (regField w 18) (regField w 14)) :=
  encodedAs_of_encode (fun _ => hwf _ _) fun _ h => (henc _ _).trans <|
    encodeR_eq (field_of_matches h rfl) (regField_of_matches h rfl) rfl rfl (regField_of_matches h rfl)
      (field_of_matches h rfl) ((field_of_matches h rfl).trans h0)

theorem encodedAs_branch (f : Int → Instr) (hwf : ∀ off, (f off).wellFormed = immInRange off)
    (henc : ∀ off, encode (f off) = encodeB (field p 25 22) off) (hop : field p 31 26 = 0x20) (h0 : field p 21 16 = 0) :
    EncodedAs p 0xFFFF0000 (fun w => f (sext16 (field w 15 0))) :=
  encodedAs_of_encode (fun w => (hwf _).trans (immInRange_imm16 w)) fun w h => by
    rw [henc, ← field_of_matches h rfl]
    exact encodeB_fields w ((field_of_matches h rfl).trans h0) ((field_of_matches h rfl).trans hop)

end

theorem encodedAs_nop : EncodedAs 0x04000000 0xFFFFFFFF (fun _ => .nop) := encodedAs_noOperand rfl rfl

theorem encodedAs_halt : EncodedAs 0x08000000 0xFFFFFFFF (fun _ => .halt) := encodedAs_noOperand rfl rfl

theorem encodedAs_ldi : EncodedAs 0x0C000000 0xFC3F0000 (fun w => .ldi (regField w 22) (sext16 (field w 15 0))) :=
  encodedAs_of_encode immInRange_imm16 fun _ h =>
    have h0 := field_of_matches h (hi := 21) (lo := 16) rfl
    encodeI_eq (field_of_matches h rfl) rfl (regField_eq_zero_of_le h0) (field_eq_zero_of_le h0)

theorem encodedAs_mov : EncodedAs 0x10000000 0xFC03FFFF (fun w => .mov (regField w 22) (regField w 18)) :=
  encodedAs_of_encode (fun _ => rfl) fun _ h =>
    have h0 := field_of_matches h (hi := 17) (lo := 0) rfl
    encodeR_eq_of_low_zero (field_of_matches h rfl) h0 (by decide) (regField_eq_zero_of_le h0) (regField_eq_zero_of_le h0)

theorem encodedAs_add :
    EncodedAs 0x14000200 0xFC003FFF (fun w => .add (regField w 22) (regField w 18) (regField w 14)) :=
  encodedAs_threeRegs .add (fun _ _ _ => rfl) (fun _ _ _ => rfl) rfl

theorem encodedAs_addM :
    EncodedAs 0x14000000 0xFC003FFF (fun w => .addM (regField w 22) (regField w 18) (regField w 14)) :=
  encodedAs_threeRegs .addM (fun _ _ _ => rfl) (fun _ _ _ => rfl) rfl

theorem encodedAs_sub :
    EncodedAs 0x18000200 0xFC003FFF (fun w => .sub (regField w 22) (regField w 18) (regField w 14)) :=
  encodedAs_threeRegs .sub (fun _ _ _ => rfl) (fun _ _ _ => rfl) rfl

theorem encodedAs_subM :
    EncodedAs 0x18000000 0xFC003FFF (fun w => .subM (regField w 22) (regField w 18) (regField w 14)) :=
  encodedAs_threeRegs .subM (fun _ _ _ => rfl) (fun _ _ _ => rfl) rfl

theorem encodedAs_mul :
    EncodedAs 0x1C000200 0xFC003FFF (fun w => .mul (regField w 22) (regField w 18) (regField w 14)) :=
  encodedAs_threeRegs .mul (fun _ _ _ => rfl) (fun _ _ _ => rfl) rfl

theorem encodedAs_mulM :
    EncodedAs 0x1C000000 0xFC003FFF (fun w => .mulM (regField w 22) (regField w 18) (regField w 14)) :=
  encodedAs_threeRegs .mulM (fun _ _ _ => rfl) (fun _ _ _ => rfl) rfl

theorem encodedAs_div : EncodedAs 0x20000200 0xFC0003FF
    (fun w => .div (regField w 22) (regField w 18) (regField w 14) (regField w 10)) :=
  encodedAs_fourRegs .div (fun _ _ _ _ => rfl) (fun _ _ _ _ => rfl) rfl

theorem encodedAs_divM : EncodedAs 0x20000000 0xFC0003FF
    (fun w => .divM (regField w 22) (regField w 18) (regField w 14) (regField w 10)) :=
  encodedAs_fourRegs .divM (fun _ _ _ _ => rfl) (fun _ _ _ _ => rfl) rfl

theorem encodedAs_cmp : EncodedAs 0x24000200 0xFFC03FFF (fun w => .cmp (regField w 18) (regField w 14)) :=
  encodedAs_twoSources .cmp (fun _ _ => rfl) (fun _ _ => rfl) rfl

theorem encodedAs_cmpM : EncodedAs 0x24000000 0xFFC03FFF (fun w => .cmpM (regField w 18) (regField w 14)) :=
  encodedAs_twoSources .cmpM (fun _ _ => rfl) (fun _ _ => rfl) rfl

theorem encodedAs_shft :
    EncodedAs 0x28000000 0xFC003FFF (fun w => .shft (regField w 22) (regField w 18) (regField w 14)) :=
  encodedAs_threeRegs .shft (fun _ _ _ => rfl) (fun _ _ _ => rfl) rfl

theorem encodedAs_shfti :
    EncodedAs 0x2C000000 0xFC030000 (fun w => .shfti (regField w 22) (regField w 18) (sext16 (field w 15 0))) :=
  encodedAs_of_encode immInRange_imm16 fun _ h =>
    encodeI_eq (field_of_matches h rfl) rfl rfl (field_of_matches h rfl)

theorem encodedAs_and :
    EncodedAs 0x30000000 0xFC003FFF (fun w => .and (regField w 22) (regField w 18) (regField w 14)) :=
  encodedAs_threeRegs .and (fun _ _ _ => rfl) (fun _ _ _ => rfl) rfl

theorem encodedAs_or :
    EncodedAs 0x34000000 0xFC003FFF (fun w => .or (regField w 22) (regField w 18) (regField w 14)) :=
  encodedAs_threeRegs .or (fun _ _ _ => rfl) (fun _ _ _ => rfl) rfl

theorem encodedAs_xor :
    EncodedAs 0x38000000 0xFC003FFF (fun w => .xor (regField w 22) (regField w 18) (regField w 14)) :=
  encodedAs_threeRegs .xor (fun _ _ _ => rfl) (fun _ _ _ => rfl) rfl

theorem encodedAs_gcd :
    EncodedAs 0x40000000 0xFC003FFF (fun w => .gcd (regField w 22) (regField w 18) (regField w 14)) :=
  encodedAs_threeRegs .gcd (fun _ _ _ => rfl) (fun _ _ _ => rfl) rfl

theorem encodedAs_modexp : EncodedAs 0x44000000 0xFC0003FF
    (fun w => .modexp (regField w 22) (regField w 18) (regField w 14) (regField w 10)) :=
  encodedAs_fourRegs .modexp (fun _ _ _ _ => rfl) (fun _ _ _ _ => rfl) rfl

theorem encodedAs_modinv :
    EncodedAs 0x48000000 0xFC003FFF (fun w => .modinv (regField w 22) (regField w 18) (regField w 14)) :=
  encodedAs_threeRegs .modinv (fun _ _ _ => rfl) (fun _ _ _ => rfl) rfl

theorem encodedAs_bAL : EncodedAs 0x80000000 0xFFFF0000 (fun w => .bAL (sext16 (field w 15 0))) :=
  encodedAs_branch .bAL (fun _ => rfl) (fun _ => rfl) rfl rfl

theorem encodedAs_bEQ : EncodedAs 0x80400000 0xFFFF0000 (fun w => .bEQ (sext16 (field w 15 0))) :=
  encodedAs_branch .bEQ (fun _ => rfl) (fun _ => rfl) rfl rfl

theorem encodedAs_bNE : EncodedAs 0x80800000 0xFFFF0000 (fun w => .bNE (sext16 (field w 15 0))) :=
  encodedAs_branch .bNE (fun _ => rfl) (fun _ => rfl) rfl rfl

theorem encodedAs_bLT : EncodedAs 0x80C00000 0xFFFF0000 (fun w => .bLT (sext16 (field w 15 0))) :=
  encodedAs_branch .bLT (fun _ => rfl) (fun _ => rfl) rfl rfl

theorem encodedAs_bGE : EncodedAs 0x81000000 0xFFFF0000 (fun w => .bGE (sext16 (field w 15 0))) :=
  encodedAs_branch .bGE (fun _ => rfl) (fun _ => rfl) rfl rfl

theorem encodedAs_bGT : EncodedAs 0x81400000 0xFFFF0000 (fun w => .bGT (sext16 (field w 15 0))) :=
  encodedAs_branch .bGT (fun _ => rfl) (fun _ => rfl) rfl rfl

theorem encodedAs_bLE : EncodedAs 0x81800000 0xFFFF0000 (fun w => .bLE (sext16 (field w 15 0))) :=
  encodedAs_branch .bLE (fun _ => rfl) (fun _ => rfl) rfl rfl

theorem encodedAs_bNI : EncodedAs 0x81C00000 0xFFFF0000 (fun w => .bNI (sext16 (field w 15 0))) :=
  encodedAs_branch .bNI (fun _ => rfl) (fun _ => rfl) rfl rfl

theorem encodedAs_bIV : EncodedAs 0x82000000 0xFFFF0000 (fun w => .bIV (sext16 (field w 15 0))) :=
  encodedAs_branch .bIV (fun _ => rfl) (fun _ => rfl) rfl rfl

/-! ## What the rows of R119 say of every word -/

/-- A word that matches the row decodes to the row's command, with the row's fields of the word as operands. -/
def RowReads (r : OpRow) : Prop :=
  ∀ w : Word, w &&& r.mask = r.pattern → ∃ i, decode w = .ok i ∧ r.mnemonic = i.mnemonic ∧
    i.fieldValues = r.fields.map (fun f => (f.1, field w f.2.1 f.2.2))

theorem reads_of_encodedAs {r : OpRow} {f : Word → Instr} (h : EncodedAs r.pattern r.mask f)
    (hname : ∀ w, r.mnemonic = (f w).mnemonic)
    (hfields : ∀ w, (f w).fieldValues = r.fields.map (fun f => (f.1, field w f.2.1 f.2.2))) : RowReads r :=
  fun w hw => ⟨f w, h w hw, hname w, hfields w⟩

/-- The offset of a branch is sign-extended from its field, and fills the field again (R114, R116). -/
theorem reads_of_branch {r : OpRow} {f : Int → Instr}
    (h : EncodedAs r.pattern r.mask (fun w => f (sext16 (field w 15 0))))
    (hname : ∀ off, r.mnemonic = (f off).mnemonic) (hvalues : ∀ off, (f off).fieldValues = [("off16", immField off)])
    (hfields : r.fields = [("off16", 15, 0)]) : RowReads r :=
  reads_of_encodedAs h (fun _ => hname _) fun w => by rw [hvalues, immField_imm16, hfields]; rfl

theorem reads_of_mem_opTable : ∀ r ∈ opTable, RowReads r := by
  simp only [opTable, List.forall_mem_append, List.forall_mem_cons, List.not_mem_nil, false_imp_iff, implies_true,
    and_true]
  refine ⟨⟨⟨?_, ?_, ?_, ?_, ?_, ?_, ?_, ?_, ?_, ?_⟩, ?_, ?_, ?_, ?_, ?_, ?_, ?_, ?_, ?_, ?_, ?_, ?_⟩, ?_, ?_, ?_, ?_,
    ?_, ?_, ?_, ?_, ?_⟩
  · exact reads_of_encodedAs encodedAs_nop (fun _ => rfl) fun _ => rfl
  · exact reads_of_encodedAs encodedAs_halt (fun _ => rfl) fun _ => rfl
  · exact reads_of_encodedAs encodedAs_ldi (fun _ => rfl) fun w => by rw [Instr.fieldValues, immField_imm16]; rfl
  · exact reads_of_encodedAs encodedAs_mov (fun _ => rfl) fun _ => rfl
  · exact reads_of_encodedAs encodedAs_add (fun _ => rfl) fun _ => rfl
  · exact reads_of_encodedAs encodedAs_addM (fun _ => rfl) fun _ => rfl
  · exact reads_of_encodedAs encodedAs_sub (fun _ => rfl) fun _ => rfl
  · exact reads_of_encodedAs encodedAs_subM (fun _ => rfl) fun _ => rfl
  · exact reads_of_encodedAs encodedAs_mul (fun _ => rfl) fun _ => rfl
  · exact reads_of_encodedAs encodedAs_mulM (fun _ => rfl) fun _ => rfl
  · exact reads_of_encodedAs encodedAs_div (fun _ => rfl) fun _ => rfl
  · exact reads_of_encodedAs encodedAs_divM (fun _ => rfl) fun _ => rfl
  · exact reads_of_encodedAs encodedAs_cmp (fun _ => rfl) fun _ => rfl
  · exact reads_of_encodedAs encodedAs_cmpM (fun _ => rfl) fun _ => rfl
  · exact reads_of_encodedAs encodedAs_shft (fun _ => rfl) fun _ => rfl
  · exact reads_of_encodedAs encodedAs_shfti (fun _ => rfl) fun w => by rw [Instr.fieldValues, immField_imm16]; rfl
  · exact reads_of_encodedAs encodedAs_and (fun _ => rfl) fun _ => rfl
  · exact reads_of_encodedAs encodedAs_or (fun _ => rfl) fun _ => rfl
  · exact reads_of_encodedAs encodedAs_xor (fun _ => rfl) fun _ => rfl
  · exact reads_of_encodedAs encodedAs_gcd (fun _ => rfl) fun _ => rfl
  · exact reads_of_encodedAs encodedAs_modexp (fun _ => rfl) fun _ => rfl
  · exact reads_of_encodedAs encodedAs_modinv (fun _ => rfl) fun _ => rfl
  · exact reads_of_branch encodedAs_bAL (fun _ => rfl) (fun _ => rfl) rfl
  · exact reads_of_branch encodedAs_bEQ (fun _ => rfl) (fun _ => rfl) rfl
  · exact reads_of_branch encodedAs_bNE (fun _ => rfl) (fun _ => rfl) rfl
  · exact reads_of_branch encodedAs_bLT (fun _ => rfl) (fun _ => rfl) rfl
  · exact reads_of_branch encodedAs_bGE (fun _ => rfl) (fun _ => rfl) rfl
  · exact reads_of_branch encodedAs_bGT (fun _ => rfl) (fun _ => rfl) rfl
  · exact reads_of_branch encodedAs_bLE (fun _ => rfl) (fun _ => rfl) rfl
  · exact reads_of_branch encodedAs_bNI (fun _ => rfl) (fun _ => rfl) rfl
  · exact reads_of_branch encodedAs_bIV (fun _ => rfl) (fun _ => rfl) rfl

/-- Every command's word matches a row of the table. -/
theorem encode_matchesRow (i : Instr) : Laws.EncodeMatchesRow.Statement i := by
  cases i with
  | nop => exact Laws.EncodeMatchesRow.nop
  | halt => exact Laws.EncodeMatchesRow.halt
  | ldi => exact Laws.EncodeMatchesRow.ldi _ _
  | mov => exact Laws.EncodeMatchesRow.mov _ _
  | add => exact Laws.EncodeMatchesRow.add _ _ _
  | addM => exact Laws.EncodeMatchesRow.addM _ _ _
  | sub => exact Laws.EncodeMatchesRow.sub _ _ _
  | subM => exact Laws.EncodeMatchesRow.subM _ _ _
  | mul => exact Laws.EncodeMatchesRow.mul _ _ _
  | mulM => exact Laws.EncodeMatchesRow.mulM _ _ _
  | div => exact Laws.EncodeMatchesRow.div _ _ _ _
  | divM => exact Laws.EncodeMatchesRow.divM _ _ _ _
  | cmp => exact Laws.EncodeMatchesRow.cmp _ _
  | cmpM => exact Laws.EncodeMatchesRow.cmpM _ _
  | shft => exact Laws.EncodeMatchesRow.shft _ _ _
  | shfti => exact Laws.EncodeMatchesRow.shfti _ _ _
  | and => exact Laws.EncodeMatchesRow.and _ _ _
  | or => exact Laws.EncodeMatchesRow.or _ _ _
  | xor => exact Laws.EncodeMatchesRow.xor _ _ _
  | gcd => exact Laws.EncodeMatchesRow.gcd _ _ _
  | modexp => exact Laws.EncodeMatchesRow.modexp _ _ _ _
  | modinv => exact Laws.EncodeMatchesRow.modinv _ _ _
  | bAL => exact Laws.EncodeMatchesRow.bAL _
  | bEQ => exact Laws.EncodeMatchesRow.bEQ _
  | bNE => exact Laws.EncodeMatchesRow.bNE _
  | bLT => exact Laws.EncodeMatchesRow.bLT _
  | bGE => exact Laws.EncodeMatchesRow.bGE _
  | bGT => exact Laws.EncodeMatchesRow.bGT _
  | bLE => exact Laws.EncodeMatchesRow.bLE _
  | bNI => exact Laws.EncodeMatchesRow.bNI _
  | bIV => exact Laws.EncodeMatchesRow.bIV _

/-- A word that decodes is the word of its command, so it matches that command's row. -/
theorem exists_row_of_decode {w : Word} {i : Instr} (h : decode w = .ok i) :
    ∃ r ∈ opTable, w &&& r.mask = r.pattern := by
  obtain ⟨r, hr, -, hmatch⟩ := encode_matchesRow i
  rw [encode_of_decode h] at hmatch
  exact ⟨r, hr, hmatch⟩

/-- No word matches two rows: they differ where both masks are 1 (R119). -/
theorem opTable_disjoint : ∀ r ∈ opTable, ∀ r' ∈ opTable,
    r.pattern &&& r'.mask = r'.pattern &&& r.mask → r' = r := by decide +kernel

theorem eq_of_matches {w : Word} {r r' : OpRow} (hr : r ∈ opTable) (hr' : r' ∈ opTable)
    (h : w &&& r.mask = r.pattern) (h' : w &&& r'.mask = r'.pattern) : r' = r := by
  refine opTable_disjoint r hr r' hr' ?_
  rw [← h, ← h', BitVec.and_assoc, BitVec.and_assoc, BitVec.and_comm r.mask]

/-- Settles O3: a word that decodes matches its command's row (`exists_row_of_decode`), each row reads the words that
match it (`reads_of_mem_opTable`), and no word matches two (`eq_of_matches`). -/
theorem decodeFollowsTheRowTable : Obligations.DecodeFollowsTheRowTable := by
  unfold Obligations.DecodeFollowsTheRowTable
  refine fun w => ⟨fun i h => ?_, ?_⟩
  · obtain ⟨r, hr, hmatch⟩ := exists_row_of_decode h
    obtain ⟨k, hk, hname, hfields⟩ := reads_of_mem_opTable r hr w hmatch
    cases h.symm.trans hk
    exact ⟨r, hr, hmatch, hname, hfields, fun r' hr' => eq_of_matches hr hr' hmatch⟩
  · rintro ⟨r, hr, hmatch⟩
    obtain ⟨i, hi, -⟩ := reads_of_mem_opTable r hr w hmatch
    exact ⟨i, hi⟩

/-- Settles O7: such a word does not decode (`exists_row_of_decode`), and the decoder's rejection raises ILLEGAL
(`raisesIllegal_of_decode`). -/
theorem unmatchedWordRaisesIllegal : Obligations.UnmatchedWordRaisesIllegal := by
  unfold Obligations.UnmatchedWordRaisesIllegal
  intro w hnone
  cases hd : decode w with
  | ok i =>
    obtain ⟨r, hr, hmatch⟩ := exists_row_of_decode hd
    exact absurd hmatch (hnone r hr)
  | error e => exact raisesIllegal_of_decode w e hd

/-! ## The pseudo-instructions of R133 -/

/-- A division whose quotient and remainder go to one register leaves the remainder there (R168, R263). -/
theorem State.divided_same (s : State) (rd : RegIdx) (q r : Int) : s.divided rd rd q r = s.written rd r := by
  simp [State.divided, State.written]

theorem shiftMagnitude_of_nonneg (a : Int) {k : Int} (hk : 0 ≤ k) : (shiftMagnitude a k : Int) = |a| * 2 ^ k.toNat := by
  rw [shiftMagnitude_eq, if_pos hk]
  push_cast
  rfl

theorem shiftMagnitude_neg (a : Int) {k : Int} (hk : 0 < k) : (shiftMagnitude a (-k) : Int) = |a| / 2 ^ k.toNat := by
  rw [shiftMagnitude_eq, if_neg (by omega), neg_neg]
  push_cast
  rfl

/-- SHFTI writes the shifted magnitude, unless a left shift does not fit (R201, R202). -/
theorem exec_shfti_of_fits {s : State} {ra : RegIdx} {k : Int} (rd : RegIdx)
    (hfits : 0 ≤ k → shiftMagnitude (s.reg ra) k < 2 ^ (32 * s.cfg.lMax)) :
    exec (.shfti rd ra k) s = .next (s.written rd (shiftMagnitude (s.reg ra) k)) := by
  have hover : ¬ shiftOverflows s.cfg.lMax (s.reg ra) k = true := fun h => by
    obtain ⟨hbig, hk⟩ := (shiftOverflows_iff _ _ _).1 h
    exact hbig (hfits hk)
  rw [exec, execShfti, shiftInto_eq, if_neg hover]

/-- Settles O60: each expansion is one command, whose meaning is its rule's. -/
theorem pseudoInstructionsHaveTheirEffect : Obligations.PseudoInstructionsHaveTheirEffect := by
  unfold Obligations.PseudoInstructionsHaveTheirEffect
  intro s rd ra rb k _
  refine ⟨⟨rfl, ?clr⟩, ⟨rfl, fun hb => ?mod⟩, ⟨rfl, fun hb => ?modM⟩, fun hlo hhi => ⟨?j, rfl⟩,
    fun hlo hhi => ⟨if_pos ⟨hlo, hhi⟩, fun hfits => ?shl⟩, fun hlo hhi => ⟨if_pos ⟨hlo, hhi⟩, ?shr⟩⟩
  case clr => exact commit_eq rd 0 s
  case mod => rw [exec, execDiv, if_neg hb, commitDivision_eq, State.divided_same]
  case modM =>
    rw [exec, execDivM, if_neg hb, commitDivision_eq, State.divided_same]
    rfl
  case j => simp [Pseudo.expand, immInRange, hlo, hhi]
  case shl =>
    rw [exec_shfti_of_fits rd, shiftMagnitude_of_nonneg _ hlo]
    intro _
    rwa [shiftMagnitude_eq, if_pos hlo]
  case shr => rw [exec_shfti_of_fits rd (by omega), shiftMagnitude_neg _ (by omega)]

end Sys2Proof.Machine

/-! PROOFS. Value construction and copy: LDI (R140) and MOV (R141), and the spec's example words. The rule for an
opcode's illegal words (R120) is stated here for every opcode. -/

namespace Sys2Proof.Machine

/-! ## The illegal words of an opcode -/

/-- Every row's mask covers the opcode field (R119). -/
theorem opTable_mask_opcode : ∀ r ∈ opTable, field r.mask 31 26 = 2 ^ (31 + 1 - 26) - 1 := by decide

/-- If `rows` has every row of R119 with this opcode, a word of the opcode that matches none of them matches no row of
the table at all, so it is illegal (R120). -/
theorem illegalUnless_of_rows {opcode : Nat} {rows : List (Word × Word)}
    (hrows : ∀ r ∈ opTable, field r.pattern 31 26 = opcode → (r.pattern, r.mask) ∈ rows) :
    IllegalUnless opcode rows := by
  intro w hop hnone
  refine unmatchedWordRaisesIllegal w fun r hr hmatch => ?_
  have hpattern : field r.pattern 31 26 = opcode :=
    (field_of_matches hmatch (opTable_mask_opcode r hr)).symm.trans hop
  exact hnone _ (hrows r hr hpattern) hmatch

/-! ## The obligations -/

/-- Settles O4: the decoder evaluated on each word. -/
theorem specWordsDecode : Obligations.SpecWordsDecode := by
  unfold Obligations.SpecWordsDecode
  exact ⟨rfl, rfl, rfl, rfl, rfl, rfl, rfl, rfl, rfl, rfl, rfl, rfl, rfl, rfl⟩

/-- Settles O8: opcode 0x03 has the one row of R140, whose words are LDI's, and the immediate always fits. -/
theorem ldiLoadsTheImmediate : Obligations.LdiLoadsTheImmediate := by
  unfold Obligations.LdiLoadsTheImmediate
  exact ⟨encodedAs_ldi, illegalUnless_of_rows (by decide), fun s rd imm => commit_eq rd imm s⟩

/-- Settles O9: opcode 0x04 has the one row of R141, whose words are MOV's, and a register's value always fits. -/
theorem movCopiesTheRegister : Obligations.MovCopiesTheRegister := by
  unfold Obligations.MovCopiesTheRegister
  exact ⟨encodedAs_mov, illegalUnless_of_rows (by decide), fun s rd ra => commit_eq rd (s.reg ra) s⟩

end Sys2Proof.Machine

/-! PROOFS. Arithmetic and comparison: ADD, SUB, MUL, DIV and CMP with their magnitude forms (R161 to R169, R172, R173). -/

namespace Sys2Proof.Machine

/-! ## The capacity check on valid configurations -/

section
variable {s : State} {v : Int}

/-- A result below 2^(32·L_MAX) in magnitude is written (R16, R175). -/
theorem commitFitting_of_lt (hc : s.cfg.valid = true) (rd : RegIdx) (hv : v.natAbs < 2 ^ (32 * s.cfg.lMax)) :
    commitFitting rd v s = .next (s.written rd v) := by
  rw [commitFitting_eq, if_pos ((fits_iff _ ((Config.valid_iff _).1 hc).1 v).2 hv)]

/-- A result that needs more than 32·L_MAX bits raises FAULT(OVERFLOW) (R16, R175). -/
theorem commitFitting_of_le (hc : s.cfg.valid = true) (rd : RegIdx) (hv : 2 ^ (32 * s.cfg.lMax) ≤ v.natAbs) :
    commitFitting rd v s = .next (s.faulted .overflow) := by
  rw [commitFitting_eq, if_neg fun h => hv.not_gt ((fits_iff _ ((Config.valid_iff _).1 hc).1 v).1 h)]

end

/-! ## The commands on integers -/

/-- abs(R[i]) as an integer (R113). -/
theorem State.mag_eq_abs (s : State) (i : RegIdx) : (s.mag i : Int) = |s.reg i| := Int.natCast_natAbs _

section
variable (s : State) (rd ra rb rc : RegIdx)

theorem exec_add : exec (.add rd ra rb) s = commitFitting rd (s.reg ra + s.reg rb) s := rfl

theorem exec_sub : exec (.sub rd ra rb) s = commitFitting rd (s.reg ra - s.reg rb) s := rfl

theorem exec_mul : exec (.mul rd ra rb) s = commitFitting rd (s.reg ra * s.reg rb) s := rfl

theorem exec_addM : exec (.addM rd ra rb) s = commitFitting rd (|s.reg ra| + |s.reg rb|) s := by
  rw [exec, execAddM, Nat.cast_add, State.mag_eq_abs, State.mag_eq_abs]

theorem exec_mulM : exec (.mulM rd ra rb) s = commitFitting rd (|s.reg ra| * |s.reg rb|) s := by
  rw [exec, execMulM, Nat.cast_mul, State.mag_eq_abs, State.mag_eq_abs]

variable {s ra rb}

theorem exec_subM_of_le (h : |s.reg rb| ≤ |s.reg ra|) :
    exec (.subM rd ra rb) s = .next (s.written rd (|s.reg ra| - |s.reg rb|)) := by
  have hle : s.mag rb ≤ s.mag ra := by rwa [← Int.ofNat_le, State.mag_eq_abs, State.mag_eq_abs]
  rw [exec, execSubM, if_neg hle.not_gt, commit_eq, Nat.cast_sub hle, State.mag_eq_abs, State.mag_eq_abs]

theorem exec_subM_of_lt (h : |s.reg ra| < |s.reg rb|) : exec (.subM rd ra rb) s = .next (s.faulted .precond) := by
  have hlt : s.mag ra < s.mag rb := by rwa [← Int.ofNat_lt, State.mag_eq_abs, State.mag_eq_abs]
  rw [exec, execSubM, if_pos hlt, raise_eq]

theorem exec_div_of_ne_zero (h : s.reg rb ≠ 0) : exec (.div rd ra rb rc) s =
    .next (s.divided rd rc (tquo (s.reg ra) (s.reg rb)) (trem (s.reg ra) (s.reg rb))) := by
  rw [exec, execDiv, if_neg h, commitDivision_eq]

theorem exec_divM_of_ne_zero (h : s.reg rb ≠ 0) : exec (.divM rd ra rb rc) s =
    .next (s.divided rd rc ((s.mag ra / s.mag rb : Nat) : Int) ((s.mag ra % s.mag rb : Nat) : Int)) := by
  rw [exec, execDivM, if_neg h, commitDivision_eq]

theorem exec_div_of_eq_zero (h : s.reg rb = 0) : exec (.div rd ra rb rc) s = .next (s.faulted .divzero) := by
  rw [exec, execDiv, if_pos h, raise_eq]

theorem exec_divM_of_eq_zero (h : s.reg rb = 0) : exec (.divM rd ra rb rc) s = .next (s.faulted .divzero) := by
  rw [exec, execDivM, if_pos h, raise_eq]

end

/-- A flag command sets Z and N and goes on, and writes nothing else (R40, R265). -/
theorem advance_setCompare (s : State) (a b : Int) :
    (s.setCompare a b).advance = { s with z := decide (a = b), n := decide (a < b), pc := s.nextPc } := by
  rw [State.advance_eq]
  rfl

/-! ## The signs of the truncated division -/

/-- A nonzero multiple of a sign has that sign. -/
theorem sgn_mul_natCast {c : Int} (hc : c.natAbs = 1) {m : Nat} (h : c * m ≠ 0) : sgn (c * m) = c := by
  have hm : 0 < m := Nat.pos_of_ne_zero fun h0 => h (by simp [h0])
  obtain rfl | rfl : c = 1 ∨ c = -1 := Int.natAbs_eq c |>.imp (by simp [hc]) (by simp [hc])
  · rw [one_mul, sgn, if_neg (by omega)]
  · rw [neg_one_mul, sgn, if_pos (by omega)]

theorem sgn_trem {a b : Int} (h : trem a b ≠ 0) : sgn (trem a b) = sgn a := sgn_mul_natCast (natAbs_sgn a) h

theorem sgn_tquo {a b : Int} (h : tquo a b ≠ 0) : sgn (tquo a b) = sgn a * sgn b :=
  sgn_mul_natCast (by rw [Int.natAbs_mul, natAbs_sgn, natAbs_sgn]) h

/-! ## The obligations -/

/-- Settles O10: both forms commit the exact sum through the capacity check. -/
theorem addAndAddM : Obligations.AddAndAddM := by
  unfold Obligations.AddAndAddM
  refine ⟨encodedAs_add, encodedAs_addM, illegalUnless_of_rows (by decide), fun s rd ra rb hc => ?_⟩
  obtain ⟨m, hm⟩ := Int.eq_ofNat_of_zero_le (show 0 ≤ |s.reg ra| + |s.reg rb| by positivity)
  rw [exec_add, exec_addM, hm]
  exact ⟨commitFitting_of_lt hc rd, commitFitting_of_le hc rd, fun h => commitFitting_of_lt hc rd (by exact_mod_cast h),
    fun h => commitFitting_of_le hc rd (by exact_mod_cast h)⟩

/-- Settles O11: SUB commits through the capacity check; SUB.M tests the order of the magnitudes first, and then its
result always fits. -/
theorem subAndSubM : Obligations.SubAndSubM := by
  unfold Obligations.SubAndSubM
  refine ⟨encodedAs_sub, encodedAs_subM, illegalUnless_of_rows (by decide), fun s rd ra rb hc => ?_⟩
  rw [exec_sub]
  exact ⟨commitFitting_of_lt hc rd, commitFitting_of_le hc rd, exec_subM_of_le rd, exec_subM_of_lt rd⟩

/-- Settles O12: the product of the magnitudes is the magnitude of the product, so both forms fit together. -/
theorem mulAndMulM : Obligations.MulAndMulM := by
  unfold Obligations.MulAndMulM
  refine ⟨encodedAs_mul, encodedAs_mulM, illegalUnless_of_rows (by decide), fun s rd ra rb hc => ?_⟩
  have hmag : (|s.reg ra| * |s.reg rb|).natAbs = (s.reg ra * s.reg rb).natAbs := by rw [← abs_mul, Int.natAbs_abs]
  rw [exec_mul, exec_mulM]
  exact ⟨fun h => ⟨commitFitting_of_lt hc rd h, commitFitting_of_lt hc rd (hmag ▸ h)⟩,
    fun h => ⟨commitFitting_of_le hc rd h, commitFitting_of_le hc rd (hmag ▸ h)⟩⟩

/-- Settles O13: the truncated quotient and remainder of R14 obey the division law and have the signs of R168. -/
theorem divTruncates : Obligations.DivTruncates := by
  unfold Obligations.DivTruncates
  refine ⟨encodedAs_div, illegalUnless_of_rows (by decide), fun s rd ra rb rc =>
    ⟨fun hb => ?_, exec_div_of_eq_zero rd rc⟩⟩
  exact ⟨_, _, exec_div_of_ne_zero rd rc hb, (tquo_mul_add_trem _ _).symm, natAbs_trem_lt _ _ hb, sgn_trem, sgn_tquo⟩

/-- Settles O14: the division of natural numbers, on the magnitudes. -/
theorem divMOnMagnitudes : Obligations.DivMOnMagnitudes := by
  unfold Obligations.DivMOnMagnitudes
  refine ⟨encodedAs_divM, illegalUnless_of_rows (by decide), fun s rd ra rb rc =>
    ⟨fun hb => ?_, exec_divM_of_eq_zero rd rc⟩⟩
  exact ⟨_, _, exec_divM_of_ne_zero rd rc hb, (Nat.div_add_mod _ _).symm, Nat.mod_lt _ (Int.natAbs_pos.2 hb)⟩

/-- Settles O15: both forms set the flags from an order and advance. -/
theorem compareSetsZAndN : Obligations.CompareSetsZAndN := by
  unfold Obligations.CompareSetsZAndN
  refine ⟨encodedAs_cmp, encodedAs_cmpM, illegalUnless_of_rows (by decide), fun s ra rb => ⟨?_, ?_⟩⟩
  · rw [exec, execCmp, advance_setCompare]
  · rw [exec, execCmpM, advance_setCompare, State.mag_eq_abs, State.mag_eq_abs]

end Sys2Proof.Machine

/-! PROOFS. The limb procedures of the spec (R162, R164, R165, R167, R171, R174; log 21) give the results of the
meanings. -/

namespace Sys2Proof.Machine

/-! ## The signed combine (R165) -/

/-- There are two signs. -/
theorem sgn_eq_neg_of_ne {a b : Int} (h : sgn a ≠ sgn b) : sgn b = -sgn a := by
  have ha := natAbs_sgn a
  have hb := natAbs_sgn b
  omega

theorem combine_eq (a b : Int) (neg : Bool) : combine a b neg = a + if neg then -b else b := by
  unfold combine
  generalize (if neg then -b else b) = b'
  have ha := sgn_mul_natAbs a
  have hb := sgn_mul_natAbs b'
  dsimp only
  split_ifs with hsame hle
  · rw [← hsame] at hb
    rw [Nat.cast_add, mul_add, ha, hb]
  · rw [sgn_eq_neg_of_ne hsame] at hb
    rw [Nat.cast_sub hle, mul_sub, ha]
    linarith
  · have hneg := sgn_eq_neg_of_ne hsame
    rw [Nat.cast_sub (by omega), mul_sub, hb, hneg]
    linarith

/-- Settles O55: like signs add, unlike signs subtract the smaller magnitude. -/
theorem combineIsAddAndSubtract : Obligations.CombineIsAddAndSubtract := by
  unfold Obligations.CombineIsAddAndSubtract
  exact fun a b => ⟨combine_eq a b false, combine_eq a b true⟩

/-! ## Limb lists -/

/-- A limb of `n` whose rest starts from the carry `n / 2^32` loses nothing. -/
theorem limbsValue_carry {n m : Nat} {ws : List Word} (h : limbsValue ws = n / 2 ^ 32 + m) :
    limbsValue (BitVec.ofNat 32 n :: ws) = n + 2 ^ 32 * m := by
  rw [limbsValue, h, BitVec.toNat_ofNat, mul_add, ← add_assoc, Nat.mod_add_div]

theorem limbsValue_singleton_ofNat {n : Nat} (h : n < 2 ^ 32) : limbsValue [BitVec.ofNat 32 n] = n :=
  limbsValue_carry (m := 0) (Nat.div_eq_of_lt h).symm

theorem limbsValue_append (x y : List Word) :
    limbsValue (x ++ y) = limbsValue x + 2 ^ (32 * x.length) * limbsValue y := by
  induction x with
  | nil => simp [limbsValue]
  | cons w ws ih =>
    rw [List.cons_append, limbsValue, limbsValue, ih, List.length_cons, Nat.mul_succ, pow_add]
    ring

theorem limbsValue_map_range (f : Nat → Word) (k : Nat) : limbsValue ((List.range k).map f) = limbSum f k := by
  induction k with
  | zero => rfl
  | succ k ih =>
    rw [List.range_succ, List.map_append, limbsValue_append, ih, limbSum, List.length_map, List.length_range]
    simp [limbsValue, mul_comm]

theorem limbsValue_limbs (v : Int) : limbsValue (limbs v) = v.natAbs := by
  rw [limbs, limbsValue_map_range, limbSum_limb_nlimbs]

/-! ## Add, subtract and multiply (R162, R164, R167) -/

theorem limbsValue_addLimbs (carry : Nat) (x y : List Word) (hc : carry < 2 ^ 32) :
    limbsValue (addLimbs carry x y) = limbsValue x + limbsValue y + carry := by
  induction carry, x, y using addLimbs.induct with
  | case1 carry => simpa [addLimbs, limbsValue] using limbsValue_singleton_ofNat hc
  | case2 carry a as ih =>
    have ha := a.isLt
    rw [addLimbs, limbsValue_carry (m := limbsValue as)]
    · rw [limbsValue, limbsValue]; omega
    · rw [ih (by omega), limbsValue]; omega
  | case3 carry b bs ih =>
    have hb := b.isLt
    rw [addLimbs, limbsValue_carry (m := limbsValue bs)]
    · rw [limbsValue, limbsValue]; omega
    · rw [ih (by omega), limbsValue]; omega
  | case4 carry a as b bs ih =>
    have ha := a.isLt
    have hb := b.isLt
    rw [addLimbs, limbsValue_carry (m := limbsValue as + limbsValue bs)]
    · rw [limbsValue, limbsValue]; omega
    · rw [ih (by omega)]; omega

/-- One limb of the subtraction takes `n` from `a`, and a borrow stands for the 2^32 it adds; `rest` is what the limbs
above give for that borrow. -/
theorem subLimbs_cons_value {a : Word} {n X Y rest : Nat} (hn : n ≤ 2 ^ 32) (hle : n + 2 ^ 32 * Y ≤ a.toNat + 2 ^ 32 * X)
    (hrest : Y + (if a.toNat < n then 1 else 0) ≤ X → rest + (Y + if a.toNat < n then 1 else 0) = X) :
    (2 ^ 32 + a.toNat - n) % 2 ^ 32 + 2 ^ 32 * rest + (n + 2 ^ 32 * Y) = a.toNat + 2 ^ 32 * X := by
  have ha := a.isLt
  split at hrest <;> omega

/-- The borrow stays 0 or 1, and the value it stands for is taken off at the next limb. -/
theorem limbsValue_subLimbs (borrow : Nat) (x y : List Word) (hborrow : borrow ≤ 1) (hlen : y.length ≤ x.length)
    (hle : limbsValue y + borrow ≤ limbsValue x) :
    limbsValue (subLimbs borrow x y) + (limbsValue y + borrow) = limbsValue x := by
  induction borrow, x, y using subLimbs.induct with
  | case1 borrow y =>
    have hempty : limbsValue (subLimbs borrow [] y) = 0 := rfl
    simp only [limbsValue] at hle ⊢
    omega
  | case2 borrow a as ih =>
    simp only [subLimbs, limbsValue, BitVec.toNat_ofNat] at hle ih ⊢
    have hstep := subLimbs_cons_value (a := a) (n := borrow) (Y := 0) (by omega) (by omega)
      (ih (by split <;> omega) (Nat.zero_le _))
    omega
  | case3 borrow a as b bs ih =>
    have hb := b.isLt
    simp only [subLimbs, limbsValue, BitVec.toNat_ofNat, List.length_cons] at hlen hle ⊢
    have hstep := subLimbs_cons_value (a := a) (n := b.toNat + borrow) (by omega) (by omega)
      (ih (by split <;> omega) (by omega))
    omega

/-- A limb product and a carry stay within 64 bits, so the next carry is a limb again (R167). -/
theorem limb_product_carry_lt (a d : Word) {carry : Nat} (hc : carry < 2 ^ 32) :
    (a.toNat * d.toNat + carry) / 2 ^ 32 < 2 ^ 32 := by
  have ha := a.isLt
  have hd := d.isLt
  rw [Nat.div_lt_iff_lt_mul (by decide)]
  nlinarith

theorem limbsValue_partialProduct (carry : Nat) (d : Word) (x : List Word) (hc : carry < 2 ^ 32) :
    limbsValue (partialProduct carry d x) = limbsValue x * d.toNat + carry := by
  induction x generalizing carry with
  | nil => simpa [partialProduct, limbsValue] using limbsValue_singleton_ofNat hc
  | cons a as ih =>
    rw [partialProduct, limbsValue_carry (m := limbsValue as * d.toNat), limbsValue]
    · ring
    · rw [ih _ (limb_product_carry_lt a d hc), add_comm]

theorem limbsValue_schoolbook (x y : List Word) : limbsValue (schoolbook x y) = limbsValue x * limbsValue y := by
  induction y with
  | nil => rfl
  | cons d ds ih =>
    have h0 : (0 : Word).toNat = 0 := rfl
    rw [schoolbook, limbsValue_addLimbs _ _ _ (by decide), limbsValue_partialProduct _ _ _ (by decide), limbsValue,
      limbsValue, ih, h0]
    ring

/-- Settles O58: the value of each procedure's limbs, for every carry or borrow that can come in. -/
theorem limbArithmeticIsExact : Obligations.LimbArithmeticIsExact := by
  unfold Obligations.LimbArithmeticIsExact
  refine ⟨fun x y => limbsValue_addLimbs 0 x y (by decide), fun x y hlen hle => ?_, limbsValue_schoolbook,
    limbsValue_limbs⟩
  have hsub := limbsValue_subLimbs 0 x y (by decide) hlen hle
  omega

/-! ## The long division (R171) -/

/-- The correction loop stops at the true digit when it starts no lower. -/
theorem correctDigit_eq {B rem d : Nat} (hB : 0 < B) (hd : rem / B ≤ d) : correctDigit B rem d = rem / B := by
  induction d with
  | zero => exact (Nat.le_zero.1 hd).symm
  | succ k ih =>
    have htop : rem < B * (k + 1) ↔ rem / B < k + 1 := by rw [Nat.div_lt_iff_lt_mul hB, mul_comm]
    rw [correctDigit]
    split_ifs with h
    · exact ih (Nat.le_of_lt_succ (htop.1 h))
    · exact le_antisymm (not_lt.1 (mt htop.2 h)) hd

section
variable {estimate : Nat → Nat → Nat} {A : Int} {B : Nat}

/-- One digit: an estimator not below the true digit gives the true digit, which is a limb. -/
theorem correctDigit_estimate_eq {rem : Nat} (hB : 0 < B) (hest : ∀ r, r < B * 2 ^ 32 → r / B ≤ estimate r B)
    (hrem : rem < B * 2 ^ 32) : correctDigit B rem (min (2 ^ 32 - 1) (estimate rem B)) = rem / B := by
  have hlimb : rem / B < 2 ^ 32 := Nat.div_lt_of_lt_mul hrem
  exact correctDigit_eq hB (le_min (by omega) (hest rem hrem))

/-- One turn of the loop: the next limb joins the remainder, which is divided by B. -/
theorem longDivide_succ (hB : 0 < B) (hest : ∀ r, r < B * 2 ^ 32 → r / B ≤ estimate r B) (k q : Nat) {rem rem' : Nat}
    (hrem : rem < B) (hrem' : rem' = rem * 2 ^ 32 + (limb A k).toNat) :
    longDivide estimate A B (k + 1) q rem = longDivide estimate A B k (q * 2 ^ 32 + rem' / B) (rem' % B) := by
  have hlimb := (limb A k).isLt
  rw [Nat.mod_eq_sub_mul_div, ← correctDigit_estimate_eq hB hest (by omega), hrem', longDivide]

/-- The loop with `k` limbs left: it divides the running remainder, followed by those limbs, and appends the digits to
the quotient so far. -/
theorem longDivide_eq (hB : 0 < B) (hest : ∀ r, r < B * 2 ^ 32 → r / B ≤ estimate r B) (k q rem : Nat)
    (hrem : rem < B) : longDivide estimate A B k q rem =
      (q * 2 ^ (32 * k) + (rem * 2 ^ (32 * k) + limbSum (limb A) k) / B,
        (rem * 2 ^ (32 * k) + limbSum (limb A) k) % B) := by
  induction k generalizing q rem with
  | zero => simp [longDivide, limbSum, Nat.div_eq_of_lt hrem, Nat.mod_eq_of_lt hrem]
  | succ k ih =>
    obtain ⟨rem', hrem'⟩ : ∃ r, r = rem * 2 ^ 32 + (limb A k).toNat := ⟨_, rfl⟩
    have hpow : 2 ^ (32 * (k + 1)) = 2 ^ 32 * 2 ^ (32 * k) := by rw [Nat.mul_succ, pow_add, mul_comm]
    have hquotient (m : Nat) : (q * 2 ^ 32 + rem' / B) * 2 ^ (32 * k) + m =
        q * 2 ^ (32 * (k + 1)) + (m + rem' / B * 2 ^ (32 * k)) := by rw [hpow]; ring
    have hsplit : rem * 2 ^ (32 * (k + 1)) + limbSum (limb A) (k + 1) =
        (rem' % B * 2 ^ (32 * k) + limbSum (limb A) k) + B * (rem' / B * 2 ^ (32 * k)) := by
      calc rem * 2 ^ (32 * (k + 1)) + limbSum (limb A) (k + 1)
          = rem' * 2 ^ (32 * k) + limbSum (limb A) k := by rw [hrem', limbSum, hpow]; ring
        _ = (rem' % B + B * (rem' / B)) * 2 ^ (32 * k) + limbSum (limb A) k := by rw [Nat.mod_add_div]
        _ = _ := by ring
    rw [longDivide_succ hB hest k q hrem hrem', ih _ _ (Nat.mod_lt _ hB), hsplit, Nat.add_mul_div_left _ _ hB,
      Nat.add_mul_mod_self_left, hquotient]

end

/-- Settles O56: the loop invariant `longDivide_eq` over all the limbs of A. -/
theorem longDivisionIsExact : Obligations.LongDivisionIsExact := by
  unfold Obligations.LongDivisionIsExact
  intro estimate A B hB hest
  have hpos := Int.natAbs_pos.2 hB
  rw [longDivide_eq hpos hest _ _ _ hpos, limbSum_limb_nlimbs]
  simp

/-! ## The compare procedure (R174) -/

/-- The outcome of R174 is the sign of the difference. -/
theorem sign_sub_eq (x y : Int) : (x - y).sign = if x < y then -1 else if x = y then 0 else 1 := by
  split_ifs with hlt heq
  · exact Int.sign_eq_neg_one_of_neg (by omega)
  · rw [heq, sub_self, Int.sign_zero]
  · exact Int.sign_eq_one_of_pos (by omega)

/-- The most significant differing limb decides. -/
theorem limbSum_succ_lt {f g : Nat → Word} {k : Nat} (h : (f k).toNat < (g k).toNat) :
    limbSum f (k + 1) < limbSum g (k + 1) := by
  have hf := limbSum_lt f k
  rw [limbSum, limbSum]
  nlinarith

theorem limbCompare_eq (A B : Int) (k : Nat) :
    limbCompare A B k = ((limbSum (limb A) k : Int) - limbSum (limb B) k).sign := by
  induction k with
  | zero => rfl
  | succ k ih =>
    rw [limbCompare]
    split_ifs with heq hlt
    · rw [ih, limbSum, limbSum, heq, Nat.cast_add, Nat.cast_add, add_sub_add_right_eq_sub]
    · have := limbSum_succ_lt hlt
      exact (Int.sign_eq_neg_one_of_neg (by omega)).symm
    · have := limbSum_succ_lt (f := limb B) (g := limb A) (k := k) (by omega)
      exact (Int.sign_eq_one_of_pos (by omega)).symm

theorem natAbs_lt_of_bitlen_lt {A B : Int} (h : bitlen A < bitlen B) : A.natAbs < B.natAbs := by
  by_contra hle
  have hB : bitlen B ≤ bitlen A :=
    (bitlen_le_iff _ _).2 ((not_lt.1 hle).trans_lt ((bitlen_le_iff _ _).1 le_rfl))
  omega

theorem magCompare_eq (A B : Int) : magCompare A B = ((A.natAbs : Int) - B.natAbs).sign := by
  unfold magCompare
  split_ifs with hne hlt
  · have := natAbs_lt_of_bitlen_lt hlt
    exact (Int.sign_eq_neg_one_of_neg (by omega)).symm
  · have := natAbs_lt_of_bitlen_lt (A := B) (B := A) (by omega)
    exact (Int.sign_eq_one_of_pos (by omega)).symm
  · have hlimbs : nlimbs A = nlimbs B := by rw [nlimbs, nlimbs, not_not.1 hne]
    rw [limbCompare_eq, limbSum_limb_nlimbs, hlimbs, limbSum_limb_nlimbs]

theorem compareProcedure_magnitudes (a b : Int) : compareProcedure a b false = (|a| - |b|).sign := by
  rw [compareProcedure, if_pos rfl, magCompare_eq]
  simp

theorem lt_of_sign3_lt {a b : Int} (h : sign3 a < sign3 b) : a < b := by
  unfold sign3 at h
  split_ifs at h <;> omega

theorem neg_iff_of_sign3_eq {a b : Int} (h : sign3 a = sign3 b) : a < 0 ↔ b < 0 := by
  unfold sign3 at h
  split_ifs at h <;> omega

theorem compareProcedure_integers (a b : Int) : compareProcedure a b true = (a - b).sign := by
  rw [compareProcedure, if_neg (by decide), magCompare_eq]
  simp only [Int.natAbs_natCast]
  split_ifs with hne hlt hneg
  · have := lt_of_sign3_lt hlt
    exact (Int.sign_eq_neg_one_of_neg (by omega)).symm
  · have := lt_of_sign3_lt (a := b) (b := a) (by omega)
    exact (Int.sign_eq_one_of_pos (by omega)).symm
  · have hb := (neg_iff_of_sign3_eq (not_not.1 hne)).1 hneg
    rw [← Int.sign_neg]
    congr 1
    omega
  · have hb := mt (neg_iff_of_sign3_eq (not_not.1 hne)).2 hneg
    congr 1
    omega

/-- Settles O57: in both forms the procedure gives the sign of the difference. -/
theorem compareProcedureIsTheOrder : Obligations.CompareProcedureIsTheOrder := by
  unfold Obligations.CompareProcedureIsTheOrder
  intro a b
  rw [compareProcedure_integers, compareProcedure_magnitudes]
  exact ⟨sign_sub_eq a b, sign_sub_eq |a| |b|⟩

end Sys2Proof.Machine

/-! PROOFS. Shift and bitwise logic: SHFT and SHFTI (R200 to R202), AND, OR and XOR (R205 to R208), and the limb
procedures of the shifts (R203; log 21). -/

namespace Sys2Proof.Machine

/-! ## Shift (R200 to R202) -/

theorem shiftOverflows_eq_true_iff {L : Nat} {a k : Int} :
    shiftOverflows L a k = true ↔ 0 ≤ k ∧ a ≠ 0 ∧ (bitlen a : Int) + k > 32 * L := by
  simp [shiftOverflows, and_assoc]

/-- SHFT and SHFTI differ only in where the amount comes from. -/
theorem exec_eq_shiftInto {s : State} {rd ra rb : RegIdx} {imm k : Int} {i : Instr}
    (h : (i = .shft rd ra rb ∧ k = s.reg rb) ∨ (i = .shfti rd ra imm ∧ k = imm)) :
    exec i s = shiftInto rd (s.reg ra) k s := by
  obtain ⟨rfl, rfl⟩ | ⟨rfl, rfl⟩ := h <;> rfl

/-- Settles O16: the three clauses are the branches of the OVERFLOW test and of `shift(a, k)`. -/
theorem shiftResults : Obligations.ShiftResults := by
  unfold Obligations.ShiftResults
  refine ⟨encodedAs_shft, illegalUnless_of_rows (by decide), encodedAs_shfti, illegalUnless_of_rows (by decide),
    fun s rd ra rb imm _ i k hi => ?_⟩
  simp only [exec_eq_shiftInto hi, shiftInto_eq, shiftOverflows_eq_true_iff]
  refine ⟨fun hk ha hover => ?overflow, fun hk hfits => ?left, fun hk => ?right⟩
  case overflow => rw [if_pos ⟨hk, ha, hover⟩]
  case left =>
    rw [if_neg, shiftMagnitude_of_nonneg _ hk]
    rintro ⟨-, ha, hover⟩
    exact hfits.elim ha hover.not_ge
  case right =>
    have hright := shiftMagnitude_neg (s.reg ra) (k := -k) (by omega)
    rw [neg_neg] at hright
    rw [if_neg fun h => hk.not_ge h.1, hright]

/-! ## Bitwise logic (R205 to R208) -/

theorem limb_natCast (m j : Nat) : limb (m : Int) j = BitVec.ofNat 32 (m / 2 ^ (32 * j)) := by
  rw [limb, Int.natAbs_natCast]

theorem limb_and (a b : Int) (j : Nat) : limb ((a.natAbs &&& b.natAbs : Nat) : Int) j = limb a j &&& limb b j := by
  rw [limb_natCast, Nat.and_div_two_pow, BitVec.ofNat_and, limb, limb]

theorem limb_or (a b : Int) (j : Nat) : limb ((a.natAbs ||| b.natAbs : Nat) : Int) j = limb a j ||| limb b j := by
  rw [limb_natCast, Nat.or_div_two_pow, BitVec.ofNat_or, limb, limb]

theorem limb_xor (a b : Int) (j : Nat) : limb ((a.natAbs ^^^ b.natAbs : Nat) : Int) j = limb a j ^^^ limb b j := by
  rw [limb_natCast, Nat.xor_div_two_pow, BitVec.ofNat_xor, limb, limb]

/-- Settles O17: each command writes the bitwise operation on the two magnitudes, which acts limb by limb. -/
theorem bitwiseByLimbs : Obligations.BitwiseByLimbs := by
  unfold Obligations.BitwiseByLimbs
  refine ⟨encodedAs_and, illegalUnless_of_rows (by decide), encodedAs_or, illegalUnless_of_rows (by decide),
    encodedAs_xor, illegalUnless_of_rows (by decide), fun s rd ra rb => ⟨?and, ?or, ?xor⟩⟩
  case and => exact ⟨_, commit_eq _ _ s, Int.natCast_nonneg _, limb_and _ _⟩
  case or => exact ⟨_, commit_eq _ _ s, Int.natCast_nonneg _, limb_or _ _⟩
  case xor => exact ⟨_, commit_eq _ _ s, Int.natCast_nonneg _, limb_xor _ _⟩

/-! ## The left shift of limbs (R203) -/

theorem limbsValue_replicate_zero (n : Nat) : limbsValue (List.replicate n 0) = 0 := by
  induction n with
  | zero => rfl
  | succ n ih => rw [List.replicate_succ, limbsValue, ih]; rfl

theorem toNat_ofNat_two_pow {r : Nat} (hr : r < 32) : (BitVec.ofNat 32 (2 ^ r)).toNat = 2 ^ r :=
  (BitVec.toNat_ofNat ..).trans (Nat.mod_eq_of_lt (Nat.pow_lt_pow_right (by decide) hr))

/-- Below 32 bits the sub-limb shift is the product with the one limb 2^r. -/
theorem shiftUpBits_eq_partialProduct {r : Nat} (hr : r < 32) (spill : Nat) (x : List Word) :
    shiftUpBits r spill x = partialProduct spill (BitVec.ofNat 32 (2 ^ r)) x := by
  induction x generalizing spill with
  | nil => rfl
  | cons a as ih => rw [shiftUpBits, partialProduct, toNat_ofNat_two_pow hr, ih]

theorem limbsValue_shiftUpBits {r : Nat} (hr : r < 32) (x : List Word) :
    limbsValue (shiftUpBits r 0 x) = limbsValue x * 2 ^ r := by
  rw [shiftUpBits_eq_partialProduct hr, limbsValue_partialProduct _ _ _ (by decide), toNat_ofNat_two_pow hr,
    add_zero]

theorem limbsValue_shiftUp (k : Nat) (x : List Word) : limbsValue (shiftUp k x) = limbsValue x * 2 ^ k := by
  rw [shiftUp, limbsValue_append, limbsValue_replicate_zero, List.length_replicate, zero_add,
    limbsValue_shiftUpBits (Nat.mod_lt _ (by decide)), mul_left_comm, ← pow_add, Nat.div_add_mod]

/-! ## The right shift of limbs (R203) -/

theorem limbsValue_drop (n : Nat) (x : List Word) : limbsValue (x.drop n) = limbsValue x / 2 ^ (32 * n) := by
  induction n generalizing x with
  | zero => simp
  | succ n ih =>
    cases x with
    | nil => simp [limbsValue]
    | cons a as =>
      rw [List.drop_succ_cons, ih, limbsValue, Nat.mul_succ, Nat.add_comm _ 32, pow_add, ← Nat.div_div_eq_div_mul,
        Nat.add_mul_div_left _ _ (by decide), Nat.div_eq_of_lt a.isLt, zero_add]

theorem exists_limbsValue_eq_head_add (x : List Word) : ∃ m, limbsValue x = (x.headD 0).toNat + 2 ^ 32 * m := by
  cases x with
  | nil => exact ⟨0, rfl⟩
  | cons a as => exact ⟨limbsValue as, rfl⟩

/-- A shift by at most a limb sees only the next 64 bits. -/
theorem ofNat_div_two_pow_of_low {r : Nat} (hr : r ≤ 32) (c m : Nat) :
    BitVec.ofNat 32 ((c + 2 ^ 64 * m) / 2 ^ r) = BitVec.ofNat 32 (c / 2 ^ r) := by
  have hpow : 2 ^ 64 * m = 2 ^ r * (2 ^ 32 * (2 ^ (32 - r) * m)) := by
    rw [← mul_assoc, ← mul_assoc, ← pow_add, ← pow_add]
    congr 2
    omega
  apply BitVec.eq_of_toNat_eq
  rw [BitVec.toNat_ofNat, BitVec.toNat_ofNat, hpow, Nat.add_mul_div_left _ _ (by positivity),
    Nat.add_mul_mod_self_left]

theorem limbsValue_shiftDownBits {r : Nat} (hr : r ≤ 32) (x : List Word) :
    limbsValue (shiftDownBits r x) = limbsValue x / 2 ^ r := by
  induction x with
  | nil => simp [shiftDownBits, limbsValue]
  | cons a as ih =>
    obtain ⟨m, hm⟩ := exists_limbsValue_eq_head_add as
    have hsplit : limbsValue (a :: as) = a.toNat + 2 ^ 32 * (as.headD 0).toNat + 2 ^ 64 * m := by
      rw [limbsValue, hm]; ring
    have hrest : limbsValue (shiftDownBits r as) = limbsValue (a :: as) / 2 ^ r / 2 ^ 32 := by
      rw [ih, Nat.div_right_comm, limbsValue, Nat.add_mul_div_left _ _ (by decide), Nat.div_eq_of_lt a.isLt, zero_add]
    rw [shiftDownBits, ← ofNat_div_two_pow_of_low hr _ m, ← hsplit, limbsValue_carry (m := 0) hrest, mul_zero,
      add_zero]

theorem limbsValue_shiftDown (k : Nat) (x : List Word) : limbsValue (shiftDown k x) = limbsValue x / 2 ^ k := by
  rw [shiftDown, limbsValue_shiftDownBits (Nat.mod_lt _ (by decide)).le, limbsValue_drop, Nat.div_div_eq_div_mul,
    ← pow_add, Nat.div_add_mod]

/-- Settles O59: whole limbs move the value by powers of 2^32, the sub-limb part by the rest of the amount. -/
theorem limbShiftsAreExact : Obligations.LimbShiftsAreExact := by
  unfold Obligations.LimbShiftsAreExact
  exact fun k x => ⟨limbsValue_shiftUp k x, limbsValue_shiftDown k x⟩

end Sys2Proof.Machine

/-! PROOFS. Number theory: GCD (R231), MODEXP (R235 to R237) and MODINV (R240 to R244). What the loops compute is shown
beside the model; here each command's domain checks come first, then the value it writes. -/

namespace Sys2Proof.Machine

/-! ## GCD (R231) -/

theorem exec_gcd (s : State) (rd ra rb : RegIdx) :
    exec (.gcd rd ra rb) s = .next (s.written rd (Int.gcd (s.reg ra) (s.reg rb))) := by
  rw [exec, execGcd, gcdLoop_eq_gcd _ _ _ le_rfl, commit_eq, State.mag, State.mag, Int.gcd_eq_natAbs_gcd_natAbs]

/-- Settles O18: the Euclid loop gives the greatest common divisor of the magnitudes, and opcode 0x10 has the one row of
R231. -/
theorem gcdResult : Obligations.GcdResult := by
  unfold Obligations.GcdResult
  exact ⟨encodedAs_gcd, illegalUnless_of_rows (by decide), exec_gcd⟩

/-! ## MODEXP (R235 to R237) -/

section
variable {s : State} (rd : RegIdx) {ra rb rc : RegIdx}

theorem exec_modexp_of_modulus_eq_zero (hn : s.reg rc = 0) :
    exec (.modexp rd ra rb rc) s = .next (s.faulted .divzero) := by
  rw [exec, execModexp, if_pos hn, raise_eq]

theorem exec_modexp_of_modulus_neg (hn : s.reg rc < 0) :
    exec (.modexp rd ra rb rc) s = .next (s.faulted .range) := by
  rw [exec, execModexp, if_neg hn.ne, if_pos hn, raise_eq]

theorem exec_modexp_of_exponent_neg (hn : 0 < s.reg rc) (he : s.reg rb < 0) :
    exec (.modexp rd ra rb rc) s = .next (s.faulted .range) := by
  rw [exec, execModexp, if_neg hn.ne', if_neg hn.not_gt, if_pos he, raise_eq]

theorem exec_modexp_of_domain (hn : 0 < s.reg rc) (he : 0 ≤ s.reg rb) : exec (.modexp rd ra rb rc) s =
    .next (s.written rd (modexpValue (s.reg ra) (s.reg rb).toNat (s.reg rc))) := by
  rw [exec, execModexp, if_neg hn.ne', if_neg hn.not_gt, if_neg he.not_gt, commit_eq]

end

/-- For a base that is not negative and no multiple of the modulus, the closed form of R237 is the ordinary power
modulo n. -/
theorem modexpValue_of_nonneg {a n : Int} (e : Nat) (hn : 0 < n) (ha : 0 ≤ a) (hdvd : ¬ n ∣ a) :
    modexpValue a e n = a ^ e % n := by
  rw [modexpValue_eq a e n hn, if_neg hdvd, trem_eq_tmod, Int.tmod_eq_emod_of_nonneg (pow_nonneg ha e)]

/-- Settles O19: the domain checks in their order, then the value of the square-and-multiply loop in its closed form. -/
theorem modexpResult : Obligations.ModexpResult := by
  unfold Obligations.ModexpResult
  refine ⟨encodedAs_modexp, illegalUnless_of_rows (by decide), fun s rd ra rb rc =>
    ⟨exec_modexp_of_modulus_eq_zero rd, exec_modexp_of_modulus_neg rd, exec_modexp_of_exponent_neg rd,
      fun hn he => ?_⟩⟩
  exact ⟨_, exec_modexp_of_domain rd hn he, modexpValue_eq _ _ _ hn, natAbs_modexpValue_lt _ _ _ hn,
    modexpValue_of_nonneg _ hn⟩

/-! ## MODINV (R240 to R244) -/

/-! The draw of WEAK mode leaves the run control as it is; EXACT mode makes none (R243). -/

@[simp] theorem State.drawInverse_err (s : State) : s.drawInverse.err = s.err := by
  unfold State.drawInverse
  split <;> rfl

@[simp] theorem State.drawInverse_busy (s : State) : s.drawInverse.busy = s.busy := by
  unfold State.drawInverse
  split <;> rfl

theorem State.drawInverse_of_exactMode {s : State} (h : s.cfg.modinvMode = .exactMode) : s.drawInverse = s := by
  rw [State.drawInverse, h]

theorem State.drawInverse_of_weakMode {s : State} (h : s.cfg.modinvMode = .weakMode) :
    s.drawInverse = { s with draws := s.draws + 1 } := by
  rw [State.drawInverse, h]

theorem modinvValue_of_exactMode {s : State} (h : s.cfg.modinvMode = .exactMode) (a : Int) {b : Int} (hb : 0 < b) :
    modinvValue s a b = fmod (bezout a b).2 b := by
  rw [modinvValue, h]
  exact normalizeCoefficient_eq _ _ hb

/-- Both modes' d is below a positive modulus (R242, R243). -/
theorem modinvValue_lt (s : State) (a : Int) {b : Int} (hb : 0 < b) : modinvValue s a b < b := by
  unfold modinvValue
  split
  · rw [normalizeCoefficient_eq _ _ hb]
    exact Int.emod_lt_of_pos _ hb
  · exact Int.emod_lt_of_pos _ hb

section
variable {s : State} (rd : RegIdx) {ra rb : RegIdx}

theorem exec_modinv_of_modulus_eq_zero (hb : s.reg rb = 0) :
    exec (.modinv rd ra rb) s = .next (s.faulted .divzero) := by
  rw [exec, execModinv, if_pos hb, raise_eq]

theorem exec_modinv_of_modulus_neg (hb : s.reg rb < 0) :
    exec (.modinv rd ra rb) s = .next (s.faulted .range) := by
  rw [exec, execModinv, if_neg hb.ne, if_pos hb, raise_eq]

theorem exec_modinv_of_value_neg (hb : 0 < s.reg rb) (ha : s.reg ra < 0) :
    exec (.modinv rd ra rb) s = .next (s.faulted .range) := by
  rw [exec, execModinv, if_neg hb.ne', if_neg hb.not_gt, if_pos ha, raise_eq]

/-- Inside the domain MODINV completes in either mode, with NI from the greatest common divisor (R241, R243, R244). -/
theorem exec_modinv_of_domain (hb : 0 < s.reg rb) (ha : 0 ≤ s.reg ra) : exec (.modinv rd ra rb) s =
    .next { s.drawInverse.written rd (modinvValue s (s.reg ra) (s.reg rb)) with
      ni := decide (Int.gcd (s.reg ra) (s.reg rb) ≠ 1) } := by
  rw [exec, execModinv, if_neg hb.ne', if_neg hb.not_gt, if_neg ha.not_gt, commit_eq, (bezout_spec _ _ ha hb).1]
  simp only [ne_eq, Nat.cast_eq_one]
  rfl

end

/-- Reducing the coefficient modulo b keeps a·u0 ≡ gcd(a, b) (R242). -/
theorem dvd_mul_fmod_bezout_sub_gcd {a b : Int} (ha : 0 ≤ a) (hb : 0 < b) :
    b ∣ a * fmod (bezout a b).2 b - Int.gcd a b := by
  obtain ⟨hg, hu⟩ := bezout_spec a b ha hb
  rw [hg, mul_comm] at hu
  have hred : a * fmod (bezout a b).2 b ≡ a * (bezout a b).2 [ZMOD b] := (Int.mod_modEq _ b).mul_left a
  exact ((Int.modEq_iff_dvd.2 hu).trans hred.symm).dvd

/-- A congruence to 1 is an inverse for every modulus but 1 (R242). -/
theorem mul_emod_eq_one {a b d : Int} (h : b ∣ a * d - 1) (hb : 1 < b) : d * a % b = 1 := by
  rw [mul_comm]
  exact (Int.modEq_iff_dvd.2 h).symm.eq.trans (Int.emod_eq_of_lt one_pos.le hb)

/-- Settles O20: the domain checks, then the coefficient of the extended Euclid loop reduced into [0, b). -/
theorem modinvExactResult : Obligations.ModinvExactResult := by
  unfold Obligations.ModinvExactResult
  refine ⟨encodedAs_modinv, illegalUnless_of_rows (by decide), fun s rd ra rb hmode =>
    ⟨exec_modinv_of_modulus_eq_zero rd,
      fun h => h.elim (exec_modinv_of_modulus_neg rd) (And.elim (exec_modinv_of_value_neg rd)), fun hb ha => ?_⟩⟩
  have hd := modinvValue_of_exactMode hmode (s.reg ra) hb
  have hcong := dvd_mul_fmod_bezout_sub_gcd ha hb
  rw [← hd] at hcong
  have hexec := exec_modinv_of_domain rd hb ha
  rw [State.drawInverse_of_exactMode hmode] at hexec
  refine ⟨_, hexec, hd, modinvValue_nonneg s _ hb, modinvValue_lt s _ hb, hcong, fun hgcd hb1 => ?_⟩
  rw [hgcd] at hcong
  exact mul_emod_eq_one hcong hb1

/-- Settles O21: the free value is reduced into [0, b), and the draw is all that MODINV changes besides its result. -/
theorem modinvWeakResult : Obligations.ModinvWeakResult := by
  unfold Obligations.ModinvWeakResult
  intro s rd ra rb hmode ha hb
  have hexec := exec_modinv_of_domain rd hb ha
  rw [State.drawInverse_of_weakMode hmode] at hexec
  exact ⟨_, modinvValue_nonneg s (s.reg ra) hb, modinvValue_lt s (s.reg ra) hb, hexec⟩

/-- Settles O22: the checks in their order, none of which looks at the mode. -/
theorem modinvDomainFaults : Obligations.ModinvDomainFaults := by
  unfold Obligations.ModinvDomainFaults
  exact fun s rd ra rb => ⟨exec_modinv_of_modulus_eq_zero rd, exec_modinv_of_modulus_neg rd,
    exec_modinv_of_value_neg rd, fun hb ha =>
      ⟨_, exec_modinv_of_domain rd hb ha, s.drawInverse_err, s.drawInverse_busy⟩⟩

end Sys2Proof.Machine

/-! PROOFS. The engine step (R264 to R267) and the control commands: NOP, HALT and B.cond (R260 to R262), where pc goes
after a command (R265), and how a run ends (R267). -/

namespace Sys2Proof.Machine

/-! ## The engine's moves, one equation for each case -/

section
variable {s s' : State}

/-- The engine moves from the same state, with at most its own turn taken from the inputs. -/
theorem EngineTurn.exists_inputs (h : EngineTurn s s') : ∃ inputs, s' = { s with inputs := inputs } := by
  rcases h with ⟨-, rfl⟩ | ⟨rest, -, rfl⟩
  · exact ⟨s'.inputs, rfl⟩
  · exact ⟨rest, rfl⟩

theorem engineStep_of_idle (hb : s.busy = false) : engineStep s = .next s := if_pos hb

theorem engineStep_of_abort (hb : s.busy = true) (ha : s.abortp = true) (hf : s.inFlight = false) :
    engineStep s = .next (s.faulted .abort) := by
  simp only [engineStep, hb, ha, hf]
  rfl

/-- A command runs when no abort is pending, and one in progress is not stopped by an abort (R266, R281, R307). -/
theorem engineStep_of_run (hb : s.busy = true) (ha : s.abortp = false ∨ s.inFlight = true) :
    engineStep s = runCommand s := by
  rcases ha with ha | hf
  · simp [engineStep, hb, ha]
  · simp [engineStep, hb, hf]

theorem runCommand_of_ok {i : Instr} (hd : decode (s.imem s.pc) = .ok i) :
    runCommand s = exec i { s with inFlight := false } := by
  rw [runCommand, State.fetch, hd]

theorem runCommand_of_error {e : Reject} (hd : decode (s.imem s.pc) = .error e) :
    runCommand s = .next ({ s with inFlight := false }.faulted .illegal) := by
  rw [runCommand, State.fetch, hd, raise_eq]

theorem engineBoundary_of_idle_or_inFlight (h : s.busy = false ∨ s.inFlight = true) : engineBoundary s = s := by
  unfold engineBoundary
  rcases h with hb | hf
  · rw [if_pos hb]
  · rw [if_pos hf, ite_self]

theorem engineBoundary_of_abort (hb : s.busy = true) (hf : s.inFlight = false) (ha : s.abortp = true) :
    engineBoundary s = s.faulted .abort := by
  simp only [engineBoundary, hb, hf, ha]
  rfl

theorem engineBoundary_of_run (hb : s.busy = true) (hf : s.inFlight = false) (ha : s.abortp = false) :
    engineBoundary s = { s with inFlight := true } := by
  simp [engineBoundary, hb, hf, ha]

/-! ## The order of a step -/

/-- An idle engine leaves the state (R266, R343). -/
theorem step_of_idle (ht : EngineTurn s s') (hb : s.busy = false) : step s = .next s' := by
  rw [step_of_engineTurn s s' ht]
  obtain ⟨inputs, rfl⟩ := ht.exists_inputs
  exact engineStep_of_idle hb

/-- An abort pending at a command boundary stops the run (R266, R304). -/
theorem step_of_abort (ht : EngineTurn s s') (hb : s.busy = true) (ha : s.abortp = true) (hf : s.inFlight = false) :
    step s = .next (s'.faulted .abort) := by
  rw [step_of_engineTurn s s' ht]
  obtain ⟨inputs, rfl⟩ := ht.exists_inputs
  exact engineStep_of_abort hb ha hf

/-- The engine's turn with a run in progress that no abort stops is the command's (R266). -/
theorem step_of_run (ht : EngineTurn s s') (hb : s.busy = true) (ha : s.abortp = false ∨ s.inFlight = true) :
    step s = runCommand s' := by
  rw [step_of_engineTurn s s' ht]
  obtain ⟨inputs, rfl⟩ := ht.exists_inputs
  exact engineStep_of_run hb ha

theorem step_of_decode {i : Instr} (ht : EngineTurn s s') (hb : s.busy = true)
    (ha : s.abortp = false ∨ s.inFlight = true) (hd : decode (s.imem s.pc) = .ok i) :
    step s = exec i { s' with inFlight := false } := by
  rw [step_of_run ht hb ha]
  obtain ⟨inputs, rfl⟩ := ht.exists_inputs
  exact runCommand_of_ok hd

theorem step_of_decode_error {e : Reject} (ht : EngineTurn s s') (hb : s.busy = true)
    (ha : s.abortp = false ∨ s.inFlight = true) (hd : decode (s.imem s.pc) = .error e) :
    step s = .next ({ s' with inFlight := false }.faulted .illegal) := by
  rw [step_of_run ht hb ha]
  obtain ⟨inputs, rfl⟩ := ht.exists_inputs
  exact runCommand_of_error hd

end

/-- Settles O5: the engine's turn is the command's (`step_of_run`), which is the decoded one. -/
theorem stepRunsTheDecodedCommand : Obligations.StepRunsTheDecodedCommand := by
  unfold Obligations.StepRunsTheDecodedCommand
  exact fun _ _ _ => step_of_decode

/-- Settles O6: the step is the next agent's move (`step_of_engineTurn`, `step_of_eventTurn`), which has an equation for
each case of the engine and of the boundary. -/
theorem engineStepOrder : Obligations.EngineStepOrder := by
  unfold Obligations.EngineStepOrder
  refine ⟨fun s s' ht => ?engine, fun s s' off => step_of_eventTurn s s' _,
    fun s s' off w => step_of_eventTurn s s' _, fun s s' => step_of_eventTurn s s' _, fun s s' ht => ?boundary⟩
  case engine =>
    exact ⟨step_of_idle ht, step_of_abort ht,
      fun hb ha => ⟨fun i => step_of_decode ht hb ha, fun e => step_of_decode_error ht hb ha⟩⟩
  case boundary =>
    rw [step_of_eventTurn s s' _ ht]
    obtain ⟨rest, -, rfl⟩ := ht
    exact ⟨fun h => congrArg Host.Outcome.next (engineBoundary_of_idle_or_inFlight h),
      fun hb hf ha => congrArg Host.Outcome.next (engineBoundary_of_abort hb hf ha),
      fun hb hf ha => congrArg Host.Outcome.next (engineBoundary_of_run hb hf ha)⟩

/-! ## NOP, HALT and B.cond -/

/-- Settles O23: each opcode has the one row of its command, and both commands advance pc (`State.advance_eq`). -/
theorem nopAndHalt : Obligations.NopAndHalt := by
  unfold Obligations.NopAndHalt
  exact ⟨encodedAs_nop, illegalUnless_of_rows (by decide), encodedAs_halt, illegalUnless_of_rows (by decide),
    fun s => ⟨congrArg Host.Outcome.next s.advance_eq, congrArg Host.Outcome.next s.endRun.advance_eq⟩⟩

theorem State.branch_eq (s : State) (c : Cond) (off : Int) : s.branch c off = s.branched (taken c s) off := by
  unfold State.branch State.branched
  split
  · rfl
  · exact s.advance_eq

/-- Every branch does what R262 says, under its condition of R118. -/
theorem exec_of_branchParts {i : Instr} {c : Cond} {off : Int} (h : branchParts i = some (c, off)) (s : State) :
    exec i s = .next (s.branched (taken c s) off) := by
  rw [← s.branch_eq]
  cases i with
  | bAL _ | bEQ _ | bNE _ | bLT _ | bGE _ | bGT _ | bLE _ | bNI _ | bIV _ =>
    cases h
    rfl
  | _ => cases h

/-- The conditions 9 to 15 are reserved (R121). -/
theorem decodeBranch_of_le {cond : Nat} (h : 9 ≤ cond) (off : Int) :
    decodeBranch cond off = .error .reservedCondition := by
  unfold decodeBranch
  split
  case h_10 => rfl
  all_goals omega

/-- A word of opcode 0x20 with a reserved condition or a nonzero bit in [21:16] encodes no command (R120, R121). -/
theorem decode_of_reserved_branch {w : Word} (hop : field w 31 26 = 0x20)
    (h : 9 ≤ field w 25 22 ∨ field w 21 16 ≠ 0) : ∃ e, decode w = .error e := by
  simp only [decode, hop]
  split_ifs with h0
  · exact ⟨_, decodeBranch_of_le (h.resolve_right (not_not_intro h0)) _⟩
  · exact ⟨_, rfl⟩

/-- Settles O24: each condition has its row, the other words of the opcode do not decode
(`decode_of_reserved_branch`), and every branch has one meaning (`exec_of_branchParts`). -/
theorem branchResults : Obligations.BranchResults := by
  unfold Obligations.BranchResults
  refine ⟨encodedAs_bAL, encodedAs_bEQ, encodedAs_bNE, encodedAs_bLT, encodedAs_bGE, encodedAs_bGT, encodedAs_bLE,
    encodedAs_bNI, encodedAs_bIV, fun w hop hres => ?illegal, fun s off => ?meaning⟩
  case illegal =>
    obtain ⟨e, he⟩ := decode_of_reserved_branch hop hres
    exact raisesIllegal_of_decode w e he
  case meaning =>
    exact ⟨exec_of_branchParts (c := .al) rfl s, exec_of_branchParts (c := .eq) rfl s,
      exec_of_branchParts (c := .ne) rfl s, exec_of_branchParts (c := .lt) rfl s, exec_of_branchParts (c := .ge) rfl s,
      exec_of_branchParts (c := .gt) rfl s, exec_of_branchParts (c := .le) rfl s, exec_of_branchParts (c := .ni) rfl s,
      exec_of_branchParts (c := .iv) rfl s⟩

/-! ## pc after a command -/

/-- Settles O34: a fault leaves pc, completing advances it unless the command is a branch (`exec_cases`), and a branch
never faults (`exec_of_branchParts`). -/
theorem pcAdvancesSequentially : Obligations.PcAdvancesSequentially := by
  unfold Obligations.PcAdvancesSequentially
  intro i s t herr he
  refine ⟨fun hfault => ?_, fun hok hb => ?_, fun c off hp => ?_⟩
  · rcases exec_cases i s with ⟨code, -, hx⟩ | ⟨u, hu, hc⟩
    · cases hx.symm.trans he
      rfl
    · cases hu.symm.trans he
      cases (hc.err.trans herr).symm.trans hfault
  · rcases exec_cases i s with ⟨code, -, hx⟩ | ⟨u, hu, hc⟩
    · cases hx.symm.trans he
      cases hok
    · cases hu.symm.trans he
      exact hc.pc hb
  · cases (exec_of_branchParts hp s).symm.trans he
    exact ⟨herr, rfl⟩

/-! ## How a run ends (R267) -/

/-- The four ways of R267 to go from a run in progress in `s` to an idle `t`: HALT, a fault, the abort stop, a reset. -/
def RunEnd (s t : State) : Prop :=
  (decode (s.imem s.pc) = .ok .halt ∧ t.done = true ∧ t.err = false) ∨
  (t.done = false ∧ t.err = true ∧ 1 ≤ t.errcode.toNat ∧ t.errcode.toNat ≤ 5 ∧ t.pc = s.pc) ∨
  (t.done = false ∧ t.err = true ∧ t.errcode = .abort ∧ t.pc = s.pc) ∨
  (t = { State.atPowerOn s.cfg t.epoch s.draws s.rdata t.inputs with mem := t.mem })

/-- The codes a command may raise are DIVZERO to RANGE (R301, R302). -/
theorem toNat_of_mayRaise {i : Instr} {code : ErrCode} (h : mayRaise i code = true) :
    1 ≤ code.toNat ∧ code.toNat ≤ 5 := by
  cases code with
  | none => exact absurd rfl (ne_none_of_mayRaise h)
  | abort => cases i <;> cases h
  | illegal | divzero | overflow | precond | range => decide

section
variable {s t : State}

theorem runEnd_faulted (hdone : s.done = false) {code : ErrCode} (hcode : 1 ≤ code.toNat ∧ code.toNat ≤ 5) :
    RunEnd s ({ s with inFlight := false }.faulted code) :=
  .inr (.inl ⟨hdone, rfl, hcode.1, hcode.2, rfl⟩)

theorem runEnd_abort (hdone : s.done = false) : RunEnd s (s.faulted .abort) :=
  .inr (.inr (.inl ⟨hdone, rfl, rfl, rfl⟩))

theorem runEnd_softReset (s : State) : RunEnd s s.softReset := .inr (.inr (.inr rfl))

theorem runEnd_powerOn (s : State) : RunEnd s s.powerOn := .inr (.inr (.inr rfl))

/-- Of the commands that complete, only HALT ends a run (R261). -/
theorem Completed.eq_halt {i : Instr} (hc : Completed i s t) (hb : s.busy = true) (ht : t.busy = false) :
    i = .halt := by
  by_contra hi
  cases ((hc.run hi).busy.trans hb).symm.trans ht

theorem runCommand_runEnd (h : s.Inv) (hb : s.busy = true) (he : runCommand s = .next t) (ht : t.busy = false) :
    RunEnd s t := by
  obtain ⟨hdone, herr⟩ := h.busy_clear hb
  cases hd : decode (s.imem s.pc) with
  | error e =>
    cases (runCommand_of_error hd).symm.trans he
    exact runEnd_faulted hdone (by decide)
  | ok i =>
    rw [runCommand_of_ok hd] at he
    rcases exec_cases i { s with inFlight := false } with ⟨code, hcode, hx⟩ | ⟨u, hu, hc⟩
    · cases hx.symm.trans he
      exact runEnd_faulted hdone (toNat_of_mayRaise hcode)
    · cases hu.symm.trans he
      cases hc.eq_halt hb ht
      obtain ⟨-, hdone', -, herr', -⟩ := hc.halt rfl
      exact .inl ⟨hd, hdone', herr'.trans herr⟩

theorem engineStep_runEnd (h : s.Inv) (hb : s.busy = true) (he : engineStep s = .next t) (ht : t.busy = false) :
    RunEnd s t := by
  by_cases ha : s.abortp = true ∧ s.inFlight = false
  · cases (engineStep_of_abort hb ha.1 ha.2).symm.trans he
    exact runEnd_abort (h.busy_clear hb).1
  · rw [engineStep_of_run hb (by simpa [imp_iff_not_or] using ha)] at he
    exact runCommand_runEnd h hb he ht

/-- The boundary ends a run by the abort stop alone (R266). -/
theorem engineBoundary_runEnd (h : s.Inv) (hb : s.busy = true) (ht : (engineBoundary s).busy = false) :
    RunEnd s (engineBoundary s) := by
  cases hf : s.inFlight with
  | true =>
    rw [engineBoundary_of_idle_or_inFlight (.inr hf)] at ht
    cases hb.symm.trans ht
  | false =>
    cases ha : s.abortp with
    | true =>
      rw [engineBoundary_of_abort hb hf ha]
      exact runEnd_abort (h.busy_clear hb).1
    | false =>
      rw [engineBoundary_of_run hb hf ha] at ht
      cases hb.symm.trans ht

/-- A host access ends a run by a soft reset alone (R88, R342). -/
theorem hostAccess_runEnd (a : HostAccess) (hb : s.busy = true) (ht : (hostAccess a s).busy = false) :
    RunEnd s (hostAccess a s) := by
  rcases softReset_or_sameRun_hostAccess a hb with hreset | hsame
  · rw [hreset]
    exact runEnd_softReset s
  · cases (hsame.busy.trans hb).symm.trans ht

theorem eventStep_runEnd (e : Event) (h : s.Inv) (hb : s.busy = true) (he : eventStep e s = .next t)
    (ht : t.busy = false) : RunEnd s t := by
  cases e with
  | engine => exact engineStep_runEnd h hb he ht
  | boundary =>
    cases he
    exact engineBoundary_runEnd h hb ht
  | host a =>
    cases he
    exact hostAccess_runEnd a hb ht
  | powerOn =>
    cases he
    exact runEnd_powerOn s

end

/-- Settles O35: by the kind of the next move; the moves to come are no part of how the run ends. -/
theorem runsEndInFourWays : Obligations.RunsEndInFourWays := by
  unfold Obligations.RunsEndInFourWays
  intro s t h hb he ht
  unfold step at he
  split at he
  · exact engineStep_runEnd h hb he ht
  next e rest _ => exact eventStep_runEnd (s := { s with inputs := rest }) e { h with } hb he ht

end Sys2Proof.Machine

/-! PROOFS. The host's operations (spec 45_host_ops.md): storage, IMPORT and EXPORT while idle, the writes of CTRL and
STATUS, and what is left of the window while BUSY = 1 (R280 to R292). -/

namespace Sys2Proof.Machine

/-! ## Offsets and ports -/

/-- Offset bits [1:0] are ignored (R81), so a register is selected by any offset inside its word. -/
theorem portOf_congr {c : Config} {off off' : Offset} (h : off.toNat / 4 = off'.toNat / 4) :
    portOf c off = portOf c off' := by
  unfold portOf
  rw [h]

theorem toNat_ofNat_bit (b : Bool) : (BitVec.ofNat 32 (bit b)).toNat = if b then 1 else 0 := by
  cases b <;> rfl

/-! ## IMPORT and EXPORT -/

section
variable {s : State}

theorem importReg_of_count_out (h : s.count.toNat < 1 ∨ s.cfg.lMax < s.count.toNat) :
    importReg s = { s with xerr := true } := if_pos h

theorem importReg_of_count_in (h1 : 1 ≤ s.count.toNat) (hL : s.count.toNat ≤ s.cfg.lMax) :
    importReg s = s.setReg s.sel (signed s.xsign (limbSum s.buf s.count.toNat)) := if_neg (by omega)

theorem exportReg_of_count_ne (h : s.count.toNat ≠ nlimbs (s.reg s.sel)) : exportReg s = { s with xerr := true } :=
  if_neg h

theorem exportReg_of_count_eq (h : s.count.toNat = nlimbs (s.reg s.sel)) :
    exportReg s = { s with
      mem := storeLimbs (s.reg s.sel) (nlimbs (s.reg s.sel)) s.mem, xsign := signBit (s.reg s.sel) } := if_pos h

/-- An idle write of XFER (R53). -/
theorem hostWrite_xfer_of_idle (w : Word) (hb : s.busy = false) : hostWrite 0x01C w s = xferWrite w s :=
  hostWrite_eq_writePort 0x01C w s (.inl hb)

theorem xferWrite_import (s : State) : xferWrite 1 s = importReg s := if_pos rfl

theorem xferWrite_export (s : State) : xferWrite 2 s = exportReg s := by
  rw [xferWrite, if_neg (by decide), if_pos rfl]

/-- R289. -/
theorem xferWrite_of_reserved {w : Word} (h1 : w ≠ 1) (h2 : w ≠ 2) : xferWrite w s = { s with xerr := true } := by
  rw [xferWrite, if_neg h1, if_neg h2]

end

/-- The sign of an imported value: a zero magnitude has none (R287). -/
theorem signed_neg_iff (b : Bool) (m : Nat) : signed b m < 0 ↔ b = true ∧ signed b m ≠ 0 := by
  cases b with
  | false => simp [signed]
  | true =>
    by_cases hm : m = 0
    · simp [signed, hm]
    · simp [signed, hm]; omega

/-- Settles O45: the XFER word and the range of COUNT choose the branch, and the imported value is `signed` of the limbs
read (`natAbs_signed`, `signed_neg_iff`, `signed_limbSum_lt`). -/
theorem importLoadsTheRegister : Obligations.ImportLoadsTheRegister := by
  unfold Obligations.ImportLoadsTheRegister
  intro s hb
  refine ⟨fun hout => ?_, fun h1 hL => ⟨signed s.xsign (limbSum s.buf s.count.toNat), ?_, natAbs_signed _ _,
    signed_neg_iff _ _, signed_limbSum_lt _ _ hL⟩, fun w h1 h2 => ?_, hostRead_eq_readPort 0x01C s (.inl hb)⟩
  · rw [hostWrite_xfer_of_idle 1 hb, xferWrite_import, importReg_of_count_out hout]
  · rw [hostWrite_xfer_of_idle 1 hb, xferWrite_import, importReg_of_count_in h1 hL, State.setReg]
  · rw [hostWrite_xfer_of_idle w hb, xferWrite_of_reserved h1 h2]

/-- Settles O46: the stored words by `readWord_storeLimbs`, the bytes outside them by `readByte_storeLimbs_of_ge`. -/
theorem exportStoresTheLimbs : Obligations.ExportStoresTheLimbs := by
  unfold Obligations.ExportStoresTheLimbs
  intro s hb
  rw [hostWrite_xfer_of_idle 2 hb, xferWrite_export]
  refine ⟨exportReg_of_count_ne, fun hcount => ⟨_, exportReg_of_count_eq hcount, fun j hj => ?_,
    fun a ha => readByte_storeLimbs_of_ge _ _ _ _ _ ha⟩⟩
  rw [readWord_storeLimbs, if_pos hj]

/-- What IMPORT loads from the limbs and the sign of `v` is `v` (R35, R287). -/
theorem importReg_reg_sel {s : State} {v : Int} (hcount : s.count.toNat = nlimbs v) (hL : nlimbs v ≤ s.cfg.lMax)
    (hsign : s.xsign = signBit v) (hbuf : ∀ j < nlimbs v, s.buf j = limb v j) : (importReg s).reg s.sel = v := by
  have hpos := nlimbs_pos v
  rw [importReg_of_count_in (by omega) (by omega), State.reg_setReg, if_pos rfl, hcount, hsign,
    limbSum_congr _ _ _ hbuf, decode_limbs]

/-- An idle write of SEL selects a register by the low 4 bits (R50). -/
theorem hostWrite_sel_of_idle {s : State} {w : Word} {k : RegIdx} (hb : s.busy = false) (hk : k.val = w.toNat % 16) :
    hostWrite 0x010 w s = { s with sel := k } := by
  obtain rfl : k = ⟨w.toNat % 16, Nat.mod_lt _ (by decide)⟩ := Fin.ext hk
  exact hostWrite_eq_writePort 0x010 w s (.inl hb)

/-- With the limbs and the sign of `v` in BUF, COUNT and XSIGN, a write of SEL and IMPORT put `v` in the register that
SEL names. -/
theorem reg_import_after_sel {s : State} {v : Int} (k : RegIdx) (hb : s.busy = false) (hcount : s.count.toNat = nlimbs v)
    (hL : nlimbs v ≤ s.cfg.lMax) (hsign : s.xsign = signBit v) (hbuf : ∀ j < nlimbs v, s.buf j = limb v j) :
    (hostWrite 0x01C 1 (hostWrite 0x010 (BitVec.ofNat 32 k.val) s)).reg k = v := by
  have hk : k.val = (BitVec.ofNat 32 k.val).toNat % 16 := by rw [BitVec.toNat_ofNat]; omega
  have hsel : hostWrite 0x010 (BitVec.ofNat 32 k.val) s = { s with sel := k } := hostWrite_sel_of_idle hb hk
  rw [hsel, hostWrite_xfer_of_idle (s := { s with sel := k }) 1 hb, xferWrite_import]
  exact importReg_reg_sel (s := { s with sel := k }) hcount hL hsign hbuf

/-- Settles O47: EXPORT leaves the limbs and the sign of R[SEL] (`readWord_storeLimbs`), and `reg_import_after_sel` loads
them. -/
theorem importUndoesExport : Obligations.ImportUndoesExport := by
  unfold Obligations.ImportUndoesExport
  intro s k h hb hcount
  rw [hostWrite_xfer_of_idle 2 hb, xferWrite_export, exportReg_of_count_eq hcount]
  exact reg_import_after_sel k hb hcount (h.nlimbs_le s.sel) rfl fun j hj =>
    (readWord_storeLimbs _ _ _ _ _).trans (if_pos hj)

/-! ## Storage -/

/-- An idle read right after an idle write of the same port returns what the port then reads as. -/
theorem rdata_hostRead_hostWrite_of_idle (off : Offset) (w : Word) {s t : State} (hw : hostWrite off w s = t)
    (hb : t.busy = false) : (hostRead off (hostWrite off w s)).rdata = t.readPort (portOf t.cfg off) := by
  rw [hw, hostRead_eq_readPort off t (.inl hb)]

/-- A word of the window that its port stores at its own offset is plain storage: what BUF and IMEM share (R73, R75,
R292). -/
theorem storage_of_port {s : State} {w : Word} {p : Port} {a : Nat} (hb : s.busy = false) (ha : a < 2 ^ 15)
    (hport : ∀ off : Offset, off.toNat = a → portOf s.cfg off = p)
    (hstore : writePort p w s = { s with mem := s.mem.writeWord a w })
    (hread : ∀ t : State, t.readPort p = t.mem.readWord t.epoch a) :
    ∃ off : Offset, off.toNat = a ∧ StoresWord s (hostWrite off w s) off.toNat w ∧
      hostRead off s = { s with rdata := s.readPort p } ∧ (hostRead off (hostWrite off w s)).rdata = w := by
  have hoff : (BitVec.ofNat 15 a).toNat = a := Nat.mod_eq_of_lt ha
  have hp := hport _ hoff
  have hw : hostWrite (BitVec.ofNat 15 a) w s = { s with mem := s.mem.writeWord a w } := by
    rw [hostWrite_eq_writePort _ w s (.inl hb), hp, hstore]
  refine ⟨_, hoff, ?_, ?_, ?_⟩
  · rw [hw, hoff]
    exact storesWord_writeWord s a w
  · rw [hostRead_eq_readPort _ s (.inl hb), hp]
  · rw [rdata_hostRead_hostWrite_of_idle _ w hw hb, hp, hread]
    exact Memory.readWord_writeWord_self _ _ _ _

theorem imemWords_le {c : Config} (hc : c.valid = true) : c.imemWords ≤ 4096 := by
  obtain ⟨-, -, -, hpcw⟩ := (Config.valid_iff _).1 hc
  exact Nat.pow_le_pow_right (by decide) hpcw

theorem toNat_ofNat_of_lt_imemWords {c : Config} (hc : c.valid = true) {n : Nat} (hn : n < c.imemWords) :
    (BitVec.ofNat 32 n).toNat = n := by
  have hwords := imemWords_le hc
  exact Nat.mod_eq_of_lt (by omega)

theorem toNat_ofNat_regIdx (k : RegIdx) : (BitVec.ofNat 32 k.val).toNat = k.val := Nat.mod_eq_of_lt (by omega)

/-- Settles O48: the words of memory by `storage_of_port`; each register's write sets its field, and a read after it sees
that field (`rdata_hostRead_hostWrite_of_idle`). -/
theorem hostStorageReadsBack : Obligations.HostStorageReadsBack := by
  unfold Obligations.HostStorageReadsBack
  intro s w h hb
  refine ⟨fun j hj => ?buf, fun i hi => ?imem, ?sel, ?count, ?xsign, ?pc⟩
  case buf =>
    obtain ⟨-, hL, -⟩ := (Config.valid_iff _).1 h.cfg_valid
    exact storage_of_port (p := .buf j) hb (by omega)
      (fun off hoff => (portOf_eq_buf_iff _ h.cfg_valid off j).2 ⟨hj, by omega⟩) rfl fun _ => rfl
  case imem =>
    have hwords := imemWords_le h.cfg_valid
    exact storage_of_port (p := .imem i) hb (by omega)
      (fun off hoff => (portOf_eq_imem_iff _ h.cfg_valid off i).2 ⟨hi, by omega⟩) rfl fun _ => rfl
  case sel =>
    have hw := hostWrite_sel_of_idle (k := ⟨w.toNat % 16, Nat.mod_lt _ (by decide)⟩) hb rfl
    refine ⟨⟨_, rfl, hw⟩, ⟨_, hostRead_eq_readPort 0x010 s (.inl hb), toNat_ofNat_regIdx s.sel⟩, ?_⟩
    rw [rdata_hostRead_hostWrite_of_idle 0x010 w hw hb]
    exact toNat_ofNat_regIdx _
  case count =>
    have hw : hostWrite 0x014 w s = { s with count := w } := hostWrite_eq_writePort 0x014 w s (.inl hb)
    exact ⟨hw, hostRead_eq_readPort 0x014 s (.inl hb), rdata_hostRead_hostWrite_of_idle 0x014 w hw hb⟩
  case xsign =>
    have hw : hostWrite 0x018 w s = { s with xsign := w.getLsbD 0 } := hostWrite_eq_writePort 0x018 w s (.inl hb)
    refine ⟨hw, ⟨_, hostRead_eq_readPort 0x018 s (.inl hb), toNat_ofNat_bit s.xsign⟩, ?_⟩
    rw [rdata_hostRead_hostWrite_of_idle 0x018 w hw hb]
    refine (toNat_ofNat_bit (w.getLsbD 0)).trans ?_
    simp only [BitVec.getLsbD, Nat.testBit_zero, decide_eq_true_eq]
    split <;> omega
  case pc =>
    have hw : hostWrite 0x00C w s = { s with pc := w.toNat % s.cfg.imemWords } :=
      hostWrite_eq_writePort 0x00C w s (.inl hb)
    refine ⟨hw, ⟨_, hostRead_eq_readPort 0x00C s (.inl hb), toNat_ofNat_of_lt_imemWords h.cfg_valid h.pc_lt⟩, ?_⟩
    rw [rdata_hostRead_hostWrite_of_idle 0x00C w hw hb]
    exact toNat_ofNat_of_lt_imemWords h.cfg_valid (Nat.mod_lt _ (imemWords_pos _))

/-! ## CTRL and STATUS -/

section
variable {s : State} {w : Word}

theorem ctrlWrite_of_reset (h2 : w.getLsbD 2 = true) : ctrlWrite w s = s.softReset := if_pos h2

theorem ctrlWrite_of_busy (h2 : w.getLsbD 2 = false) (hb : s.busy = true) : ctrlWrite w s =
    { s with ie := w.getLsbD 3, abortp := s.abortp || w.getLsbD 1, herr := s.herr || w.getLsbD 0 } := by
  simp only [ctrlWrite, h2, hb, Bool.false_eq_true, if_false, if_true]

theorem ctrlWrite_of_start (h2 : w.getLsbD 2 = false) (hb : s.busy = false) (h0 : w.getLsbD 0 = true) :
    ctrlWrite w s =
      { s with ie := w.getLsbD 3, done := false, err := false, errcode := .none, abortp := false, busy := true } := by
  simp only [ctrlWrite, h2, hb, h0, State.startRun, Bool.false_eq_true, if_false, if_true]

theorem ctrlWrite_of_idle (h2 : w.getLsbD 2 = false) (hb : s.busy = false) (h0 : w.getLsbD 0 = false) :
    ctrlWrite w s = { s with ie := w.getLsbD 3 } := by
  simp only [ctrlWrite, h2, hb, h0, Bool.false_eq_true, if_false]

end

/-- IE takes bit 3 of every CTRL write without SRST, while BUSY is 0 or 1 (R284). -/
theorem ctrlWrite_ie {w : Word} (h2 : w.getLsbD 2 = false) (s : State) : (ctrlWrite w s).ie = w.getLsbD 3 := by
  cases hb : s.busy
  · cases h0 : w.getLsbD 0
    · rw [ctrlWrite_of_idle h2 hb h0]
    · rw [ctrlWrite_of_start h2 hb h0]
  · rw [ctrlWrite_of_busy h2 hb]

theorem State.ctrlWord_eq (s : State) : s.ctrlWord = if s.ie then 8 else 0 := by
  unfold State.ctrlWord
  cases s.ie <;> rfl

/-- Settles O40: CTRL is open at any time (R290), and each case of R284 has its equation of `ctrlWrite`. -/
theorem ctrlWritePrecedence : Obligations.CtrlWritePrecedence := by
  unfold Obligations.CtrlWritePrecedence
  intro s w
  have hw : hostWrite 0x004 w s = ctrlWrite w s := hostWrite_eq_writePort 0x004 w s (.inr rfl)
  have hr : hostRead 0x004 s = { s with rdata := s.ctrlWord } := hostRead_eq_readPort 0x004 s (.inr rfl)
  rw [hw, hr, State.ctrlWord_eq]
  exact ⟨ctrlWrite_of_reset, ctrlWrite_of_busy, ctrlWrite_of_start, ctrlWrite_of_idle, rfl⟩

/-- Settles O41: STATUS is open at any time (R290), and each bit is cleared by its own bit of the word. -/
theorem statusWriteClears : Obligations.StatusWriteClears := by
  unfold Obligations.StatusWriteClears
  intro s w
  have hw : hostWrite 0x008 w s = statusWrite w s := hostWrite_eq_writePort 0x008 w s (.inr rfl)
  rw [hw]
  simp [statusWrite, Bool.and_comm]

/-! ## The window while BUSY = 1 -/

/-- Two words whose numbers differ only in bit 0. -/
theorem getLsbD_ofNat_of_div_two_eq {x y k : Nat} (h : x / 2 = y / 2) (hk : 1 ≤ k) :
    (BitVec.ofNat 32 x).getLsbD k = (BitVec.ofNat 32 y).getLsbD k := by
  obtain ⟨n, rfl⟩ : ∃ n, k = n + 1 := ⟨k - 1, by omega⟩
  rw [BitVec.getLsbD_ofNat, BitVec.getLsbD_ofNat, Nat.testBit_succ, Nat.testBit_succ, h]

/-- STATUS differs between a run and an idle state in BUSY alone (R47). -/
theorem State.statusWord_busy (s : State) (hb : s.busy = true) : s.statusWord.getLsbD 0 = true ∧
    ∀ k, 1 ≤ k → s.statusWord.getLsbD k = ({ s with busy := false } : State).statusWord.getLsbD k := by
  unfold State.statusWord
  refine ⟨getLsbD_ofNat_eq (by decide) ?_, fun k hk => getLsbD_ofNat_of_div_two_eq ?_ hk⟩ <;>
    simp only [hb, bit, if_true, Bool.false_eq_true, if_false] <;> omega

/-- A read of an open port during a run, against the same read while idle (R290). -/
theorem hostRead_of_open (s : State) {off : Offset} (hb : s.busy = true)
    (hoff : off.toNat / 4 = 0 ∨ off.toNat / 4 = 1 ∨ off.toNat / 4 = 2 ∨ off.toNat / 4 = 10) :
    ∃ v, hostRead off s = { s with rdata := v } ∧
      (off.toNat / 4 ≠ 2 → v = (hostRead off { s with busy := false }).rdata) ∧
      (off.toNat / 4 = 2 → v.getLsbD 0 = true ∧
        ∀ k, 1 ≤ k → v.getLsbD k = (hostRead off { s with busy := false }).rdata.getLsbD k) := by
  rw [hostRead_eq_readPort off { s with busy := false } (.inl rfl)]
  refine ⟨_, hostRead_eq_readPort off s (.inr ((portOf_always_iff _ _).2 hoff)), fun hne => ?_, fun h2 => ?_⟩
  · rcases hoff with h | h | h | h
    · rw [portOf_congr (off' := 0x000) h]; rfl
    · rw [portOf_congr (off' := 0x004) h]; rfl
    · exact absurd h hne
    · rw [portOf_congr (off' := 0x028) h]; rfl
  · have hport : portOf s.cfg off = .status := portOf_congr (off' := 0x008) h2
    simp only [hport]
    exact s.statusWord_busy hb

/-- Settles O43: the offset decides whether the access is refused (`portOf_always_iff`); a port that is open behaves as
`writePort` and `readPort` say, which look at BUSY only for CTRL and for bit 0 of STATUS. -/
theorem busyAccessIsRefused : Obligations.BusyAccessIsRefused := by
  unfold Obligations.BusyAccessIsRefused
  intro s off w hb
  have hopen := portOf_always_iff s.cfg off
  have hwrite : (portOf s.cfg off).always = true → hostWrite off w s = writePort (portOf s.cfg off) w s := fun h =>
    hostWrite_eq_writePort off w s (.inr h)
  have hidle : hostWrite off w { s with busy := false } = writePort (portOf s.cfg off) w { s with busy := false } :=
    hostWrite_eq_writePort off w { s with busy := false } (.inl rfl)
  refine ⟨fun hoff => ?refused, fun hoff => hostRead_of_open s hb hoff, fun hoff => ?ignored,
    fun hoff => ?status, fun hoff => ?ctrl⟩
  case refused =>
    have hclosed : (portOf s.cfg off).always = false := Bool.eq_false_iff.2 (mt hopen.1 (by omega))
    exact ⟨hostWrite_of_refused w hb hclosed, _, hostRead_of_refused hb hclosed⟩
  case ignored =>
    rw [hwrite (hopen.2 (by omega))]
    rcases hoff with hoff | hoff
    · rw [portOf_congr (off' := 0x000) hoff]; rfl
    · rw [portOf_congr (off' := 0x028) hoff]; rfl
  case status =>
    have hport : portOf s.cfg off = .status := portOf_congr (off' := 0x008) hoff
    rw [hwrite (hopen.2 (by omega)), hidle, hport]
    simp only [writePort, statusWrite, ← hb]
  case ctrl =>
    have hport : portOf s.cfg off = .ctrl := portOf_congr (off' := 0x004) hoff
    rw [hwrite (hopen.2 (by omega)), hidle, hport]
    simp only [writePort]
    refine ⟨fun h2 => ?_, fun h2 => ⟨?_, ctrlWrite_of_busy h2 hb⟩⟩
    · rw [ctrlWrite_of_reset h2, ctrlWrite_of_reset h2]; rfl
    · rw [ctrlWrite_ie h2, ctrlWrite_ie h2]

end Sys2Proof.Machine

/-! PROOFS. Exceptions: which codes a command and a step may raise (R301, R302), that a fault discards the command's
writes (R305), what a command cannot see of the host (R321), an abort that lands during a command (R307), the restart
after a fault (R313) and the interrupt output (R310, R311). -/

namespace Sys2Proof.Machine

/-! ## What the engine's move can do -/

/-- The command fetched in `s` may raise `code`: ILLEGAL if the word encodes no command, else a code that the command
lists (R120, R301, R302). -/
def MayFault (s : State) (code : ErrCode) : Prop :=
  (code = .illegal ∧ ∃ e, decode (s.imem s.pc) = .error e) ∨
    ∃ i, decode (s.imem s.pc) = .ok i ∧ mayRaise i code = true

section
variable {s t : State}

/-- The codes of a fault are ILLEGAL to RANGE (R301). -/
theorem MayFault.toNat_mem {code : ErrCode} (h : MayFault s code) : 1 ≤ code.toNat ∧ code.toNat ≤ 5 := by
  rcases h with ⟨rfl, -⟩ | ⟨i, -, hi⟩
  · decide
  · exact toNat_of_mayRaise hi

theorem MayFault.ne_abort {code : ErrCode} (h : MayFault s code) : code ≠ .abort := by
  rintro rfl
  exact absurd h.toNat_mem.2 (by decide)

/-- The command's turn ends in a fault that it may raise, or the command completes within its frame. -/
theorem runCommand_cases (he : runCommand s = .next t) :
    (∃ code, MayFault s code ∧ t = { s with inFlight := false }.faulted code) ∨
      ∃ i, decode (s.imem s.pc) = .ok i ∧ Completed i { s with inFlight := false } t := by
  cases hd : decode (s.imem s.pc) with
  | error e =>
    cases (runCommand_of_error hd).symm.trans he
    exact .inl ⟨.illegal, .inl ⟨rfl, e, hd⟩, rfl⟩
  | ok i =>
    rw [runCommand_of_ok hd] at he
    rcases exec_cases i { s with inFlight := false } with ⟨code, hcode, hx⟩ | ⟨u, hu, hc⟩
    · cases hx.symm.trans he
      exact .inl ⟨code, .inr ⟨i, hd, hcode⟩, rfl⟩
    · cases hu.symm.trans he
      exact .inr ⟨i, rfl, hc⟩

/-- From ERR = 0, a command's turn that ends with ERR = 1 is a fault, since completing leaves ERR. -/
theorem runCommand_faults (he : runCommand s = .next t) (herr : s.err = false) (hfault : t.err = true) :
    ∃ code, MayFault s code ∧ t = { s with inFlight := false }.faulted code := by
  rcases runCommand_cases he with hf | ⟨i, -, hc⟩
  · exact hf
  · cases (hc.err.trans herr).symm.trans hfault

/-- The engine's move is none, the abort stop, or the command's (R266). -/
theorem engineStep_cases (he : engineStep s = .next t) :
    (s.busy = false ∧ t = s) ∨
    (s.busy = true ∧ s.abortp = true ∧ s.inFlight = false ∧ t = s.faulted .abort) ∨
    (s.busy = true ∧ (s.abortp = false ∨ s.inFlight = true) ∧ runCommand s = .next t) := by
  cases hb : s.busy with
  | false =>
    cases (engineStep_of_idle hb).symm.trans he
    exact .inl ⟨rfl, rfl⟩
  | true =>
    by_cases ha : s.abortp = true ∧ s.inFlight = false
    · cases (engineStep_of_abort hb ha.1 ha.2).symm.trans he
      exact .inr (.inl ⟨rfl, ha.1, ha.2, rfl⟩)
    · have hrun : s.abortp = false ∨ s.inFlight = true := by simpa [imp_iff_not_or] using ha
      exact .inr (.inr ⟨rfl, hrun, (engineStep_of_run hb hrun).symm.trans he⟩)

/-- Completing leaves ERRCODE. -/
theorem Completed.errcode {i : Instr} (hc : Completed i s t) : t.errcode = s.errcode := by
  by_cases hi : i = .halt
  · obtain ⟨-, -, -, -, hcode, -⟩ := hc.halt hi
    exact hcode
  · exact (hc.run hi).errcode

/-! ## Which steps produce a code (R301, R302) -/

/-- The raisers of a code in `s`: the abort stop at a boundary, or the command of a run in progress. -/
def Raiser (s : State) (code : ErrCode) : Prop :=
  s.busy = true ∧ ((code = .abort ∧ s.abortp = true ∧ s.inFlight = false) ∨ MayFault s code)

theorem engineStep_raiser (he : engineStep s = .next t) (hne : t.errcode ≠ s.errcode) : Raiser s t.errcode := by
  rcases engineStep_cases he with ⟨-, rfl⟩ | ⟨hb, ha, hf, rfl⟩ | ⟨hb, -, hrun⟩
  · exact absurd rfl hne
  · exact ⟨hb, .inl ⟨rfl, ha, hf⟩⟩
  · rcases runCommand_cases hrun with ⟨code, hcode, rfl⟩ | ⟨i, -, hc⟩
    · exact ⟨hb, .inr hcode⟩
    · exact absurd hc.errcode hne

/-- The boundary produces a code by the abort stop alone (R266). -/
theorem engineBoundary_raiser (hne : (engineBoundary s).errcode ≠ s.errcode) :
    Raiser s (engineBoundary s).errcode := by
  by_cases hstay : s.busy = false ∨ s.inFlight = true
  · exact absurd (congrArg State.errcode (engineBoundary_of_idle_or_inFlight hstay)) hne
  obtain ⟨hb, hf⟩ : s.busy = true ∧ s.inFlight = false := by simpa using hstay
  cases ha : s.abortp with
  | false => exact absurd (congrArg State.errcode (engineBoundary_of_run hb hf ha)) hne
  | true =>
    rw [engineBoundary_of_abort hb hf ha]
    exact ⟨hb, .inl ⟨rfl, ha, hf⟩⟩

/-- The host and the power-on leave ERRCODE or clear it (`hostAccess_errcode`). -/
theorem eventStep_raiser (e : Event) (he : eventStep e s = .next t) (hne : t.errcode ≠ s.errcode)
    (hcode : t.errcode ≠ .none) : Raiser s t.errcode := by
  cases e with
  | engine => exact engineStep_raiser he hne
  | boundary =>
    cases he
    exact engineBoundary_raiser hne
  | host a =>
    cases he
    exact absurd ((hostAccess_errcode a s).resolve_left hne) hcode
  | powerOn =>
    cases he
    exact absurd s.powerOn_errcode hcode

theorem step_raiser (he : step s = .next t) (hne : t.errcode ≠ s.errcode) (hcode : t.errcode ≠ .none) :
    Raiser s t.errcode := by
  unfold step at he
  split at he
  · exact engineStep_raiser he hne
  next e rest _ => exact eventStep_raiser (s := { s with inputs := rest }) e he hne hcode

end

/-- Settles O28: a command by `exec_cases`, any agent's step by `step_raiser`. -/
theorem commandsRaiseOnlyTheirCodes : Obligations.CommandsRaiseOnlyTheirCodes := by
  unfold Obligations.CommandsRaiseOnlyTheirCodes
  refine ⟨fun i s t herr he hfault => ?_, fun s t => step_raiser⟩
  rcases exec_cases i s with ⟨code, hcode, hx⟩ | ⟨u, hu, hc⟩
  · cases hx.symm.trans he
    exact hcode
  · cases hu.symm.trans he
    cases (hc.err.trans herr).symm.trans hfault

/-! ## A fault discards the command's writes (R305) -/

/-- Settles O29: the step is the command's turn (`step_of_run`), and one that faults leaves the state of its fault entry
(`runCommand_faults`). -/
theorem faultsArePrecise : Obligations.FaultsArePrecise := by
  unfold Obligations.FaultsArePrecise
  intro s s' t ht hb ha herr he hfault
  rw [step_of_run ht hb ha] at he
  obtain ⟨inputs, rfl⟩ := ht.exists_inputs
  obtain ⟨code, hcode, rfl⟩ := runCommand_faults he herr hfault
  exact ⟨rfl, hcode.toNat_mem⟩

/-! ## Commands and the host's registers (R321) -/

section
variable (s : State) (ie xerr herr : Bool) (sel : RegIdx) (count : Word) (xsign : Bool) (rdata : Word)

/-- A branch's condition looks at the flags alone (R118). -/
theorem branch_withHostSide (c : Cond) (off : Int) :
    (s.withHostSide ie xerr herr sel count xsign rdata).branch c off =
      (s.branch c off).withHostSide ie xerr herr sel count xsign rdata := by
  simp only [State.branch_eq]
  cases c <;> rfl

theorem drawInverse_withHostSide :
    (s.withHostSide ie xerr herr sel count xsign rdata).drawInverse =
      s.drawInverse.withHostSide ie xerr herr sel count xsign rdata := by
  simp only [State.drawInverse, State.withHostSide]
  split <;> rfl

/-- No effect of a command touches the host's registers or depends on them. -/
theorem Effect.apply_withHostSide (e : Effect) :
    e.apply (s.withHostSide ie xerr herr sel count xsign rdata) =
      (e.apply s).withHostSide ie xerr herr sel count xsign rdata := by
  cases e with
  | branch c off => exact branch_withHostSide ..
  | invert rd v ni => simp only [Effect.apply, drawInverse_withHostSide]; rfl
  | fault | write | divide | compare | advance | halt => rfl

end

/-- Settles O36: the host's registers are no operands (`exec_hasEffect`), and the effect leaves them
(`Effect.apply_withHostSide`). -/
theorem commandsIgnoreHostRegisters : Obligations.CommandsIgnoreHostRegisters := by
  unfold Obligations.CommandsIgnoreHostRegisters
  intro i s t ie xerr herr sel count xsign rdata he
  obtain ⟨e, -, hexec⟩ := exec_hasEffect i s
  cases (hexec s ⟨rfl, rfl, rfl⟩).symm.trans he
  rw [hexec (s.withHostSide ie xerr herr sel count xsign rdata) ⟨rfl, rfl, rfl⟩, Effect.apply_withHostSide]

/-! ## An abort that lands while a command is in progress (R307) -/

/-- Settles O37: the command's turn faults, halts, or leaves the request for the boundary that follows it. -/
theorem abortWaitsForTheCommand : Obligations.AbortWaitsForTheCommand := by
  unfold Obligations.AbortWaitsForTheCommand
  intro s t h hb ha hf hin he
  rw [step_of_run (.inl ⟨hin, rfl⟩) hb (.inr hf)] at he
  rcases runCommand_cases he with ⟨code, hcode, rfl⟩ | ⟨i, -, hc⟩
  · exact ⟨fun _ => ⟨rfl, hcode.ne_abort⟩, fun hbusy => absurd hbusy Bool.false_ne_true⟩
  by_cases hi : i = .halt
  · obtain ⟨hbusy, -, habort, -⟩ := hc.halt hi
    have hnone : t.errcode = .none := hc.errcode.trans (h.errcode_err.1 (h.busy_clear hb).2)
    exact ⟨fun _ => ⟨habort, by simp [hnone]⟩, fun hrun => absurd (hbusy.symm.trans hrun) (by decide)⟩
  · obtain ⟨hbusy, -, -, -, habort, hflight⟩ := hc.run hi
    have hbusy' : t.busy = true := hbusy.trans hb
    have habort' : t.abortp = true := habort.trans ha
    exact ⟨fun hidle => absurd (hbusy'.symm.trans hidle) (by decide),
      fun _ => ⟨habort', step_of_abort (.inl ⟨hc.host.inputs.trans hin, rfl⟩) hbusy' habort' hflight⟩⟩

/-! ## The restart after a fault (R313) -/

/-- START undoes the fault entry of a run that no abort was pending in (R280, R304). -/
theorem State.Inv.startRun_faulted {s : State} (h : s.Inv) (hb : s.busy = true) (ha : s.abortp = false)
    (code : ErrCode) : (s.faulted code).startRun = s := by
  obtain ⟨hdone, herr⟩ := h.busy_clear hb
  have hnone := h.errcode_err.1 herr
  cases s
  simp_all [State.startRun, State.faulted]

/-- The bits of the CTRL word that starts a run and keeps IE. -/
theorem startWord_bits (ie : Bool) : (if ie then 9 else 1 : Word).getLsbD 0 = true ∧
    (if ie then 9 else 1 : Word).getLsbD 2 = false ∧ (if ie then 9 else 1 : Word).getLsbD 3 = ie := by
  cases ie <;> decide

/-- A CTRL write with START while idle, keeping IE, is `startRun` alone (R280, R284). -/
theorem hostWrite_start_of_idle {s : State} (hb : s.busy = false) :
    hostWrite 0x004 (if s.ie then 9 else 1) s = s.startRun := by
  obtain ⟨hstart, hreset, hie⟩ := startWord_bits s.ie
  rw [hostWrite_eq_writePort 0x004 _ s (.inl hb)]
  refine (ctrlWrite_of_start hreset hb hstart).trans ?_
  rw [hie]
  rfl

/-- Settles O38: START gives back the state that the faulting command ran from (`State.Inv.startRun_faulted`), but for
the model's own `inFlight`, which the command's turn does not look at. -/
theorem restartFaultsAgain : Obligations.RestartFaultsAgain := by
  unfold Obligations.RestartFaultsAgain
  intro s t h hb ha hin he hfault
  obtain ⟨-, herr⟩ := h.busy_clear hb
  have hrun : step s = runCommand s := step_of_run (.inl ⟨hin, rfl⟩) hb (.inl ha)
  obtain ⟨code, -, rfl⟩ := runCommand_faults (hrun.symm.trans he) herr hfault
  have hstart : hostWrite 0x004 (if s.ie then 9 else 1) ({ s with inFlight := false }.faulted code) =
      { s with inFlight := false } :=
    (hostWrite_start_of_idle rfl).trans (h.clearInFlight.startRun_faulted hb ha code)
  have hagain : step { s with inFlight := false } = runCommand { s with inFlight := false } :=
    step_of_run (.inl ⟨hin, rfl⟩) hb (.inl ha)
  exact ⟨_, hstart, hb, herr, rfl, hagain.trans (hrun.symm.trans he)⟩

/-! ## The interrupt output (R310, R311) -/

section
variable {s t : State}

/-- irq is low while DONE and ERR are 0 (R310). -/
theorem State.irq_of_clear (hd : s.done = false) (he : s.err = false) : s.irq = false := by
  rw [State.irq, hd, he, Bool.or_self, Bool.and_false]

/-- irq follows IE once DONE or ERR is 1 (R310). -/
theorem State.irq_of_end (h : s.done = true ∨ s.err = true) : s.irq = s.ie := by
  rw [State.irq, Bool.or_eq_true_iff.2 h, Bool.and_true]

/-- An engine step that ends a run sets DONE or ERR and leaves IE (R261, R304). -/
theorem engineStep_ends_run (hb : s.busy = true) (he : engineStep s = .next t) (ht : t.busy = false) :
    (t.done = true ∨ t.err = true) ∧ t.ie = s.ie := by
  rcases engineStep_cases he with ⟨hidle, -⟩ | ⟨-, -, -, rfl⟩ | ⟨-, -, hrun⟩
  · cases hb.symm.trans hidle
  · exact ⟨.inr rfl, rfl⟩
  rcases runCommand_cases hrun with ⟨code, -, rfl⟩ | ⟨i, -, hc⟩
  · exact ⟨.inr rfl, rfl⟩
  · obtain ⟨-, hdone, -⟩ := hc.halt (hc.eq_halt hb ht)
    exact ⟨.inl hdone, hc.host.ie⟩

end

/-- Settles O39: a run in progress has DONE and ERR at 0, the engine sets one of them to end it (`engineStep_ends_run`),
and a STATUS write of 0x6 clears both (`statusWriteClears`). -/
theorem irqMarksTheEndOfARun : Obligations.IrqMarksTheEndOfARun := by
  unfold Obligations.IrqMarksTheEndOfARun
  intro s t h
  refine ⟨fun hb => ?running, fun hb hturn he ht => ?ended, ?cleared⟩
  case running =>
    obtain ⟨hdone, herr⟩ := h.busy_clear hb
    exact State.irq_of_clear hdone herr
  case ended =>
    rw [step_of_engineTurn _ _ hturn] at he
    obtain ⟨hend, hie⟩ := engineStep_ends_run (s := { s with inputs := s.inputs.tail }) hb he ht
    exact (State.irq_of_end hend).trans hie
  case cleared =>
    rw [statusWriteClears s 6]
    exact State.irq_of_clear rfl rfl

end Sys2Proof.Machine

/-! PROOFS. What the two resets leave (R340 to R343). -/

namespace Sys2Proof.Machine

/-! ## The power-on state has the invariant (R341) -/

/-- The invariant asks of the configuration only that it be one of R8 and R9: the rest of it holds of the reset values
themselves, at any draw of memory. -/
theorem State.atPowerOn_inv {c : Config} (hc : c.valid = true) (epoch draws : Nat) (rdata : Word)
    (inputs : List Event) : (State.atPowerOn c epoch draws rdata inputs).Inv where
  cfg_valid := hc
  regs_fit := State.atPowerOn_regsFit c epoch draws rdata inputs
  pc_lt := imemWords_pos c
  mem_wf := rfl
  mem_mapped := fun _ hcell => absurd hcell List.not_mem_nil
  done_err := fun ⟨hdone, _⟩ => Bool.false_ne_true hdone
  errcode_err := iff_of_true rfl rfl
  busy_clear := fun hbusy => absurd hbusy Bool.false_ne_true
  abortp_busy := id
  inFlight_busy := id

/-- Settles O26: `State.reset` is the power-on state of the reference configuration, which is one of R8 and R9. -/
theorem resetMeetsTheInvariant : Obligations.ResetMeetsTheInvariant := by
  unfold Obligations.ResetMeetsTheInvariant
  refine ⟨?reference, fun c epoch draws rdata inputs hc => State.atPowerOn_inv hc epoch draws rdata inputs⟩
  have hvalid : Config.reference.valid = true := by decide
  exact State.atPowerOn_inv hvalid 0 0 0 []

/-! ## Every element after a reset (R341 to R343) -/

theorem State.atPowerOn_reg (c : Config) (epoch draws : Nat) (rdata : Word) (inputs : List Event) (k : RegIdx) :
    (State.atPowerOn c epoch draws rdata inputs).reg k = 0 := by
  simp [State.reg, State.atPowerOn]

/-- Both resets leave the power-on state of the same configuration, up to the contents of BUF and IMEM (R341, R342). -/
theorem eq_atPowerOn_withMem_of_reset {s t : State} (h : t = s.powerOn ∨ t = s.softReset) :
    ∃ (epoch : Nat) (mem : Memory),
      t = { State.atPowerOn s.cfg epoch s.draws s.rdata s.inputs with mem := mem } := by
  rcases h with rfl | rfl
  · exact ⟨s.epoch + 1, [], rfl⟩
  · exact ⟨s.epoch, s.mem, rfl⟩

/-- The soft reset neither writes a byte nor makes a new draw for the unwritten ones (R342). -/
theorem softReset_sameMemory (s : State) : sameMemory s s.softReset :=
  sameMemory_of_mem_eq s.softReset_mem s.softReset_epoch

/-- Settles O53: the elements by the common form of the two resets (`eq_atPowerOn_withMem_of_reset`), memory by
`softReset_sameMemory`. -/
theorem resetsSetEveryElement : Obligations.ResetsSetEveryElement := by
  unfold Obligations.ResetsSetEveryElement
  intro s t h
  have hmem : t = s.softReset → sameMemory s t := fun ht => ht ▸ softReset_sameMemory s
  obtain ⟨epoch, mem, rfl⟩ := eq_atPowerOn_withMem_of_reset h
  have hreg := State.atPowerOn_reg s.cfg epoch s.draws s.rdata s.inputs
  exact ⟨hreg, rfl, rfl, rfl, rfl, rfl, rfl, rfl, rfl, rfl, rfl, rfl, rfl, rfl, rfl, rfl, rfl, rfl,
    State.irq_of_clear rfl rfl, hmem⟩

end Sys2Proof.Machine
